-- ==== Sys2Proof/Word.lean ====
section
/-! DEFINITION. The two value types of the machine (spec 00 rules R1, R2): a Byte is an integer in [0, 255], an
Address an integer in [0, 65535]. As bit vectors they can hold nothing else. -/

namespace Sys2Proof

/-- R1: the native register and cell width; bit 0 is the least significant bit. -/
abbrev Byte := BitVec 8

/-- R2: an index into Memory. -/
abbrev Addr := BitVec 16

end Sys2Proof
end

