-- ==== Sys2Proof/Syntax.lean ====
section
/-! DEFINITION. The instructions: one constructor per row of spec/opcode_table.json, a (mnemonic, addressing mode)
pair (spec 30 rules R61, R64). A constructor carries what its operand bytes mean (R63): a byte for the one-byte modes
(`v` an immediate value, `d` a branch displacement, `z` an address in page zero), a 16-bit address `a` for the
two-byte modes. -/

namespace Sys2Proof

/-- A decoded Command with its operand (R60): 151 forms of 56 mnemonics. -/
inductive Instr where
  -- ADC, add with carry (R130)
  | adcImmediate (v : Byte)
  | adcZeroPage (z : Byte)
  | adcZeroPageX (z : Byte)
  | adcAbsolute (a : Addr)
  | adcAbsoluteX (a : Addr)
  | adcAbsoluteY (a : Addr)
  | adcIndirectX (z : Byte)
  | adcIndirectY (z : Byte)
  -- AND, bitwise AND (R150)
  | andImmediate (v : Byte)
  | andZeroPage (z : Byte)
  | andZeroPageX (z : Byte)
  | andAbsolute (a : Addr)
  | andAbsoluteX (a : Addr)
  | andAbsoluteY (a : Addr)
  | andIndirectX (z : Byte)
  | andIndirectY (z : Byte)
  -- ASL, arithmetic shift left (R154)
  | aslAccumulator
  | aslZeroPage (z : Byte)
  | aslZeroPageX (z : Byte)
  | aslAbsolute (a : Addr)
  | aslAbsoluteX (a : Addr)
  -- BCC, branch if carry clear (R171)
  | bccRelative (d : Byte)
  -- BCS, branch if carry set (R172)
  | bcsRelative (d : Byte)
  -- BEQ, branch if equal (R173)
  | beqRelative (d : Byte)
  -- BIT, bit test (R153)
  | bitZeroPage (z : Byte)
  | bitAbsolute (a : Addr)
  -- BMI, branch if minus (R175)
  | bmiRelative (d : Byte)
  -- BNE, branch if not equal (R174)
  | bneRelative (d : Byte)
  -- BPL, branch if plus (R176)
  | bplRelative (d : Byte)
  -- BRK, break (R202)
  | brkImplied
  -- BVC, branch if overflow clear (R177)
  | bvcRelative (d : Byte)
  -- BVS, branch if overflow set (R178)
  | bvsRelative (d : Byte)
  -- CLC, clear carry (R194)
  | clcImplied
  -- CLD, clear decimal (R198)
  | cldImplied
  -- CLI, clear interrupt-disable (R196)
  | cliImplied
  -- CLV, clear overflow (R200)
  | clvImplied
  -- CMP, compare accumulator (R132)
  | cmpImmediate (v : Byte)
  | cmpZeroPage (z : Byte)
  | cmpZeroPageX (z : Byte)
  | cmpAbsolute (a : Addr)
  | cmpAbsoluteX (a : Addr)
  | cmpAbsoluteY (a : Addr)
  | cmpIndirectX (z : Byte)
  | cmpIndirectY (z : Byte)
  -- CPX, compare X (R133)
  | cpxImmediate (v : Byte)
  | cpxZeroPage (z : Byte)
  | cpxAbsolute (a : Addr)
  -- CPY, compare Y (R134)
  | cpyImmediate (v : Byte)
  | cpyZeroPage (z : Byte)
  | cpyAbsolute (a : Addr)
  -- DEC, decrement memory (R138)
  | decZeroPage (z : Byte)
  | decZeroPageX (z : Byte)
  | decAbsolute (a : Addr)
  | decAbsoluteX (a : Addr)
  -- DEX, decrement X (R139)
  | dexImplied
  -- DEY, decrement Y (R140)
  | deyImplied
  -- EOR, bitwise exclusive OR (R152)
  | eorImmediate (v : Byte)
  | eorZeroPage (z : Byte)
  | eorZeroPageX (z : Byte)
  | eorAbsolute (a : Addr)
  | eorAbsoluteX (a : Addr)
  | eorAbsoluteY (a : Addr)
  | eorIndirectX (z : Byte)
  | eorIndirectY (z : Byte)
  -- INC, increment memory (R135)
  | incZeroPage (z : Byte)
  | incZeroPageX (z : Byte)
  | incAbsolute (a : Addr)
  | incAbsoluteX (a : Addr)
  -- INX, increment X (R136)
  | inxImplied
  -- INY, increment Y (R137)
  | inyImplied
  -- JMP, jump (R181)
  | jmpAbsolute (a : Addr)
  | jmpIndirect (a : Addr)
  -- JSR, jump to subroutine (R179)
  | jsrAbsolute (a : Addr)
  -- LDA, load accumulator (R110)
  | ldaImmediate (v : Byte)
  | ldaZeroPage (z : Byte)
  | ldaZeroPageX (z : Byte)
  | ldaAbsolute (a : Addr)
  | ldaAbsoluteX (a : Addr)
  | ldaAbsoluteY (a : Addr)
  | ldaIndirectX (z : Byte)
  | ldaIndirectY (z : Byte)
  -- LDX, load index X (R111)
  | ldxImmediate (v : Byte)
  | ldxZeroPage (z : Byte)
  | ldxZeroPageY (z : Byte)
  | ldxAbsolute (a : Addr)
  | ldxAbsoluteY (a : Addr)
  -- LDY, load index Y (R112)
  | ldyImmediate (v : Byte)
  | ldyZeroPage (z : Byte)
  | ldyZeroPageX (z : Byte)
  | ldyAbsolute (a : Addr)
  | ldyAbsoluteX (a : Addr)
  -- LSR, logical shift right (R155)
  | lsrAccumulator
  | lsrZeroPage (z : Byte)
  | lsrZeroPageX (z : Byte)
  | lsrAbsolute (a : Addr)
  | lsrAbsoluteX (a : Addr)
  -- NOP, no operation (R201)
  | nopImplied
  -- ORA, bitwise OR (R151)
  | oraImmediate (v : Byte)
  | oraZeroPage (z : Byte)
  | oraZeroPageX (z : Byte)
  | oraAbsolute (a : Addr)
  | oraAbsoluteX (a : Addr)
  | oraAbsoluteY (a : Addr)
  | oraIndirectX (z : Byte)
  | oraIndirectY (z : Byte)
  -- PHA, push accumulator (R190)
  | phaImplied
  -- PHP, push processor status (R191)
  | phpImplied
  -- PLA, pull accumulator (R192)
  | plaImplied
  -- PLP, pull processor status (R193)
  | plpImplied
  -- ROL, rotate left through carry (R156)
  | rolAccumulator
  | rolZeroPage (z : Byte)
  | rolZeroPageX (z : Byte)
  | rolAbsolute (a : Addr)
  | rolAbsoluteX (a : Addr)
  -- ROR, rotate right through carry (R157)
  | rorAccumulator
  | rorZeroPage (z : Byte)
  | rorZeroPageX (z : Byte)
  | rorAbsolute (a : Addr)
  | rorAbsoluteX (a : Addr)
  -- RTI, return from interrupt (R182)
  | rtiImplied
  -- RTS, return from subroutine (R180)
  | rtsImplied
  -- SBC, subtract with carry (R131)
  | sbcImmediate (v : Byte)
  | sbcZeroPage (z : Byte)
  | sbcZeroPageX (z : Byte)
  | sbcAbsolute (a : Addr)
  | sbcAbsoluteX (a : Addr)
  | sbcAbsoluteY (a : Addr)
  | sbcIndirectX (z : Byte)
  | sbcIndirectY (z : Byte)
  -- SEC, set carry (R195)
  | secImplied
  -- SED, set decimal (R199)
  | sedImplied
  -- SEI, set interrupt-disable (R197)
  | seiImplied
  -- STA, store accumulator (R113)
  | staZeroPage (z : Byte)
  | staZeroPageX (z : Byte)
  | staAbsolute (a : Addr)
  | staAbsoluteX (a : Addr)
  | staAbsoluteY (a : Addr)
  | staIndirectX (z : Byte)
  | staIndirectY (z : Byte)
  -- STX, store index X (R114)
  | stxZeroPage (z : Byte)
  | stxZeroPageY (z : Byte)
  | stxAbsolute (a : Addr)
  -- STY, store index Y (R115)
  | styZeroPage (z : Byte)
  | styZeroPageX (z : Byte)
  | styAbsolute (a : Addr)
  -- TAX, transfer A to X (R116)
  | taxImplied
  -- TAY, transfer A to Y (R117)
  | tayImplied
  -- TSX, transfer SP to X (R120)
  | tsxImplied
  -- TXA, transfer X to A (R118)
  | txaImplied
  -- TXS, transfer X to SP (R121)
  | txsImplied
  -- TYA, transfer Y to A (R119)
  | tyaImplied
  deriving DecidableEq, Repr

end Sys2Proof
end

