-- ==== Sys2Proof/WellFormed.lean ====
section
/-! DEFINITION. The spec's own view of an instruction (a Command, that is a mnemonic and an addressing mode, and its
operand bytes: spec 30 rules R60 to R63), and what makes such an instruction well formed: the pair is legal (R68) and
the number of operand bytes is the one of the mode (R62). Operand bytes themselves are never illegal (R67). -/

namespace Sys2Proof

/-- The 56 mnemonics (R64). -/
inductive Mnemonic where
  | adc | and | asl | bcc | bcs | beq | bit | bmi
  | bne | bpl | brk | bvc | bvs | clc | cld | cli
  | clv | cmp | cpx | cpy | dec | dex | dey | eor
  | inc | inx | iny | jmp | jsr | lda | ldx | ldy
  | lsr | nop | ora | pha | php | pla | plp | rol
  | ror | rti | rts | sbc | sec | sed | sei | sta
  | stx | sty | tax | tay | tsx | txa | txs | tya
  deriving DecidableEq, Repr

/-- The thirteen addressing-mode identifiers (R61). -/
inductive Mode where
  | implied | accumulator | immediate | relative
  | zeroPage | zeroPageX | zeroPageY | absolute | absoluteX | absoluteY | indirect | indirectX | indirectY
  deriving DecidableEq, Repr

/-- R62: how many operand bytes follow the opcode. -/
def operandLength : Mode → Nat
  | .implied | .accumulator => 0
  | .immediate | .relative | .zeroPage | .zeroPageX | .zeroPageY | .indirectX | .indirectY => 1
  | .absolute | .absoluteX | .absoluteY | .indirect => 2

/-- R68: the modes each mnemonic has. -/
def Mnemonic.modes : Mnemonic → List Mode
  | .adc | .and | .cmp | .eor | .lda | .ora | .sbc =>
    [.immediate, .zeroPage, .zeroPageX, .absolute, .absoluteX, .absoluteY, .indirectX, .indirectY]
  | .asl | .lsr | .rol | .ror =>
    [.accumulator, .zeroPage, .zeroPageX, .absolute, .absoluteX]
  | .bcc | .bcs | .beq | .bmi | .bne | .bpl | .bvc | .bvs =>
    [.relative]
  | .bit =>
    [.zeroPage, .absolute]
  | .brk | .clc | .cld | .cli | .clv | .dex | .dey | .inx | .iny | .nop | .pha | .php | .pla | .plp | .rti | .rts | .sec | .sed | .sei | .tax | .tay | .tsx | .txa | .txs | .tya =>
    [.implied]
  | .cpx | .cpy =>
    [.immediate, .zeroPage, .absolute]
  | .dec | .inc =>
    [.zeroPage, .zeroPageX, .absolute, .absoluteX]
  | .jmp =>
    [.absolute, .indirect]
  | .jsr =>
    [.absolute]
  | .ldx =>
    [.immediate, .zeroPage, .zeroPageY, .absolute, .absoluteY]
  | .ldy =>
    [.immediate, .zeroPage, .zeroPageX, .absolute, .absoluteX]
  | .sta =>
    [.zeroPage, .zeroPageX, .absolute, .absoluteX, .absoluteY, .indirectX, .indirectY]
  | .stx =>
    [.zeroPage, .zeroPageY, .absolute]
  | .sty =>
    [.zeroPage, .zeroPageX, .absolute]

/-- An instruction as the spec describes it at run time (R60): a Command plus its operand bytes, in memory order.
The modes without operand bytes have none. -/
structure Instruction where
  mnemonic : Mnemonic
  mode     : Mode
  op       : List Byte
  deriving DecidableEq, Repr

/-- R62, R68: the (mnemonic, mode) pair is legal and the mode has that many operand bytes. -/
def Instruction.wf (r : Instruction) : Bool :=
  r.mnemonic.modes.contains r.mode && r.op.length == operandLength r.mode

/-- An addressing mode together with what its operand bytes mean (R63). This is what a handler is given (R84). -/
inductive Operand where
  | implied
  | accumulator
  | immediate (v : Byte)
  | relative (d : Byte)
  | zeroPage (z : Byte)
  | zeroPageX (z : Byte)
  | zeroPageY (z : Byte)
  | absolute (a : Addr)
  | absoluteX (a : Addr)
  | absoluteY (a : Addr)
  | indirect (a : Addr)
  | indirectX (z : Byte)
  | indirectY (z : Byte)
  deriving DecidableEq, Repr

def Operand.mode : Operand → Mode
  | .implied => .implied
  | .accumulator => .accumulator
  | .immediate _ => .immediate
  | .relative _ => .relative
  | .zeroPage _ => .zeroPage
  | .zeroPageX _ => .zeroPageX
  | .zeroPageY _ => .zeroPageY
  | .absolute _ => .absolute
  | .absoluteX _ => .absoluteX
  | .absoluteY _ => .absoluteY
  | .indirect _ => .indirect
  | .indirectX _ => .indirectX
  | .indirectY _ => .indirectY

/-- R42, R63: the operand bytes in memory order, low byte first. -/
def Operand.bytes : Operand → List Byte
  | .implied | .accumulator => []
  | .immediate b | .relative b | .zeroPage b | .zeroPageX b | .zeroPageY b | .indirectX b | .indirectY b => [b]
  | .absolute a | .absoluteX a | .absoluteY a | .indirect a => [a.setWidth 8, (a >>> 8).setWidth 8]

/-- The mnemonic and the operand of each constructor. -/
def Instr.view : Instr → Mnemonic × Operand
  | .adcImmediate v => (.adc, .immediate v)
  | .adcZeroPage z => (.adc, .zeroPage z)
  | .adcZeroPageX z => (.adc, .zeroPageX z)
  | .adcAbsolute a => (.adc, .absolute a)
  | .adcAbsoluteX a => (.adc, .absoluteX a)
  | .adcAbsoluteY a => (.adc, .absoluteY a)
  | .adcIndirectX z => (.adc, .indirectX z)
  | .adcIndirectY z => (.adc, .indirectY z)
  | .andImmediate v => (.and, .immediate v)
  | .andZeroPage z => (.and, .zeroPage z)
  | .andZeroPageX z => (.and, .zeroPageX z)
  | .andAbsolute a => (.and, .absolute a)
  | .andAbsoluteX a => (.and, .absoluteX a)
  | .andAbsoluteY a => (.and, .absoluteY a)
  | .andIndirectX z => (.and, .indirectX z)
  | .andIndirectY z => (.and, .indirectY z)
  | .aslAccumulator => (.asl, .accumulator)
  | .aslZeroPage z => (.asl, .zeroPage z)
  | .aslZeroPageX z => (.asl, .zeroPageX z)
  | .aslAbsolute a => (.asl, .absolute a)
  | .aslAbsoluteX a => (.asl, .absoluteX a)
  | .bccRelative d => (.bcc, .relative d)
  | .bcsRelative d => (.bcs, .relative d)
  | .beqRelative d => (.beq, .relative d)
  | .bitZeroPage z => (.bit, .zeroPage z)
  | .bitAbsolute a => (.bit, .absolute a)
  | .bmiRelative d => (.bmi, .relative d)
  | .bneRelative d => (.bne, .relative d)
  | .bplRelative d => (.bpl, .relative d)
  | .brkImplied => (.brk, .implied)
  | .bvcRelative d => (.bvc, .relative d)
  | .bvsRelative d => (.bvs, .relative d)
  | .clcImplied => (.clc, .implied)
  | .cldImplied => (.cld, .implied)
  | .cliImplied => (.cli, .implied)
  | .clvImplied => (.clv, .implied)
  | .cmpImmediate v => (.cmp, .immediate v)
  | .cmpZeroPage z => (.cmp, .zeroPage z)
  | .cmpZeroPageX z => (.cmp, .zeroPageX z)
  | .cmpAbsolute a => (.cmp, .absolute a)
  | .cmpAbsoluteX a => (.cmp, .absoluteX a)
  | .cmpAbsoluteY a => (.cmp, .absoluteY a)
  | .cmpIndirectX z => (.cmp, .indirectX z)
  | .cmpIndirectY z => (.cmp, .indirectY z)
  | .cpxImmediate v => (.cpx, .immediate v)
  | .cpxZeroPage z => (.cpx, .zeroPage z)
  | .cpxAbsolute a => (.cpx, .absolute a)
  | .cpyImmediate v => (.cpy, .immediate v)
  | .cpyZeroPage z => (.cpy, .zeroPage z)
  | .cpyAbsolute a => (.cpy, .absolute a)
  | .decZeroPage z => (.dec, .zeroPage z)
  | .decZeroPageX z => (.dec, .zeroPageX z)
  | .decAbsolute a => (.dec, .absolute a)
  | .decAbsoluteX a => (.dec, .absoluteX a)
  | .dexImplied => (.dex, .implied)
  | .deyImplied => (.dey, .implied)
  | .eorImmediate v => (.eor, .immediate v)
  | .eorZeroPage z => (.eor, .zeroPage z)
  | .eorZeroPageX z => (.eor, .zeroPageX z)
  | .eorAbsolute a => (.eor, .absolute a)
  | .eorAbsoluteX a => (.eor, .absoluteX a)
  | .eorAbsoluteY a => (.eor, .absoluteY a)
  | .eorIndirectX z => (.eor, .indirectX z)
  | .eorIndirectY z => (.eor, .indirectY z)
  | .incZeroPage z => (.inc, .zeroPage z)
  | .incZeroPageX z => (.inc, .zeroPageX z)
  | .incAbsolute a => (.inc, .absolute a)
  | .incAbsoluteX a => (.inc, .absoluteX a)
  | .inxImplied => (.inx, .implied)
  | .inyImplied => (.iny, .implied)
  | .jmpAbsolute a => (.jmp, .absolute a)
  | .jmpIndirect a => (.jmp, .indirect a)
  | .jsrAbsolute a => (.jsr, .absolute a)
  | .ldaImmediate v => (.lda, .immediate v)
  | .ldaZeroPage z => (.lda, .zeroPage z)
  | .ldaZeroPageX z => (.lda, .zeroPageX z)
  | .ldaAbsolute a => (.lda, .absolute a)
  | .ldaAbsoluteX a => (.lda, .absoluteX a)
  | .ldaAbsoluteY a => (.lda, .absoluteY a)
  | .ldaIndirectX z => (.lda, .indirectX z)
  | .ldaIndirectY z => (.lda, .indirectY z)
  | .ldxImmediate v => (.ldx, .immediate v)
  | .ldxZeroPage z => (.ldx, .zeroPage z)
  | .ldxZeroPageY z => (.ldx, .zeroPageY z)
  | .ldxAbsolute a => (.ldx, .absolute a)
  | .ldxAbsoluteY a => (.ldx, .absoluteY a)
  | .ldyImmediate v => (.ldy, .immediate v)
  | .ldyZeroPage z => (.ldy, .zeroPage z)
  | .ldyZeroPageX z => (.ldy, .zeroPageX z)
  | .ldyAbsolute a => (.ldy, .absolute a)
  | .ldyAbsoluteX a => (.ldy, .absoluteX a)
  | .lsrAccumulator => (.lsr, .accumulator)
  | .lsrZeroPage z => (.lsr, .zeroPage z)
  | .lsrZeroPageX z => (.lsr, .zeroPageX z)
  | .lsrAbsolute a => (.lsr, .absolute a)
  | .lsrAbsoluteX a => (.lsr, .absoluteX a)
  | .nopImplied => (.nop, .implied)
  | .oraImmediate v => (.ora, .immediate v)
  | .oraZeroPage z => (.ora, .zeroPage z)
  | .oraZeroPageX z => (.ora, .zeroPageX z)
  | .oraAbsolute a => (.ora, .absolute a)
  | .oraAbsoluteX a => (.ora, .absoluteX a)
  | .oraAbsoluteY a => (.ora, .absoluteY a)
  | .oraIndirectX z => (.ora, .indirectX z)
  | .oraIndirectY z => (.ora, .indirectY z)
  | .phaImplied => (.pha, .implied)
  | .phpImplied => (.php, .implied)
  | .plaImplied => (.pla, .implied)
  | .plpImplied => (.plp, .implied)
  | .rolAccumulator => (.rol, .accumulator)
  | .rolZeroPage z => (.rol, .zeroPage z)
  | .rolZeroPageX z => (.rol, .zeroPageX z)
  | .rolAbsolute a => (.rol, .absolute a)
  | .rolAbsoluteX a => (.rol, .absoluteX a)
  | .rorAccumulator => (.ror, .accumulator)
  | .rorZeroPage z => (.ror, .zeroPage z)
  | .rorZeroPageX z => (.ror, .zeroPageX z)
  | .rorAbsolute a => (.ror, .absolute a)
  | .rorAbsoluteX a => (.ror, .absoluteX a)
  | .rtiImplied => (.rti, .implied)
  | .rtsImplied => (.rts, .implied)
  | .sbcImmediate v => (.sbc, .immediate v)
  | .sbcZeroPage z => (.sbc, .zeroPage z)
  | .sbcZeroPageX z => (.sbc, .zeroPageX z)
  | .sbcAbsolute a => (.sbc, .absolute a)
  | .sbcAbsoluteX a => (.sbc, .absoluteX a)
  | .sbcAbsoluteY a => (.sbc, .absoluteY a)
  | .sbcIndirectX z => (.sbc, .indirectX z)
  | .sbcIndirectY z => (.sbc, .indirectY z)
  | .secImplied => (.sec, .implied)
  | .sedImplied => (.sed, .implied)
  | .seiImplied => (.sei, .implied)
  | .staZeroPage z => (.sta, .zeroPage z)
  | .staZeroPageX z => (.sta, .zeroPageX z)
  | .staAbsolute a => (.sta, .absolute a)
  | .staAbsoluteX a => (.sta, .absoluteX a)
  | .staAbsoluteY a => (.sta, .absoluteY a)
  | .staIndirectX z => (.sta, .indirectX z)
  | .staIndirectY z => (.sta, .indirectY z)
  | .stxZeroPage z => (.stx, .zeroPage z)
  | .stxZeroPageY z => (.stx, .zeroPageY z)
  | .stxAbsolute a => (.stx, .absolute a)
  | .styZeroPage z => (.sty, .zeroPage z)
  | .styZeroPageX z => (.sty, .zeroPageX z)
  | .styAbsolute a => (.sty, .absolute a)
  | .taxImplied => (.tax, .implied)
  | .tayImplied => (.tay, .implied)
  | .tsxImplied => (.tsx, .implied)
  | .txaImplied => (.txa, .implied)
  | .txsImplied => (.txs, .implied)
  | .tyaImplied => (.tya, .implied)

def Instr.mnemonic (i : Instr) : Mnemonic := i.view.1

def Instr.operand (i : Instr) : Operand := i.view.2

def Instr.mode (i : Instr) : Mode := i.operand.mode

/-- R60, R62: the number of bytes the instruction takes in Memory. -/
def Instr.length (i : Instr) : Nat := 1 + operandLength i.mode

def Instr.toInstruction (i : Instr) : Instruction := ⟨i.mnemonic, i.mode, i.operand.bytes⟩

/-- Every operand at every value is legal (R67), so this is a check of the syntax itself: that each constructor stands
for a legal pair (R68) with the right number of operand bytes. -/
def Instr.wf (i : Instr) : Bool := i.toInstruction.wf

end Sys2Proof
end

