-- ==== Sys2Proof/Decode.lean ====
section
/-! DEFINITION. Decoding and encoding (spec 30). The decoder follows the map of rule R64 by opcode byte (row = high
nibble); the encoder follows R64's other table, by mnemonic and mode. The spec says that the two are inverse (R65),
which is stated, not assumed. All opcode values but A9 and 85 are the standard 6502 ones (log 11). -/

namespace Sys2Proof

/-- `hi:lo`, the Address `hi * 256 + lo` (spec 00 section 5). -/
def mkAddr (hi lo : Byte) : Addr := hi ++ lo

/-- R2: `a[7:0]`. -/
def loByte (a : Addr) : Byte := a.setWidth 8

/-- R2: `a[15:8]`. -/
def hiByte (a : Addr) : Byte := (a >>> 8).setWidth 8

/-- `zext_16(b)`: the Address with the same numeric value. -/
def zext16 (b : Byte) : Addr := b.setWidth 16

/-- What an opcode byte stands for: a whole instruction, or one that still needs its operand byte or its 16-bit
operand address (R60, the formats F1, F2, F3). -/
inductive Shape where
  | f1 (i : Instr)
  | f2 (mk : Byte → Instr)
  | f3 (mk : Addr → Instr)

/-- R64, the row of high nibble 0. -/
def opcodeRow0 : List (Byte × Shape) := [
  (0x00, .f1 .brkImplied),
  (0x01, .f2 .oraIndirectX),
  (0x05, .f2 .oraZeroPage),
  (0x06, .f2 .aslZeroPage),
  (0x08, .f1 .phpImplied),
  (0x09, .f2 .oraImmediate),
  (0x0A, .f1 .aslAccumulator),
  (0x0D, .f3 .oraAbsolute),
  (0x0E, .f3 .aslAbsolute)]

/-- R64, the row of high nibble 1. -/
def opcodeRow1 : List (Byte × Shape) := [
  (0x10, .f2 .bplRelative),
  (0x11, .f2 .oraIndirectY),
  (0x15, .f2 .oraZeroPageX),
  (0x16, .f2 .aslZeroPageX),
  (0x18, .f1 .clcImplied),
  (0x19, .f3 .oraAbsoluteY),
  (0x1D, .f3 .oraAbsoluteX),
  (0x1E, .f3 .aslAbsoluteX)]

/-- R64, the row of high nibble 2. -/
def opcodeRow2 : List (Byte × Shape) := [
  (0x20, .f3 .jsrAbsolute),
  (0x21, .f2 .andIndirectX),
  (0x24, .f2 .bitZeroPage),
  (0x25, .f2 .andZeroPage),
  (0x26, .f2 .rolZeroPage),
  (0x28, .f1 .plpImplied),
  (0x29, .f2 .andImmediate),
  (0x2A, .f1 .rolAccumulator),
  (0x2C, .f3 .bitAbsolute),
  (0x2D, .f3 .andAbsolute),
  (0x2E, .f3 .rolAbsolute)]

/-- R64, the row of high nibble 3. -/
def opcodeRow3 : List (Byte × Shape) := [
  (0x30, .f2 .bmiRelative),
  (0x31, .f2 .andIndirectY),
  (0x35, .f2 .andZeroPageX),
  (0x36, .f2 .rolZeroPageX),
  (0x38, .f1 .secImplied),
  (0x39, .f3 .andAbsoluteY),
  (0x3D, .f3 .andAbsoluteX),
  (0x3E, .f3 .rolAbsoluteX)]

/-- R64, the row of high nibble 4. -/
def opcodeRow4 : List (Byte × Shape) := [
  (0x40, .f1 .rtiImplied),
  (0x41, .f2 .eorIndirectX),
  (0x45, .f2 .eorZeroPage),
  (0x46, .f2 .lsrZeroPage),
  (0x48, .f1 .phaImplied),
  (0x49, .f2 .eorImmediate),
  (0x4A, .f1 .lsrAccumulator),
  (0x4C, .f3 .jmpAbsolute),
  (0x4D, .f3 .eorAbsolute),
  (0x4E, .f3 .lsrAbsolute)]

/-- R64, the row of high nibble 5. -/
def opcodeRow5 : List (Byte × Shape) := [
  (0x50, .f2 .bvcRelative),
  (0x51, .f2 .eorIndirectY),
  (0x55, .f2 .eorZeroPageX),
  (0x56, .f2 .lsrZeroPageX),
  (0x58, .f1 .cliImplied),
  (0x59, .f3 .eorAbsoluteY),
  (0x5D, .f3 .eorAbsoluteX),
  (0x5E, .f3 .lsrAbsoluteX)]

/-- R64, the row of high nibble 6. -/
def opcodeRow6 : List (Byte × Shape) := [
  (0x60, .f1 .rtsImplied),
  (0x61, .f2 .adcIndirectX),
  (0x65, .f2 .adcZeroPage),
  (0x66, .f2 .rorZeroPage),
  (0x68, .f1 .plaImplied),
  (0x69, .f2 .adcImmediate),
  (0x6A, .f1 .rorAccumulator),
  (0x6C, .f3 .jmpIndirect),
  (0x6D, .f3 .adcAbsolute),
  (0x6E, .f3 .rorAbsolute)]

/-- R64, the row of high nibble 7. -/
def opcodeRow7 : List (Byte × Shape) := [
  (0x70, .f2 .bvsRelative),
  (0x71, .f2 .adcIndirectY),
  (0x75, .f2 .adcZeroPageX),
  (0x76, .f2 .rorZeroPageX),
  (0x78, .f1 .seiImplied),
  (0x79, .f3 .adcAbsoluteY),
  (0x7D, .f3 .adcAbsoluteX),
  (0x7E, .f3 .rorAbsoluteX)]

/-- R64, the row of high nibble 8. -/
def opcodeRow8 : List (Byte × Shape) := [
  (0x81, .f2 .staIndirectX),
  (0x84, .f2 .styZeroPage),
  (0x85, .f2 .staZeroPage),
  (0x86, .f2 .stxZeroPage),
  (0x88, .f1 .deyImplied),
  (0x8A, .f1 .txaImplied),
  (0x8C, .f3 .styAbsolute),
  (0x8D, .f3 .staAbsolute),
  (0x8E, .f3 .stxAbsolute)]

/-- R64, the row of high nibble 9. -/
def opcodeRow9 : List (Byte × Shape) := [
  (0x90, .f2 .bccRelative),
  (0x91, .f2 .staIndirectY),
  (0x94, .f2 .styZeroPageX),
  (0x95, .f2 .staZeroPageX),
  (0x96, .f2 .stxZeroPageY),
  (0x98, .f1 .tyaImplied),
  (0x99, .f3 .staAbsoluteY),
  (0x9A, .f1 .txsImplied),
  (0x9D, .f3 .staAbsoluteX)]

/-- R64, the row of high nibble A. -/
def opcodeRowA : List (Byte × Shape) := [
  (0xA0, .f2 .ldyImmediate),
  (0xA1, .f2 .ldaIndirectX),
  (0xA2, .f2 .ldxImmediate),
  (0xA4, .f2 .ldyZeroPage),
  (0xA5, .f2 .ldaZeroPage),
  (0xA6, .f2 .ldxZeroPage),
  (0xA8, .f1 .tayImplied),
  (0xA9, .f2 .ldaImmediate),
  (0xAA, .f1 .taxImplied),
  (0xAC, .f3 .ldyAbsolute),
  (0xAD, .f3 .ldaAbsolute),
  (0xAE, .f3 .ldxAbsolute)]

/-- R64, the row of high nibble B. -/
def opcodeRowB : List (Byte × Shape) := [
  (0xB0, .f2 .bcsRelative),
  (0xB1, .f2 .ldaIndirectY),
  (0xB4, .f2 .ldyZeroPageX),
  (0xB5, .f2 .ldaZeroPageX),
  (0xB6, .f2 .ldxZeroPageY),
  (0xB8, .f1 .clvImplied),
  (0xB9, .f3 .ldaAbsoluteY),
  (0xBA, .f1 .tsxImplied),
  (0xBC, .f3 .ldyAbsoluteX),
  (0xBD, .f3 .ldaAbsoluteX),
  (0xBE, .f3 .ldxAbsoluteY)]

/-- R64, the row of high nibble C. -/
def opcodeRowC : List (Byte × Shape) := [
  (0xC0, .f2 .cpyImmediate),
  (0xC1, .f2 .cmpIndirectX),
  (0xC4, .f2 .cpyZeroPage),
  (0xC5, .f2 .cmpZeroPage),
  (0xC6, .f2 .decZeroPage),
  (0xC8, .f1 .inyImplied),
  (0xC9, .f2 .cmpImmediate),
  (0xCA, .f1 .dexImplied),
  (0xCC, .f3 .cpyAbsolute),
  (0xCD, .f3 .cmpAbsolute),
  (0xCE, .f3 .decAbsolute)]

/-- R64, the row of high nibble D. -/
def opcodeRowD : List (Byte × Shape) := [
  (0xD0, .f2 .bneRelative),
  (0xD1, .f2 .cmpIndirectY),
  (0xD5, .f2 .cmpZeroPageX),
  (0xD6, .f2 .decZeroPageX),
  (0xD8, .f1 .cldImplied),
  (0xD9, .f3 .cmpAbsoluteY),
  (0xDD, .f3 .cmpAbsoluteX),
  (0xDE, .f3 .decAbsoluteX)]

/-- R64, the row of high nibble E. -/
def opcodeRowE : List (Byte × Shape) := [
  (0xE0, .f2 .cpxImmediate),
  (0xE1, .f2 .sbcIndirectX),
  (0xE4, .f2 .cpxZeroPage),
  (0xE5, .f2 .sbcZeroPage),
  (0xE6, .f2 .incZeroPage),
  (0xE8, .f1 .inxImplied),
  (0xE9, .f2 .sbcImmediate),
  (0xEA, .f1 .nopImplied),
  (0xEC, .f3 .cpxAbsolute),
  (0xED, .f3 .sbcAbsolute),
  (0xEE, .f3 .incAbsolute)]

/-- R64, the row of high nibble F. -/
def opcodeRowF : List (Byte × Shape) := [
  (0xF0, .f2 .beqRelative),
  (0xF1, .f2 .sbcIndirectY),
  (0xF5, .f2 .sbcZeroPageX),
  (0xF6, .f2 .incZeroPageX),
  (0xF8, .f1 .sedImplied),
  (0xF9, .f3 .sbcAbsoluteY),
  (0xFD, .f3 .sbcAbsoluteX),
  (0xFE, .f3 .incAbsoluteX)]

/-- R64: the decode table, 151 opcode bytes. A byte that is not listed does not decode (R66). -/
def opcodeTable : List (Byte × Shape) :=
  opcodeRow0 ++ opcodeRow1 ++ opcodeRow2 ++ opcodeRow3 ++ opcodeRow4 ++ opcodeRow5 ++ opcodeRow6 ++ opcodeRow7 ++
  opcodeRow8 ++ opcodeRow9 ++ opcodeRowA ++ opcodeRowB ++ opcodeRowC ++ opcodeRowD ++ opcodeRowE ++ opcodeRowF

def findShape (opc : Byte) : List (Byte × Shape) → Option Shape
  | [] => none
  | (b, sh) :: rest => if b = opc then some sh else findShape opc rest

/-- R64: the whole opcode byte is looked up; it has no sub-fields (R60). -/
def decodeOpcode (opc : Byte) : Option Shape :=
  findShape opc opcodeTable

/-- Why bytes do not decode. -/
inductive DecodeError where
  /-- R66: the first byte is none of the 151 opcodes. -/
  | invalidOpcode (opcode : Byte)
  /-- The list ends before the instruction does. Never of bytes that step fetches: Memory has no end. -/
  | truncated
  deriving DecidableEq, Repr

/-- R60 to R64: the instruction at the head of a list of bytes, and the rest of the list. -/
def decode : List Byte → Except DecodeError (Instr × List Byte)
  | [] => .error .truncated
  | opc :: rest =>
    match decodeOpcode opc, rest with
    | none, _ => .error (.invalidOpcode opc)
    | some (.f1 i), _ => .ok (i, rest)
    | some (.f2 mk), b0 :: rest' => .ok (mk b0, rest')
    | some (.f3 mk), b0 :: b1 :: rest' => .ok (mk (mkAddr b1 b0), rest')
    | some _, _ => .error .truncated

/-- The instruction a decoder entry stands for, with operand bytes of zero: its Command is the entry's. -/
def Shape.sample : Shape → Instr
  | .f1 i => i
  | .f2 mk => mk 0
  | .f3 mk => mk 0

/-- R64: the Command (mnemonic, mode) of an opcode byte, `none` for the 105 others. -/
def decodeCommand (opc : Byte) : Option (Mnemonic × Mode) :=
  (decodeOpcode opc).map fun sh => (sh.sample.mnemonic, sh.sample.mode)

/-- R64, the table by mnemonic: the modes a mnemonic has, each with its opcode byte. -/
def opcodesOf : Mnemonic → List (Mode × Byte)
  | .adc => [
      (.immediate, 0x69), (.zeroPage, 0x65), (.zeroPageX, 0x75), (.absolute, 0x6D),
      (.absoluteX, 0x7D), (.absoluteY, 0x79), (.indirectX, 0x61), (.indirectY, 0x71)]
  | .and => [
      (.immediate, 0x29), (.zeroPage, 0x25), (.zeroPageX, 0x35), (.absolute, 0x2D),
      (.absoluteX, 0x3D), (.absoluteY, 0x39), (.indirectX, 0x21), (.indirectY, 0x31)]
  | .asl => [(.accumulator, 0x0A), (.zeroPage, 0x06), (.zeroPageX, 0x16), (.absolute, 0x0E), (.absoluteX, 0x1E)]
  | .bcc => [(.relative, 0x90)]
  | .bcs => [(.relative, 0xB0)]
  | .beq => [(.relative, 0xF0)]
  | .bit => [(.zeroPage, 0x24), (.absolute, 0x2C)]
  | .bmi => [(.relative, 0x30)]
  | .bne => [(.relative, 0xD0)]
  | .bpl => [(.relative, 0x10)]
  | .brk => [(.implied, 0x00)]
  | .bvc => [(.relative, 0x50)]
  | .bvs => [(.relative, 0x70)]
  | .clc => [(.implied, 0x18)]
  | .cld => [(.implied, 0xD8)]
  | .cli => [(.implied, 0x58)]
  | .clv => [(.implied, 0xB8)]
  | .cmp => [
      (.immediate, 0xC9), (.zeroPage, 0xC5), (.zeroPageX, 0xD5), (.absolute, 0xCD),
      (.absoluteX, 0xDD), (.absoluteY, 0xD9), (.indirectX, 0xC1), (.indirectY, 0xD1)]
  | .cpx => [(.immediate, 0xE0), (.zeroPage, 0xE4), (.absolute, 0xEC)]
  | .cpy => [(.immediate, 0xC0), (.zeroPage, 0xC4), (.absolute, 0xCC)]
  | .dec => [(.zeroPage, 0xC6), (.zeroPageX, 0xD6), (.absolute, 0xCE), (.absoluteX, 0xDE)]
  | .dex => [(.implied, 0xCA)]
  | .dey => [(.implied, 0x88)]
  | .eor => [
      (.immediate, 0x49), (.zeroPage, 0x45), (.zeroPageX, 0x55), (.absolute, 0x4D),
      (.absoluteX, 0x5D), (.absoluteY, 0x59), (.indirectX, 0x41), (.indirectY, 0x51)]
  | .inc => [(.zeroPage, 0xE6), (.zeroPageX, 0xF6), (.absolute, 0xEE), (.absoluteX, 0xFE)]
  | .inx => [(.implied, 0xE8)]
  | .iny => [(.implied, 0xC8)]
  | .jmp => [(.absolute, 0x4C), (.indirect, 0x6C)]
  | .jsr => [(.absolute, 0x20)]
  | .lda => [
      (.immediate, 0xA9), (.zeroPage, 0xA5), (.zeroPageX, 0xB5), (.absolute, 0xAD),
      (.absoluteX, 0xBD), (.absoluteY, 0xB9), (.indirectX, 0xA1), (.indirectY, 0xB1)]
  | .ldx => [(.immediate, 0xA2), (.zeroPage, 0xA6), (.zeroPageY, 0xB6), (.absolute, 0xAE), (.absoluteY, 0xBE)]
  | .ldy => [(.immediate, 0xA0), (.zeroPage, 0xA4), (.zeroPageX, 0xB4), (.absolute, 0xAC), (.absoluteX, 0xBC)]
  | .lsr => [(.accumulator, 0x4A), (.zeroPage, 0x46), (.zeroPageX, 0x56), (.absolute, 0x4E), (.absoluteX, 0x5E)]
  | .nop => [(.implied, 0xEA)]
  | .ora => [
      (.immediate, 0x09), (.zeroPage, 0x05), (.zeroPageX, 0x15), (.absolute, 0x0D),
      (.absoluteX, 0x1D), (.absoluteY, 0x19), (.indirectX, 0x01), (.indirectY, 0x11)]
  | .pha => [(.implied, 0x48)]
  | .php => [(.implied, 0x08)]
  | .pla => [(.implied, 0x68)]
  | .plp => [(.implied, 0x28)]
  | .rol => [(.accumulator, 0x2A), (.zeroPage, 0x26), (.zeroPageX, 0x36), (.absolute, 0x2E), (.absoluteX, 0x3E)]
  | .ror => [(.accumulator, 0x6A), (.zeroPage, 0x66), (.zeroPageX, 0x76), (.absolute, 0x6E), (.absoluteX, 0x7E)]
  | .rti => [(.implied, 0x40)]
  | .rts => [(.implied, 0x60)]
  | .sbc => [
      (.immediate, 0xE9), (.zeroPage, 0xE5), (.zeroPageX, 0xF5), (.absolute, 0xED),
      (.absoluteX, 0xFD), (.absoluteY, 0xF9), (.indirectX, 0xE1), (.indirectY, 0xF1)]
  | .sec => [(.implied, 0x38)]
  | .sed => [(.implied, 0xF8)]
  | .sei => [(.implied, 0x78)]
  | .sta => [
      (.zeroPage, 0x85), (.zeroPageX, 0x95), (.absolute, 0x8D), (.absoluteX, 0x9D),
      (.absoluteY, 0x99), (.indirectX, 0x81), (.indirectY, 0x91)]
  | .stx => [(.zeroPage, 0x86), (.zeroPageY, 0x96), (.absolute, 0x8E)]
  | .sty => [(.zeroPage, 0x84), (.zeroPageX, 0x94), (.absolute, 0x8C)]
  | .tax => [(.implied, 0xAA)]
  | .tay => [(.implied, 0xA8)]
  | .tsx => [(.implied, 0xBA)]
  | .txa => [(.implied, 0x8A)]
  | .txs => [(.implied, 0x9A)]
  | .tya => [(.implied, 0x98)]

/-- R65: the opcode byte of a Command, `none` where the mnemonic does not have the mode. -/
def encodeCommand (m : Mnemonic) (mode : Mode) : Option Byte :=
  (opcodesOf m).lookup mode

/-- R60, R63, R65: the bytes of an instruction, opcode first, operand bytes low byte first. The empty list stands for
a pair without an opcode, which no `Instr` is. -/
def encode (i : Instr) : List Byte :=
  match encodeCommand i.mnemonic i.mode with
  | some opc => opc :: i.operand.bytes
  | none => []

/-- The bytes of a table word: byte k is bits 8k+7 to 8k of `w`, and bits from `nbits` up are zero. -/
def tableWordBytes (nbits w : Nat) : List Byte :=
  let v := w % 2 ^ nbits
  [BitVec.ofNat 8 v, BitVec.ofNat 8 (v / 256), BitVec.ofNat 8 (v / 65536)]

/-- The instruction the decoder reads from a word of spec/opcode_table.json's numbering, padded with zero bytes to the
longest instruction. -/
def decodeTableWord (nbits w : Nat) : Option Instr :=
  match decode (tableWordBytes nbits w) with
  | .ok (i, _) => some i
  | .error _ => none

end Sys2Proof
end

