-- ==== Sys2Proof/Config.lean ====
section
/-! DEFINITION. The named parameters of spec 00 section 4, as plain data. The spec asks a model to carry each as a
configuration field and not to bake its default in; State holds one value of this type and no step changes it, so a
statement over all states is a statement over all parameter values (log 1). MEM_INIT is the argument of State.create. -/

namespace Sys2Proof

/-- The radices that the digits NN of `*+NN` and `*-NN` can be read in (D27, log 9). -/
inductive RelRadix where
  | decimal | hexadecimal
  deriving DecidableEq, Repr

/-- Spec 00 section 4. Plain data, so that a machine can be written out and compared. -/
structure Config where
  /-- NEG_BYTE_WIDE (R7, D5): the Byte stored for the integer `-m`, listed as `(m, byte)`, for m from 128 to 256.
  A magnitude that is not listed raises ValueRangeError (log 2). -/
  negByteWide    : List (Nat × Byte)
  /-- ARITH_CARRY_IN (D6): ADC adds the carry flag and SBC subtracts its complement. -/
  arithCarryIn   : Bool
  /-- ZP_INDEX_WRAP (D7): zeroPageX and zeroPageY mask the sum to 8 bits. -/
  zpIndexWrap    : Bool
  /-- STATUS_BIT5 (D4): bit 5 of the status byte made from the flags. -/
  statusBit5     : Bool
  /-- STACK_ALIASED (D2): the Stack is Memory 0x0100 to 0x01FF. -/
  stackAliased   : Bool
  /-- LOOP_STOP_ON_FLAG (D15): the run loop also stops at a tick that finds B = 1. -/
  loopStopOnFlag : Bool
  /-- REL_TOKEN_RADIX (D27): the radix of NN in the assembler's relative tokens. -/
  relTokenRadix  : RelRadix
  /-- CYCLE_WIDTH (D24): `none` is the unbounded counter, `some w` a counter of w bits. -/
  cycleWidth     : Option Nat
  deriving DecidableEq, Repr

/-- The defaults of spec 00 section 4, which its examples and test vectors use. -/
def Config.default : Config where
  negByteWide    := []
  arithCarryIn   := true
  zpIndexWrap    := false
  statusBit5     := false
  stackAliased   := false
  loopStopOnFlag := true
  relTokenRadix  := .hexadecimal
  cycleWidth     := none

/-- FREE VALUE (log 10): what a bounded cycle counter of `w` bits holds after the step that would take it past its
largest value, from count `c`. The spec describes no wrap and no stop there, so nothing is known of it. -/
opaque Config.freeCycles (w c : Nat) : BitVec w

end Sys2Proof
end

