-- ==== Sys2Proof/Machine/State.lean ====
section
/-! DEFINITION. The state of one machine instance (spec 10), the errors it can raise (spec 60), and the state after
reset. Plain data. -/

namespace Sys2Proof.Machine

/-- An array of Bytes as its listed cells: addresses strictly rising, no cell equal to 0x00, which is what an address
that is not listed reads as (log 7). Memory (R31) and the Stack (R32) are both held so. -/
abbrev Cells := List Host.Cell

/-- R25: the seven processor status flags. -/
structure Flags where
  /-- carry -/
  c : Bool
  /-- zero -/
  z : Bool
  /-- interrupt-disable; it masks nothing (R255) -/
  i : Bool
  /-- decimal; it changes no arithmetic (R26) -/
  d : Bool
  /-- break -/
  b : Bool
  /-- overflow -/
  v : Bool
  /-- negative -/
  n : Bool
  deriving DecidableEq, Repr

/-- R25, R38: all seven are 0 after reset. -/
def Flags.clear : Flags where
  c := false
  z := false
  i := false
  d := false
  b := false
  v := false
  n := false

/-- R30: the run-control state of the stepping loop. -/
inductive RunState where
  | idle | running | paused
  deriving DecidableEq, Repr

/-- Everything the spec gives one machine instance, and `cfg`, the model's own field (log 1). -/
structure State where
  /-- R20 -/
  a       : Byte
  /-- R21 -/
  x       : Byte
  /-- R22 -/
  y       : Byte
  /-- R23: an index into the Stack, of the most recently pushed cell -/
  sp      : Byte
  /-- R24 -/
  pc      : Addr
  /-- R25 -/
  flags   : Flags
  /-- R31 -/
  mem     : Cells
  /-- R32; not used by a machine whose Stack is aliased to Memory (log 6) -/
  stack   : Cells
  /-- R29: the number of completed steps -/
  cycles  : Nat
  /-- R30 -/
  run     : RunState
  /-- R30: the interval of the last start; it has no architectural meaning (R261) -/
  speedMs : Nat
  /-- the named parameters of spec 00 section 4, fixed for the machine -/
  cfg     : Config
  deriving DecidableEq, Repr

/-- R266: the five kinds of error, a closed enumeration without numbers. -/
inductive ErrorKind where
  | valueRange | invalidOpcode | addressing | unknownInstruction | undefinedReference
  deriving DecidableEq, Repr

/-- The errors that arise in the engine (R266: the first three kinds). Each ends the step (R250). -/
inductive Fault where
  /-- R253: raised by SBC, CMP, CPX, CPY when the integer difference `n` has no Byte (R7), and by building a Byte or
  an Address outside its range (R14). Safe: the spec names this error as the default, and the parameter
  NEG_BYTE_WIDE covers the machines that store a byte instead (log 2). -/
  | valueRange (n : Int)
  /-- R251: raised by the fetch of a byte that is no opcode, before anything is written. Safe: the spec describes the
  error. -/
  | invalidOpcode (opcode : Byte) (address : Addr)
  /-- R252: raised by `resolve` for a mode without a memory address. No decoded instruction raises it (R96). Safe. -/
  | addressing
  deriving DecidableEq, Repr

def Fault.kind : Fault → ErrorKind
  | .valueRange _ => .valueRange
  | .invalidOpcode _ _ => .invalidOpcode
  | .addressing => .addressing

/-- Reasons to give an instruction no meaning. -/
inductive Refusal where
  /-- The instruction has no meaning in the model yet. No arm of exec raises it: all are modelled. Safe. -/
  | notModelled (mnemonic : String)
  deriving DecidableEq, Repr

/-- R282: a new machine instance is in the reset state, with Memory equal to MEM_INIT and an idle loop. `speedMs` has
no value in the spec before the first start; 0 is the model's choice (log 20). -/
def State.create (cfg : Config) (memInit : Cells) : State where
  a       := 0
  x       := 0
  y       := 0
  sp      := 0
  pc      := 0
  flags   := Flags.clear
  mem     := memInit
  stack   := []
  cycles  := 0
  run     := .idle
  speedMs := 0
  cfg     := cfg

/-- R38, R280, R282: the machine right after reset with nothing loaded, under the spec's default parameters
(MEM_INIT all 0x00, D16). -/
def State.reset : State := State.create Config.default []

end Sys2Proof.Machine
end

