-- ==== Sys2Proof/Machine/Values.lean ====
section
/-! DEFINITION. The arithmetic of the two value types (spec 00 section 6, rules R1 to R14). Sums and differences are
computed as integers and reduced once at the end (R13). Negative differences are re-encoded as sign and magnitude
(R7); nothing in this machine is two's complement. -/

namespace Sys2Proof.Machine

/-- The result of ByteInc and ByteDec (R3, R4). -/
structure ByteStep where
  value    : Byte
  overflow : Bool
  deriving DecidableEq, Repr

/-- R3: wraps from 0xFF to 0x00, reported as overflow. -/
def byteInc (b : Byte) : ByteStep where
  value    := b + 1
  overflow := b == 0xFF

/-- R4: wraps from 0x00 to 0xFF, reported as overflow; it is not `byteSub b 1`. -/
def byteDec (b : Byte) : ByteStep where
  value    := b - 1
  overflow := b == 0x00

/-- The result of ByteAdd (R5). -/
structure ByteSum where
  raw      : Nat
  value    : Byte
  overflow : Bool
  deriving DecidableEq, Repr

/-- R5: `raw = a + b + cin`, `value = raw mod 256`. -/
def byteAdd (a b : Byte) (cin : Bool) : ByteSum :=
  let raw := a.toNat + b.toNat + cin.toNat
  { raw := raw, value := BitVec.ofNat 8 raw, overflow := decide (raw > 255) }

/-- R7: the Byte of the negative integer `n`: sign bit and magnitude down to -127, below that what the parameter
NEG_BYTE_WIDE gives, by default a ValueRangeError (D5, log 2). -/
def negByte (cfg : Config) (n : Int) : Except Fault Byte :=
  let m := (-n).toNat
  if m ≤ 127 then .ok (0x80 + BitVec.ofNat 8 m)
  else match cfg.negByteWide.lookup m with
    | some b => .ok b
    | none => .error (.valueRange n)

/-- R1, R7, R14: a Byte built from an integer. -/
def byteOfInt (cfg : Config) (n : Int) : Except Fault Byte :=
  if n > 255 then .error (.valueRange n)
  else if n ≥ 0 then .ok (BitVec.ofNat 8 n.toNat)
  else negByte cfg n

/-- R2, R14: an Address built from an integer. -/
def addrOfInt (n : Int) : Except Fault Addr :=
  if 0 ≤ n ∧ n ≤ 65535 then .ok (BitVec.ofNat 16 n.toNat) else .error (.valueRange n)

/-- The result of ByteSub (R6). -/
structure ByteDiff where
  raw      : Int
  value    : Byte
  overflow : Bool
  deriving DecidableEq, Repr

/-- R6: `raw = a - b - bin`; the value is the Byte built from it, so a negative difference is re-encoded by R7. -/
def byteSub (cfg : Config) (a b : Byte) (bin : Bool) : Except Fault ByteDiff :=
  let raw : Int := (a.toNat : Int) - b.toNat - bin.toNat
  match byteOfInt cfg raw with
  | .ok v => .ok { raw := raw, value := v, overflow := decide (raw < 0) }
  | .error f => .error f

/-- R8 -/
def byteAnd (a b : Byte) : Byte := a &&& b

/-- R8 -/
def byteOr (a b : Byte) : Byte := a ||| b

/-- R8 -/
def byteXor (a b : Byte) : Byte := a ^^^ b

/-- R10: wraps from 0xFFFF to 0x0000 (D10). -/
def addrInc (a : Addr) : Addr := a + 1

/-- The result of AddrAdd (R11). -/
structure AddrSum where
  value    : Addr
  overflow : Bool
  deriving DecidableEq, Repr

/-- R11: wraps modulo 65536; no rule reads the overflow output. -/
def addrAdd (a : Addr) (k : Nat) : AddrSum where
  value    := BitVec.ofNat 16 (a.toNat + k)
  overflow := decide (a.toNat + k > 65535)

/-- R12: the branch adjustment. The Byte is sign (bit 7) and magnitude (bits 6 to 0), not two's complement. -/
def addrSignedAdd (a : Addr) (b : Byte) : Addr :=
  if b.getLsbD 7 then a - zext16 (b &&& 0x7F) else a + zext16 b

end Sys2Proof.Machine
end

