-- ==== Sys2Proof/Machine/Ops.lean ====
section
/-! DEFINITION. The named operations over memory, stack and registers (spec 20), the phases of a step around the
handler (spec 40 rules R81 to R83, R98, R99), and the return from a call. The machine has no trap (spec 60): there is
no exception entry to model. Its errors end the step; its only return from interrupt is RTI (R182). -/

namespace Sys2Proof.Machine

/-- What a handler answers: a next state, or an error that ends the step. -/
abbrev Result := Host.Outcome State Fault Refusal

/-! ## Arrays of Bytes -/

/-- The Byte at an address; an address that is not listed reads as 0x00 (log 7). -/
def cellRead : Cells → Nat → Byte
  | [], _ => 0
  | (k, v) :: rest, a => if k = a then v else cellRead rest a

/-- Puts a cell before the first cell of a higher address. -/
def cellInsert (c : Host.Cell) : Cells → Cells
  | [] => [c]
  | d :: rest => if c.1 < d.1 then c :: d :: rest else d :: cellInsert c rest

/-- The array with `v` at address `a`, in canonical form when it was: the old cell goes, and 0x00 is not listed. -/
def cellWrite (m : Cells) (a : Nat) (v : Byte) : Cells :=
  let others := m.filter fun c => c.1 != a
  if v = 0 then others else cellInsert (a, v) others

/-- The canonical form of an array of `size` Bytes, at and above `lo`: addresses strictly rising, no 0x00 listed. -/
def cellsWfFrom (size : Nat) : Nat → Cells → Bool
  | _, [] => true
  | lo, (k, v) :: rest => decide (lo ≤ k ∧ k < size) && v != 0 && cellsWfFrom size (k + 1) rest

/-- The canonical form of an array of `size` Bytes. -/
def cellsWf (size : Nat) (m : Cells) : Bool := cellsWfFrom size 0 m

/-- The canonical form of Memory (R31: 65536 Bytes). -/
def Memory.wf (m : Cells) : Bool := cellsWf 65536 m

/-- The canonical form of the Stack array (R32: 256 Bytes). -/
def Stack.wf (m : Cells) : Bool := cellsWf 256 m

/-! ## Memory (R40, R41) -/

/-- R40: every Address is inside the array, so it cannot fail. -/
def memRead (s : State) (a : Addr) : Byte := cellRead s.mem a.toNat

/-- R41 -/
def memWrite (s : State) (a : Addr) (v : Byte) : State := { s with mem := cellWrite s.mem a.toNat v }

/-- R42: the little-endian 16-bit pointer at `a`, low byte first; the second byte is at `a + 1`, in the next page if
need be (R54, D9). -/
def readPointer (s : State) (a : Addr) : Addr := mkAddr (memRead s (addrInc a)) (memRead s a)

/-! ## The Stack (R32, R46, R47) -/

/-- Where the stack cell `i` lies in Memory when STACK_ALIASED (R32). -/
def stackPage (i : Byte) : Nat := 0x0100 + i.toNat

/-- R32: the Stack cell `i`; with STACK_ALIASED it is Memory[0x0100 + i]. -/
def stackRead (s : State) (i : Byte) : Byte :=
  if s.cfg.stackAliased then cellRead s.mem (stackPage i) else cellRead s.stack i.toNat

/-- R32 -/
def stackWrite (s : State) (i : Byte) (v : Byte) : State :=
  if s.cfg.stackAliased then { s with mem := cellWrite s.mem (stackPage i) v }
  else { s with stack := cellWrite s.stack i.toNat v }

/-- R46: the pointer is incremented first, silently wrapping, and the byte is written at the new pointer. -/
def push (v : Byte) (s : State) : State :=
  let sp := (byteInc s.sp).value
  stackWrite { s with sp := sp } sp v

/-- R47: the byte is read at the current pointer, which is decremented afterwards, silently wrapping. The cell is not
erased. -/
def pull (s : State) : Byte × State :=
  (stackRead s s.sp, { s with sp := (byteDec s.sp).value })

/-- R179: the high byte first, then the low byte. -/
def pushAddr (a : Addr) (s : State) : State := push (loByte a) (push (hiByte a) s)

/-- R180: the low byte first, then the high byte; nothing is added. -/
def pullAddr (s : State) : Addr × State :=
  let (lo, s1) := pull s
  let (hi, s2) := pull s1
  (mkAddr hi lo, s2)

/-! ## The phases of a step around the handler -/

/-- R81, R82: the bytes of the longest instruction at pc, in ascending address order, wrapping at 0xFFFF (R54). Reads
are pure (R40), so reading a byte that the instruction does not have changes nothing. -/
def fetchBytes (s : State) : List Byte :=
  [memRead s s.pc, memRead s (addrAdd s.pc 1).value, memRead s (addrAdd s.pc 2).value]

/-- R81: fetch and decode, failing fast when the byte at pc is no opcode. -/
def fetchInstr (s : State) : Except Fault Instr :=
  match decode (fetchBytes s) with
  | .ok (i, _) => .ok i
  | .error _ => .error (.invalidOpcode (memRead s s.pc) s.pc)

/-- R83: pc moves past the opcode and its operand bytes before the handler runs. -/
def advance (i : Instr) (s : State) : State := { s with pc := (addrAdd s.pc i.length).value }

/-- R98: only BRK reports the break signal. -/
def isBreak (i : Instr) : Bool := i.mnemonic == .brk

/-- R98: phase 6, after the handler: BRK sets B, every other mnemonic leaves it alone. -/
def breakPhase (i : Instr) (s : State) : State :=
  if isBreak i then { s with flags := { s.flags with b := true } } else s

/-- R29: one more completed step. A bounded counter (CYCLE_WIDTH) at its largest value goes on with a free value. -/
def nextCycles (width : Option Nat) (c : Nat) : Nat :=
  match width with
  | none => c + 1
  | some w => if c + 1 < 2 ^ w then c + 1 else (Config.freeCycles w c).toNat

/-- R99: phase 7. -/
def endPhase (s : State) : State := { s with cycles := nextCycles s.cfg.cycleWidth s.cycles }

end Sys2Proof.Machine
end

