-- ==== Sys2Proof/Machine/Flags.lean ====
section
/-! DEFINITION. The status byte (spec 10 rules R27, R28) and every flag computation of the spec. Each assignment is
total: the flag is set when the condition holds and cleared when it does not (R26, D20). -/

namespace Sys2Proof.Machine

/-- A status byte with the one bit `k` equal to `f`. -/
def flagBit (f : Bool) (k : Nat) : Byte := (BitVec.ofBool f).setWidth 8 <<< k

/-- R27: C bit 0, Z bit 1, I bit 2, D bit 3, B bit 4, STATUS_BIT5 bit 5, V bit 6, N bit 7 (log 5). -/
def flagsToByte (cfg : Config) (f : Flags) : Byte :=
  flagBit f.c 0 ||| flagBit f.z 1 ||| flagBit f.i 2 ||| flagBit f.d 3 ||| flagBit f.b 4 |||
    flagBit cfg.statusBit5 5 ||| flagBit f.v 6 ||| flagBit f.n 7

/-- R28: all seven flags from a Byte; bit 5 is ignored. -/
def byteToFlags (p : Byte) : Flags where
  c := p.getLsbD 0
  z := p.getLsbD 1
  i := p.getLsbD 2
  d := p.getLsbD 3
  b := p.getLsbD 4
  v := p.getLsbD 6
  n := p.getLsbD 7

/-- R97: N and Z from a result, no other flag. -/
def setNZ (v : Byte) (f : Flags) : Flags := { f with n := v.getLsbD 7, z := v == 0 }

/-- R130: C and V of ADC are the same boolean, the raw sum above 255; N and Z from the stored byte. -/
def adcFlags (sum : ByteSum) (f : Flags) : Flags :=
  setNZ sum.value { f with c := decide (sum.raw > 255), v := decide (sum.raw > 255) }

/-- R131: V of SBC is set when the operands' signs are equal and differ from the sign of the stored result. -/
def sbcOverflow (a m r : Byte) : Bool := a.getLsbD 7 == m.getLsbD 7 && r.getLsbD 7 != a.getLsbD 7

/-- R131: C is the complement of the borrow. -/
def sbcFlags (a m : Byte) (diff : ByteDiff) (f : Flags) : Flags :=
  setNZ diff.value { f with c := decide (diff.raw ≥ 0), v := sbcOverflow a m diff.value }

/-- R132: C when the register is not below the operand, Z when they are equal, N from the (re-encoded) difference. -/
def compareFlags (r m : Byte) (diff : ByteDiff) (f : Flags) : Flags :=
  { f with c := decide (m.toNat ≤ r.toNat), z := r == m, n := diff.value.getLsbD 7 }

/-- R153: Z from A and m, N and V from bits 7 and 6 of m. -/
def bitFlags (a m : Byte) (f : Flags) : Flags :=
  { f with z := byteAnd a m == 0, n := m.getLsbD 7, v := m.getLsbD 6 }

/-- Spec 43, shifts and rotates: C is the bit shifted out, N and Z from the result. -/
def shiftFlags (r : Byte) (cout : Bool) (f : Flags) : Flags := setNZ r { f with c := cout }

/-- R130: the carry that goes into ADC (ARITH_CARRY_IN, D6). -/
def carryIn (s : State) : Bool := s.cfg.arithCarryIn && s.flags.c

/-- R131: the borrow that goes into SBC, the complement of the carry (ARITH_CARRY_IN, D6). -/
def borrowIn (s : State) : Bool := s.cfg.arithCarryIn && !s.flags.c

end Sys2Proof.Machine
end

