-- ==== Sys2Proof/Machine/Operands.lean ====
section
/-! DEFINITION. Operand access (spec 40): effective addresses for the nine memory modes (R86 to R96), operand values
(R85), and the write back of a read-modify-write handler (R100). -/

namespace Sys2Proof.Machine

/-- R88, R89: page-zero indexing. The sum is not reduced to page zero unless ZP_INDEX_WRAP (D7). -/
def zeroPageIndexed (cfg : Config) (z index : Byte) : Addr :=
  if cfg.zpIndexWrap then zext16 (z + index) else zext16 z + zext16 index

/-- R95: the pointer at page-zero address `z`, plus `index` added to its low byte with carry into its high byte. -/
def indirectIndexed (s : State) (z index : Byte) : Addr :=
  let lo := memRead s (zext16 z)
  let hi := memRead s (addrInc (zext16 z))
  let sum := byteAdd lo index false
  mkAddr (if sum.overflow then (byteInc hi).value else hi) sum.value

/-- R86: the effective address. The four modes without a memory address raise AddressingError (R96). -/
def resolve (o : Operand) (s : State) : Except Fault Addr :=
  match o with
  | .implied | .accumulator | .immediate _ | .relative _ => .error .addressing
  | .zeroPage z => .ok (zext16 z)
  | .zeroPageX z => .ok (zeroPageIndexed s.cfg z s.x)
  | .zeroPageY z => .ok (zeroPageIndexed s.cfg z s.y)
  | .absolute a => .ok a
  | .absoluteX a => .ok (addrAdd a s.x.toNat).value
  | .absoluteY a => .ok (addrAdd a s.y.toNat).value
  | .indirect a => .ok (readPointer s a)
  | .indirectX z => .ok (readPointer s (zext16 (z + s.x)))
  | .indirectY z => .ok (indirectIndexed s z s.y)

/-- R85: the operand value. Immediate and relative give the raw byte, accumulator gives A, all others read Memory at
the effective address. -/
def getValue (o : Operand) (s : State) : Except Fault Byte :=
  match o with
  | .immediate v => .ok v
  | .relative d => .ok d
  | .accumulator => .ok s.a
  | _ =>
    match resolve o s with
    | .ok ea => .ok (memRead s ea)
    | .error f => .error f

/-- Runs a handler on its operand value, or raises (R250). -/
def withValue (o : Operand) (s : State) (k : Byte → Result) : Result :=
  match getValue o s with
  | .ok v => k v
  | .error f => .fault f

/-- Runs a handler on its effective address, or raises (R250). -/
def withAddress (o : Operand) (s : State) (k : Addr → Result) : Result :=
  match resolve o s with
  | .ok ea => k ea
  | .error f => .fault f

/-- R100: where a read-modify-write handler reads and writes back; an address is resolved once per step. -/
inductive Place where
  | accumulator
  | memory (ea : Addr)
  deriving DecidableEq, Repr

def placeOf (o : Operand) (s : State) : Except Fault Place :=
  match o with
  | .accumulator => .ok .accumulator
  | _ =>
    match resolve o s with
    | .ok ea => .ok (.memory ea)
    | .error f => .error f

def readPlace (p : Place) (s : State) : Byte :=
  match p with
  | .accumulator => s.a
  | .memory ea => memRead s ea

/-- R100: PutValue. -/
def putValue (p : Place) (v : Byte) (s : State) : State :=
  match p with
  | .accumulator => { s with a := v }
  | .memory ea => memWrite s ea v

end Sys2Proof.Machine
end

