-- ==== Sys2Proof/Machine/Arithmetic.lean ====
section
/-! DEFINITION. Arithmetic, compare, increment and decrement (spec 42). D is never consulted. A handler computes its
result before it writes anything (R101), so an error leaves the state as it was given. -/

namespace Sys2Proof.Machine

/-! ## Handlers, one per mnemonic (R84) -/

/-- R130 -/
def adc (o : Operand) (s : State) : Result :=
  withValue o s fun m =>
    let sum := byteAdd s.a m (carryIn s)
    .next { s with a := sum.value, flags := adcFlags sum s.flags }

/-- R131: the difference may have no Byte (R7); then nothing is written. -/
def sbc (o : Operand) (s : State) : Result :=
  withValue o s fun m =>
    match byteSub s.cfg s.a m (borrowIn s) with
    | .ok diff => .next { s with a := diff.value, flags := sbcFlags s.a m diff s.flags }
    | .error f => .fault f

/-- R132 to R134: compares the register value `r` with the operand. The carry is no input and the difference is not
written back; it may have no Byte (R7), and then no flag is written. -/
def compareWith (r : Byte) (o : Operand) (s : State) : Result :=
  withValue o s fun m =>
    match byteSub s.cfg r m false with
    | .ok diff => .next { s with flags := compareFlags r m diff s.flags }
    | .error f => .fault f

/-- R132 -/
def cmpA (o : Operand) (s : State) : Result := compareWith s.a o s

/-- R133 -/
def cpx (o : Operand) (s : State) : Result := compareWith s.x o s

/-- R134 -/
def cpy (o : Operand) (s : State) : Result := compareWith s.y o s

/-- R135, R138: one read and one write of the same address (R100), N and Z from the new byte. -/
def modifyMemory (f : Byte → ByteStep) (o : Operand) (s : State) : Result :=
  withAddress o s fun ea =>
    let v := (f (memRead s ea)).value
    .next { memWrite s ea v with flags := setNZ v s.flags }

/-- R135: it wraps; C and V are not written (D32). -/
def inc (o : Operand) (s : State) : Result := modifyMemory byteInc o s

/-- R138: it wraps by ByteDec and never re-encodes (D32). -/
def dec (o : Operand) (s : State) : Result := modifyMemory byteDec o s

/-- R136 -/
def inx (_ : Operand) (s : State) : Result :=
  let v := (byteInc s.x).value
  .next { s with x := v, flags := setNZ v s.flags }

/-- R137 -/
def iny (_ : Operand) (s : State) : Result :=
  let v := (byteInc s.y).value
  .next { s with y := v, flags := setNZ v s.flags }

/-- R139 -/
def dex (_ : Operand) (s : State) : Result :=
  let v := (byteDec s.x).value
  .next { s with x := v, flags := setNZ v s.flags }

/-- R140 -/
def dey (_ : Operand) (s : State) : Result :=
  let v := (byteDec s.y).value
  .next { s with y := v, flags := setNZ v s.flags }

/-! ## The meaning of each row -/

/-! ADC: one meaning per row of the opcode table (R130). -/

def execAdcImmediate (v : Byte) (s : State) : Result := adc (.immediate v) s
def execAdcZeroPage (z : Byte) (s : State) : Result := adc (.zeroPage z) s
def execAdcZeroPageX (z : Byte) (s : State) : Result := adc (.zeroPageX z) s
def execAdcAbsolute (a : Addr) (s : State) : Result := adc (.absolute a) s
def execAdcAbsoluteX (a : Addr) (s : State) : Result := adc (.absoluteX a) s
def execAdcAbsoluteY (a : Addr) (s : State) : Result := adc (.absoluteY a) s
def execAdcIndirectX (z : Byte) (s : State) : Result := adc (.indirectX z) s
def execAdcIndirectY (z : Byte) (s : State) : Result := adc (.indirectY z) s

/-! SBC: one meaning per row of the opcode table (R131). -/

def execSbcImmediate (v : Byte) (s : State) : Result := sbc (.immediate v) s
def execSbcZeroPage (z : Byte) (s : State) : Result := sbc (.zeroPage z) s
def execSbcZeroPageX (z : Byte) (s : State) : Result := sbc (.zeroPageX z) s
def execSbcAbsolute (a : Addr) (s : State) : Result := sbc (.absolute a) s
def execSbcAbsoluteX (a : Addr) (s : State) : Result := sbc (.absoluteX a) s
def execSbcAbsoluteY (a : Addr) (s : State) : Result := sbc (.absoluteY a) s
def execSbcIndirectX (z : Byte) (s : State) : Result := sbc (.indirectX z) s
def execSbcIndirectY (z : Byte) (s : State) : Result := sbc (.indirectY z) s

/-! CMP: one meaning per row of the opcode table (R132). -/

def execCmpImmediate (v : Byte) (s : State) : Result := cmpA (.immediate v) s
def execCmpZeroPage (z : Byte) (s : State) : Result := cmpA (.zeroPage z) s
def execCmpZeroPageX (z : Byte) (s : State) : Result := cmpA (.zeroPageX z) s
def execCmpAbsolute (a : Addr) (s : State) : Result := cmpA (.absolute a) s
def execCmpAbsoluteX (a : Addr) (s : State) : Result := cmpA (.absoluteX a) s
def execCmpAbsoluteY (a : Addr) (s : State) : Result := cmpA (.absoluteY a) s
def execCmpIndirectX (z : Byte) (s : State) : Result := cmpA (.indirectX z) s
def execCmpIndirectY (z : Byte) (s : State) : Result := cmpA (.indirectY z) s

/-! CPX: one meaning per row of the opcode table (R133). -/

def execCpxImmediate (v : Byte) (s : State) : Result := cpx (.immediate v) s
def execCpxZeroPage (z : Byte) (s : State) : Result := cpx (.zeroPage z) s
def execCpxAbsolute (a : Addr) (s : State) : Result := cpx (.absolute a) s

/-! CPY: one meaning per row of the opcode table (R134). -/

def execCpyImmediate (v : Byte) (s : State) : Result := cpy (.immediate v) s
def execCpyZeroPage (z : Byte) (s : State) : Result := cpy (.zeroPage z) s
def execCpyAbsolute (a : Addr) (s : State) : Result := cpy (.absolute a) s

/-! INC: one meaning per row of the opcode table (R135). -/

def execIncZeroPage (z : Byte) (s : State) : Result := inc (.zeroPage z) s
def execIncZeroPageX (z : Byte) (s : State) : Result := inc (.zeroPageX z) s
def execIncAbsolute (a : Addr) (s : State) : Result := inc (.absolute a) s
def execIncAbsoluteX (a : Addr) (s : State) : Result := inc (.absoluteX a) s

/-! INX: one meaning per row of the opcode table (R136). -/

def execInxImplied (s : State) : Result := inx .implied s

/-! INY: one meaning per row of the opcode table (R137). -/

def execInyImplied (s : State) : Result := iny .implied s

/-! DEC: one meaning per row of the opcode table (R138). -/

def execDecZeroPage (z : Byte) (s : State) : Result := dec (.zeroPage z) s
def execDecZeroPageX (z : Byte) (s : State) : Result := dec (.zeroPageX z) s
def execDecAbsolute (a : Addr) (s : State) : Result := dec (.absolute a) s
def execDecAbsoluteX (a : Addr) (s : State) : Result := dec (.absoluteX a) s

/-! DEX: one meaning per row of the opcode table (R139). -/

def execDexImplied (s : State) : Result := dex .implied s

/-! DEY: one meaning per row of the opcode table (R140). -/

def execDeyImplied (s : State) : Result := dey .implied s

end Sys2Proof.Machine
end

