-- ==== Sys2Proof/Machine/Branch.lean ====
section
/-! DEFINITION. Branches, jumps, subroutine call and returns (spec 44). A handler sees the pc of the following
instruction (R83). -/

namespace Sys2Proof.Machine

/-! ## Handlers, one per mnemonic (R84) -/

/-- R170: the common rule of the eight branches; no flag is written. -/
def branchIf (cond : Bool) (o : Operand) (s : State) : Result :=
  withValue o s fun d => .next (if cond then { s with pc := addrSignedAdd s.pc d } else s)

/-- R171 -/
def bcc (o : Operand) (s : State) : Result := branchIf (!s.flags.c) o s

/-- R172 -/
def bcs (o : Operand) (s : State) : Result := branchIf s.flags.c o s

/-- R173 -/
def beq (o : Operand) (s : State) : Result := branchIf s.flags.z o s

/-- R174 -/
def bneZ (o : Operand) (s : State) : Result := branchIf (!s.flags.z) o s

/-- R175 -/
def bmi (o : Operand) (s : State) : Result := branchIf s.flags.n o s

/-- R176 -/
def bpl (o : Operand) (s : State) : Result := branchIf (!s.flags.n) o s

/-- R177 -/
def bvc (o : Operand) (s : State) : Result := branchIf (!s.flags.v) o s

/-- R178 -/
def bvs (o : Operand) (s : State) : Result := branchIf s.flags.v o s

/-- R181: the resolved address is the new pc itself. -/
def jmp (o : Operand) (s : State) : Result := withAddress o s fun ea => .next { s with pc := ea }

/-- R179: pushes the advanced pc, high byte first, exactly as it is (C3, D12). -/
def jsr (o : Operand) (s : State) : Result :=
  withAddress o s fun t => .next { pushAddr s.pc s with pc := t }

/-- R180: nothing is added to the pulled address. -/
def rts (_ : Operand) (s : State) : Result :=
  let out := pullAddr s
  .next { out.2 with pc := out.1 }

/-- R182: the status byte, then the low and the high byte of pc (D13). -/
def rti (_ : Operand) (s : State) : Result :=
  let status := pull s
  let out := pullAddr status.2
  .next { out.2 with pc := out.1, flags := byteToFlags status.1 }

/-! ## The meaning of each row -/

/-! BCC: one meaning per row of the opcode table (R171). -/

def execBccRelative (d : Byte) (s : State) : Result := bcc (.relative d) s

/-! BCS: one meaning per row of the opcode table (R172). -/

def execBcsRelative (d : Byte) (s : State) : Result := bcs (.relative d) s

/-! BEQ: one meaning per row of the opcode table (R173). -/

def execBeqRelative (d : Byte) (s : State) : Result := beq (.relative d) s

/-! BNE: one meaning per row of the opcode table (R174). -/

def execBneRelative (d : Byte) (s : State) : Result := bneZ (.relative d) s

/-! BMI: one meaning per row of the opcode table (R175). -/

def execBmiRelative (d : Byte) (s : State) : Result := bmi (.relative d) s

/-! BPL: one meaning per row of the opcode table (R176). -/

def execBplRelative (d : Byte) (s : State) : Result := bpl (.relative d) s

/-! BVC: one meaning per row of the opcode table (R177). -/

def execBvcRelative (d : Byte) (s : State) : Result := bvc (.relative d) s

/-! BVS: one meaning per row of the opcode table (R178). -/

def execBvsRelative (d : Byte) (s : State) : Result := bvs (.relative d) s

/-! JMP: one meaning per row of the opcode table (R181). -/

def execJmpAbsolute (a : Addr) (s : State) : Result := jmp (.absolute a) s
def execJmpIndirect (a : Addr) (s : State) : Result := jmp (.indirect a) s

/-! JSR: one meaning per row of the opcode table (R179). -/

def execJsrAbsolute (a : Addr) (s : State) : Result := jsr (.absolute a) s

/-! RTS: one meaning per row of the opcode table (R180). -/

def execRtsImplied (s : State) : Result := rts .implied s

/-! RTI: one meaning per row of the opcode table (R182). -/

def execRtiImplied (s : State) : Result := rti .implied s

end Sys2Proof.Machine
end

