-- ==== Sys2Proof/Machine/LoadStore.lean ====
section
/-! DEFINITION. Loads, stores and register transfers (spec 41). Every handler runs on the state whose pc is already
advanced (R83). The meanings not named by the source are the standard ones (log 12). -/

namespace Sys2Proof.Machine

/-! ## Handlers, one per mnemonic (R84) -/

/-- R110 -/
def lda (o : Operand) (s : State) : Result :=
  withValue o s fun v => .next { s with a := v, flags := setNZ v s.flags }

/-- R111 -/
def ldx (o : Operand) (s : State) : Result :=
  withValue o s fun v => .next { s with x := v, flags := setNZ v s.flags }

/-- R112 -/
def ldy (o : Operand) (s : State) : Result :=
  withValue o s fun v => .next { s with y := v, flags := setNZ v s.flags }

/-- R113: no flag is written. -/
def sta (o : Operand) (s : State) : Result := withAddress o s fun ea => .next (memWrite s ea s.a)

/-- R114 -/
def stx (o : Operand) (s : State) : Result := withAddress o s fun ea => .next (memWrite s ea s.x)

/-- R115 -/
def sty (o : Operand) (s : State) : Result := withAddress o s fun ea => .next (memWrite s ea s.y)

/-- R116 -/
def tax (_ : Operand) (s : State) : Result := .next { s with x := s.a, flags := setNZ s.a s.flags }

/-- R117 -/
def tay (_ : Operand) (s : State) : Result := .next { s with y := s.a, flags := setNZ s.a s.flags }

/-- R118 -/
def txa (_ : Operand) (s : State) : Result := .next { s with a := s.x, flags := setNZ s.x s.flags }

/-- R119 -/
def tya (_ : Operand) (s : State) : Result := .next { s with a := s.y, flags := setNZ s.y s.flags }

/-- R120 -/
def tsx (_ : Operand) (s : State) : Result := .next { s with x := s.sp, flags := setNZ s.sp s.flags }

/-- R121: the only transfer that writes no flag. -/
def txs (_ : Operand) (s : State) : Result := .next { s with sp := s.x }

/-! ## The meaning of each row -/

/-! LDA: one meaning per row of the opcode table (R110). -/

def execLdaImmediate (v : Byte) (s : State) : Result := lda (.immediate v) s
def execLdaZeroPage (z : Byte) (s : State) : Result := lda (.zeroPage z) s
def execLdaZeroPageX (z : Byte) (s : State) : Result := lda (.zeroPageX z) s
def execLdaAbsolute (a : Addr) (s : State) : Result := lda (.absolute a) s
def execLdaAbsoluteX (a : Addr) (s : State) : Result := lda (.absoluteX a) s
def execLdaAbsoluteY (a : Addr) (s : State) : Result := lda (.absoluteY a) s
def execLdaIndirectX (z : Byte) (s : State) : Result := lda (.indirectX z) s
def execLdaIndirectY (z : Byte) (s : State) : Result := lda (.indirectY z) s

/-! LDX: one meaning per row of the opcode table (R111). -/

def execLdxImmediate (v : Byte) (s : State) : Result := ldx (.immediate v) s
def execLdxZeroPage (z : Byte) (s : State) : Result := ldx (.zeroPage z) s
def execLdxZeroPageY (z : Byte) (s : State) : Result := ldx (.zeroPageY z) s
def execLdxAbsolute (a : Addr) (s : State) : Result := ldx (.absolute a) s
def execLdxAbsoluteY (a : Addr) (s : State) : Result := ldx (.absoluteY a) s

/-! LDY: one meaning per row of the opcode table (R112). -/

def execLdyImmediate (v : Byte) (s : State) : Result := ldy (.immediate v) s
def execLdyZeroPage (z : Byte) (s : State) : Result := ldy (.zeroPage z) s
def execLdyZeroPageX (z : Byte) (s : State) : Result := ldy (.zeroPageX z) s
def execLdyAbsolute (a : Addr) (s : State) : Result := ldy (.absolute a) s
def execLdyAbsoluteX (a : Addr) (s : State) : Result := ldy (.absoluteX a) s

/-! STA: one meaning per row of the opcode table (R113). -/

def execStaZeroPage (z : Byte) (s : State) : Result := sta (.zeroPage z) s
def execStaZeroPageX (z : Byte) (s : State) : Result := sta (.zeroPageX z) s
def execStaAbsolute (a : Addr) (s : State) : Result := sta (.absolute a) s
def execStaAbsoluteX (a : Addr) (s : State) : Result := sta (.absoluteX a) s
def execStaAbsoluteY (a : Addr) (s : State) : Result := sta (.absoluteY a) s
def execStaIndirectX (z : Byte) (s : State) : Result := sta (.indirectX z) s
def execStaIndirectY (z : Byte) (s : State) : Result := sta (.indirectY z) s

/-! STX: one meaning per row of the opcode table (R114). -/

def execStxZeroPage (z : Byte) (s : State) : Result := stx (.zeroPage z) s
def execStxZeroPageY (z : Byte) (s : State) : Result := stx (.zeroPageY z) s
def execStxAbsolute (a : Addr) (s : State) : Result := stx (.absolute a) s

/-! STY: one meaning per row of the opcode table (R115). -/

def execStyZeroPage (z : Byte) (s : State) : Result := sty (.zeroPage z) s
def execStyZeroPageX (z : Byte) (s : State) : Result := sty (.zeroPageX z) s
def execStyAbsolute (a : Addr) (s : State) : Result := sty (.absolute a) s

/-! TAX: one meaning per row of the opcode table (R116). -/

def execTaxImplied (s : State) : Result := tax .implied s

/-! TAY: one meaning per row of the opcode table (R117). -/

def execTayImplied (s : State) : Result := tay .implied s

/-! TXA: one meaning per row of the opcode table (R118). -/

def execTxaImplied (s : State) : Result := txa .implied s

/-! TYA: one meaning per row of the opcode table (R119). -/

def execTyaImplied (s : State) : Result := tya .implied s

/-! TSX: one meaning per row of the opcode table (R120). -/

def execTsxImplied (s : State) : Result := tsx .implied s

/-! TXS: one meaning per row of the opcode table (R121). -/

def execTxsImplied (s : State) : Result := txs .implied s

end Sys2Proof.Machine
end

