-- ==== Sys2Proof/Machine/Logic.lean ====
section
/-! DEFINITION. Logical operations, bit test, shifts and rotates (spec 43). -/

namespace Sys2Proof.Machine

/-! ## Handlers, one per mnemonic (R84) -/

/-- R150 to R152: A combined bit by bit with the operand; N and Z from the result. -/
def logical (f : Byte → Byte → Byte) (o : Operand) (s : State) : Result :=
  withValue o s fun m => .next { s with a := f s.a m, flags := setNZ (f s.a m) s.flags }

/-- R150 -/
def andA (o : Operand) (s : State) : Result := logical byteAnd o s

/-- R151 -/
def ora (o : Operand) (s : State) : Result := logical byteOr o s

/-- R152 -/
def eor (o : Operand) (s : State) : Result := logical byteXor o s

/-- R153: A and Memory are not changed. -/
def bitTest (o : Operand) (s : State) : Result :=
  withValue o s fun m => .next { s with flags := bitFlags s.a m s.flags }

/-- R154: the shifted byte and the bit shifted out. -/
def shiftLeft (v : Byte) (_ : Bool) : Byte × Bool := (v <<< 1, v.getLsbD 7)

/-- R155 -/
def shiftRight (v : Byte) (_ : Bool) : Byte × Bool := (v >>> 1, v.getLsbD 0)

/-- R156: the old carry goes into bit 0. -/
def rotateLeft (v : Byte) (c : Bool) : Byte × Bool := (v <<< 1 ||| (BitVec.ofBool c).setWidth 8, v.getLsbD 7)

/-- R157: the old carry goes into bit 7. -/
def rotateRight (v : Byte) (c : Bool) : Byte × Bool := (v >>> 1 ||| (BitVec.ofBool c).setWidth 8 <<< 7, v.getLsbD 0)

/-- Spec 43, the common frame of the four shifts: read the place, shift with the old carry, write it back, then the
flags. -/
def shiftPlace (f : Byte → Bool → Byte × Bool) (o : Operand) (s : State) : Result :=
  match placeOf o s with
  | .ok p =>
    let out := f (readPlace p s) s.flags.c
    .next { putValue p out.1 s with flags := shiftFlags out.1 out.2 s.flags }
  | .error e => .fault e

/-- R154 -/
def asl (o : Operand) (s : State) : Result := shiftPlace shiftLeft o s

/-- R155 -/
def lsr (o : Operand) (s : State) : Result := shiftPlace shiftRight o s

/-- R156 -/
def rol (o : Operand) (s : State) : Result := shiftPlace rotateLeft o s

/-- R157 -/
def ror (o : Operand) (s : State) : Result := shiftPlace rotateRight o s

/-! ## The meaning of each row -/

/-! AND: one meaning per row of the opcode table (R150). -/

def execAndImmediate (v : Byte) (s : State) : Result := andA (.immediate v) s
def execAndZeroPage (z : Byte) (s : State) : Result := andA (.zeroPage z) s
def execAndZeroPageX (z : Byte) (s : State) : Result := andA (.zeroPageX z) s
def execAndAbsolute (a : Addr) (s : State) : Result := andA (.absolute a) s
def execAndAbsoluteX (a : Addr) (s : State) : Result := andA (.absoluteX a) s
def execAndAbsoluteY (a : Addr) (s : State) : Result := andA (.absoluteY a) s
def execAndIndirectX (z : Byte) (s : State) : Result := andA (.indirectX z) s
def execAndIndirectY (z : Byte) (s : State) : Result := andA (.indirectY z) s

/-! ORA: one meaning per row of the opcode table (R151). -/

def execOraImmediate (v : Byte) (s : State) : Result := ora (.immediate v) s
def execOraZeroPage (z : Byte) (s : State) : Result := ora (.zeroPage z) s
def execOraZeroPageX (z : Byte) (s : State) : Result := ora (.zeroPageX z) s
def execOraAbsolute (a : Addr) (s : State) : Result := ora (.absolute a) s
def execOraAbsoluteX (a : Addr) (s : State) : Result := ora (.absoluteX a) s
def execOraAbsoluteY (a : Addr) (s : State) : Result := ora (.absoluteY a) s
def execOraIndirectX (z : Byte) (s : State) : Result := ora (.indirectX z) s
def execOraIndirectY (z : Byte) (s : State) : Result := ora (.indirectY z) s

/-! EOR: one meaning per row of the opcode table (R152). -/

def execEorImmediate (v : Byte) (s : State) : Result := eor (.immediate v) s
def execEorZeroPage (z : Byte) (s : State) : Result := eor (.zeroPage z) s
def execEorZeroPageX (z : Byte) (s : State) : Result := eor (.zeroPageX z) s
def execEorAbsolute (a : Addr) (s : State) : Result := eor (.absolute a) s
def execEorAbsoluteX (a : Addr) (s : State) : Result := eor (.absoluteX a) s
def execEorAbsoluteY (a : Addr) (s : State) : Result := eor (.absoluteY a) s
def execEorIndirectX (z : Byte) (s : State) : Result := eor (.indirectX z) s
def execEorIndirectY (z : Byte) (s : State) : Result := eor (.indirectY z) s

/-! BIT: one meaning per row of the opcode table (R153). -/

def execBitZeroPage (z : Byte) (s : State) : Result := bitTest (.zeroPage z) s
def execBitAbsolute (a : Addr) (s : State) : Result := bitTest (.absolute a) s

/-! ASL: one meaning per row of the opcode table (R154). -/

def execAslAccumulator (s : State) : Result := asl .accumulator s
def execAslZeroPage (z : Byte) (s : State) : Result := asl (.zeroPage z) s
def execAslZeroPageX (z : Byte) (s : State) : Result := asl (.zeroPageX z) s
def execAslAbsolute (a : Addr) (s : State) : Result := asl (.absolute a) s
def execAslAbsoluteX (a : Addr) (s : State) : Result := asl (.absoluteX a) s

/-! LSR: one meaning per row of the opcode table (R155). -/

def execLsrAccumulator (s : State) : Result := lsr .accumulator s
def execLsrZeroPage (z : Byte) (s : State) : Result := lsr (.zeroPage z) s
def execLsrZeroPageX (z : Byte) (s : State) : Result := lsr (.zeroPageX z) s
def execLsrAbsolute (a : Addr) (s : State) : Result := lsr (.absolute a) s
def execLsrAbsoluteX (a : Addr) (s : State) : Result := lsr (.absoluteX a) s

/-! ROL: one meaning per row of the opcode table (R156). -/

def execRolAccumulator (s : State) : Result := rol .accumulator s
def execRolZeroPage (z : Byte) (s : State) : Result := rol (.zeroPage z) s
def execRolZeroPageX (z : Byte) (s : State) : Result := rol (.zeroPageX z) s
def execRolAbsolute (a : Addr) (s : State) : Result := rol (.absolute a) s
def execRolAbsoluteX (a : Addr) (s : State) : Result := rol (.absoluteX a) s

/-! ROR: one meaning per row of the opcode table (R157). -/

def execRorAccumulator (s : State) : Result := ror .accumulator s
def execRorZeroPage (z : Byte) (s : State) : Result := ror (.zeroPage z) s
def execRorZeroPageX (z : Byte) (s : State) : Result := ror (.zeroPageX z) s
def execRorAbsolute (a : Addr) (s : State) : Result := ror (.absolute a) s
def execRorAbsoluteX (a : Addr) (s : State) : Result := ror (.absoluteX a) s

end Sys2Proof.Machine
end

