-- ==== Sys2Proof/Machine/System.lean ====
section
/-! DEFINITION. Stack instructions, flag instructions, NOP and BRK (spec 45). -/

namespace Sys2Proof.Machine

/-! ## Handlers, one per mnemonic (R84) -/

/-- R190 -/
def pha (_ : Operand) (s : State) : Result := .next (push s.a s)

/-- R191: bit 4 is B as it is stored, bit 5 is STATUS_BIT5. -/
def php (_ : Operand) (s : State) : Result := .next (push (flagsToByte s.cfg s.flags) s)

/-- R192 -/
def pla (_ : Operand) (s : State) : Result :=
  let out := pull s
  .next { out.2 with a := out.1, flags := setNZ out.1 s.flags }

/-- R193: all seven flags, bit 5 ignored. -/
def plp (_ : Operand) (s : State) : Result :=
  let out := pull s
  .next { out.2 with flags := byteToFlags out.1 }

/-- R194 -/
def clc (_ : Operand) (s : State) : Result := .next { s with flags := { s.flags with c := false } }

/-- R195 -/
def sec (_ : Operand) (s : State) : Result := .next { s with flags := { s.flags with c := true } }

/-- R196 -/
def cli (_ : Operand) (s : State) : Result := .next { s with flags := { s.flags with i := false } }

/-- R197 -/
def sei (_ : Operand) (s : State) : Result := .next { s with flags := { s.flags with i := true } }

/-- R198 -/
def cld (_ : Operand) (s : State) : Result := .next { s with flags := { s.flags with d := false } }

/-- R199 -/
def sed (_ : Operand) (s : State) : Result := .next { s with flags := { s.flags with d := true } }

/-- R200 -/
def clv (_ : Operand) (s : State) : Result := .next { s with flags := { s.flags with v := false } }

/-- R201: the step still advances pc and counts. -/
def nop (_ : Operand) (s : State) : Result := .next s

/-- R202: the handler itself does nothing; phase 6 of the same step, `breakPhase`, sets B, and the step reports the
break signal (R98). -/
def brk (_ : Operand) (s : State) : Result := .next s

/-! ## The meaning of each row -/

/-! PHA: one meaning per row of the opcode table (R190). -/

def execPhaImplied (s : State) : Result := pha .implied s

/-! PHP: one meaning per row of the opcode table (R191). -/

def execPhpImplied (s : State) : Result := php .implied s

/-! PLA: one meaning per row of the opcode table (R192). -/

def execPlaImplied (s : State) : Result := pla .implied s

/-! PLP: one meaning per row of the opcode table (R193). -/

def execPlpImplied (s : State) : Result := plp .implied s

/-! CLC: one meaning per row of the opcode table (R194). -/

def execClcImplied (s : State) : Result := clc .implied s

/-! SEC: one meaning per row of the opcode table (R195). -/

def execSecImplied (s : State) : Result := sec .implied s

/-! CLI: one meaning per row of the opcode table (R196). -/

def execCliImplied (s : State) : Result := cli .implied s

/-! SEI: one meaning per row of the opcode table (R197). -/

def execSeiImplied (s : State) : Result := sei .implied s

/-! CLD: one meaning per row of the opcode table (R198). -/

def execCldImplied (s : State) : Result := cld .implied s

/-! SED: one meaning per row of the opcode table (R199). -/

def execSedImplied (s : State) : Result := sed .implied s

/-! CLV: one meaning per row of the opcode table (R200). -/

def execClvImplied (s : State) : Result := clv .implied s

/-! NOP: one meaning per row of the opcode table (R201). -/

def execNopImplied (s : State) : Result := nop .implied s

/-! BRK: one meaning per row of the opcode table (R202). -/

def execBrkImplied (s : State) : Result := brk .implied s

end Sys2Proof.Machine
end

