-- ==== Sys2Proof/Machine/Dispatch.lean ====
section
/-! DEFINITION. Phases 4 and 5 of a step (spec 40 rule R84): the instruction's handler runs, once, on the state whose pc has
already been advanced (R83). -/

namespace Sys2Proof.Machine

def exec (i : Instr) (s : State) : Host.Outcome State Fault Refusal :=
  match i with
  | .adcImmediate v => Sys2Proof.Machine.execAdcImmediate v s
  | .adcZeroPage z => Sys2Proof.Machine.execAdcZeroPage z s
  | .adcZeroPageX z => Sys2Proof.Machine.execAdcZeroPageX z s
  | .adcAbsolute a => Sys2Proof.Machine.execAdcAbsolute a s
  | .adcAbsoluteX a => Sys2Proof.Machine.execAdcAbsoluteX a s
  | .adcAbsoluteY a => Sys2Proof.Machine.execAdcAbsoluteY a s
  | .adcIndirectX z => Sys2Proof.Machine.execAdcIndirectX z s
  | .adcIndirectY z => Sys2Proof.Machine.execAdcIndirectY z s
  | .andImmediate v => Sys2Proof.Machine.execAndImmediate v s
  | .andZeroPage z => Sys2Proof.Machine.execAndZeroPage z s
  | .andZeroPageX z => Sys2Proof.Machine.execAndZeroPageX z s
  | .andAbsolute a => Sys2Proof.Machine.execAndAbsolute a s
  | .andAbsoluteX a => Sys2Proof.Machine.execAndAbsoluteX a s
  | .andAbsoluteY a => Sys2Proof.Machine.execAndAbsoluteY a s
  | .andIndirectX z => Sys2Proof.Machine.execAndIndirectX z s
  | .andIndirectY z => Sys2Proof.Machine.execAndIndirectY z s
  | .aslAccumulator => Sys2Proof.Machine.execAslAccumulator s
  | .aslZeroPage z => Sys2Proof.Machine.execAslZeroPage z s
  | .aslZeroPageX z => Sys2Proof.Machine.execAslZeroPageX z s
  | .aslAbsolute a => Sys2Proof.Machine.execAslAbsolute a s
  | .aslAbsoluteX a => Sys2Proof.Machine.execAslAbsoluteX a s
  | .bccRelative d => Sys2Proof.Machine.execBccRelative d s
  | .bcsRelative d => Sys2Proof.Machine.execBcsRelative d s
  | .beqRelative d => Sys2Proof.Machine.execBeqRelative d s
  | .bitZeroPage z => Sys2Proof.Machine.execBitZeroPage z s
  | .bitAbsolute a => Sys2Proof.Machine.execBitAbsolute a s
  | .bmiRelative d => Sys2Proof.Machine.execBmiRelative d s
  | .bneRelative d => Sys2Proof.Machine.execBneRelative d s
  | .bplRelative d => Sys2Proof.Machine.execBplRelative d s
  | .brkImplied => Sys2Proof.Machine.execBrkImplied s
  | .bvcRelative d => Sys2Proof.Machine.execBvcRelative d s
  | .bvsRelative d => Sys2Proof.Machine.execBvsRelative d s
  | .clcImplied => Sys2Proof.Machine.execClcImplied s
  | .cldImplied => Sys2Proof.Machine.execCldImplied s
  | .cliImplied => Sys2Proof.Machine.execCliImplied s
  | .clvImplied => Sys2Proof.Machine.execClvImplied s
  | .cmpImmediate v => Sys2Proof.Machine.execCmpImmediate v s
  | .cmpZeroPage z => Sys2Proof.Machine.execCmpZeroPage z s
  | .cmpZeroPageX z => Sys2Proof.Machine.execCmpZeroPageX z s
  | .cmpAbsolute a => Sys2Proof.Machine.execCmpAbsolute a s
  | .cmpAbsoluteX a => Sys2Proof.Machine.execCmpAbsoluteX a s
  | .cmpAbsoluteY a => Sys2Proof.Machine.execCmpAbsoluteY a s
  | .cmpIndirectX z => Sys2Proof.Machine.execCmpIndirectX z s
  | .cmpIndirectY z => Sys2Proof.Machine.execCmpIndirectY z s
  | .cpxImmediate v => Sys2Proof.Machine.execCpxImmediate v s
  | .cpxZeroPage z => Sys2Proof.Machine.execCpxZeroPage z s
  | .cpxAbsolute a => Sys2Proof.Machine.execCpxAbsolute a s
  | .cpyImmediate v => Sys2Proof.Machine.execCpyImmediate v s
  | .cpyZeroPage z => Sys2Proof.Machine.execCpyZeroPage z s
  | .cpyAbsolute a => Sys2Proof.Machine.execCpyAbsolute a s
  | .decZeroPage z => Sys2Proof.Machine.execDecZeroPage z s
  | .decZeroPageX z => Sys2Proof.Machine.execDecZeroPageX z s
  | .decAbsolute a => Sys2Proof.Machine.execDecAbsolute a s
  | .decAbsoluteX a => Sys2Proof.Machine.execDecAbsoluteX a s
  | .dexImplied => Sys2Proof.Machine.execDexImplied s
  | .deyImplied => Sys2Proof.Machine.execDeyImplied s
  | .eorImmediate v => Sys2Proof.Machine.execEorImmediate v s
  | .eorZeroPage z => Sys2Proof.Machine.execEorZeroPage z s
  | .eorZeroPageX z => Sys2Proof.Machine.execEorZeroPageX z s
  | .eorAbsolute a => Sys2Proof.Machine.execEorAbsolute a s
  | .eorAbsoluteX a => Sys2Proof.Machine.execEorAbsoluteX a s
  | .eorAbsoluteY a => Sys2Proof.Machine.execEorAbsoluteY a s
  | .eorIndirectX z => Sys2Proof.Machine.execEorIndirectX z s
  | .eorIndirectY z => Sys2Proof.Machine.execEorIndirectY z s
  | .incZeroPage z => Sys2Proof.Machine.execIncZeroPage z s
  | .incZeroPageX z => Sys2Proof.Machine.execIncZeroPageX z s
  | .incAbsolute a => Sys2Proof.Machine.execIncAbsolute a s
  | .incAbsoluteX a => Sys2Proof.Machine.execIncAbsoluteX a s
  | .inxImplied => Sys2Proof.Machine.execInxImplied s
  | .inyImplied => Sys2Proof.Machine.execInyImplied s
  | .jmpAbsolute a => Sys2Proof.Machine.execJmpAbsolute a s
  | .jmpIndirect a => Sys2Proof.Machine.execJmpIndirect a s
  | .jsrAbsolute a => Sys2Proof.Machine.execJsrAbsolute a s
  | .ldaImmediate v => Sys2Proof.Machine.execLdaImmediate v s
  | .ldaZeroPage z => Sys2Proof.Machine.execLdaZeroPage z s
  | .ldaZeroPageX z => Sys2Proof.Machine.execLdaZeroPageX z s
  | .ldaAbsolute a => Sys2Proof.Machine.execLdaAbsolute a s
  | .ldaAbsoluteX a => Sys2Proof.Machine.execLdaAbsoluteX a s
  | .ldaAbsoluteY a => Sys2Proof.Machine.execLdaAbsoluteY a s
  | .ldaIndirectX z => Sys2Proof.Machine.execLdaIndirectX z s
  | .ldaIndirectY z => Sys2Proof.Machine.execLdaIndirectY z s
  | .ldxImmediate v => Sys2Proof.Machine.execLdxImmediate v s
  | .ldxZeroPage z => Sys2Proof.Machine.execLdxZeroPage z s
  | .ldxZeroPageY z => Sys2Proof.Machine.execLdxZeroPageY z s
  | .ldxAbsolute a => Sys2Proof.Machine.execLdxAbsolute a s
  | .ldxAbsoluteY a => Sys2Proof.Machine.execLdxAbsoluteY a s
  | .ldyImmediate v => Sys2Proof.Machine.execLdyImmediate v s
  | .ldyZeroPage z => Sys2Proof.Machine.execLdyZeroPage z s
  | .ldyZeroPageX z => Sys2Proof.Machine.execLdyZeroPageX z s
  | .ldyAbsolute a => Sys2Proof.Machine.execLdyAbsolute a s
  | .ldyAbsoluteX a => Sys2Proof.Machine.execLdyAbsoluteX a s
  | .lsrAccumulator => Sys2Proof.Machine.execLsrAccumulator s
  | .lsrZeroPage z => Sys2Proof.Machine.execLsrZeroPage z s
  | .lsrZeroPageX z => Sys2Proof.Machine.execLsrZeroPageX z s
  | .lsrAbsolute a => Sys2Proof.Machine.execLsrAbsolute a s
  | .lsrAbsoluteX a => Sys2Proof.Machine.execLsrAbsoluteX a s
  | .nopImplied => Sys2Proof.Machine.execNopImplied s
  | .oraImmediate v => Sys2Proof.Machine.execOraImmediate v s
  | .oraZeroPage z => Sys2Proof.Machine.execOraZeroPage z s
  | .oraZeroPageX z => Sys2Proof.Machine.execOraZeroPageX z s
  | .oraAbsolute a => Sys2Proof.Machine.execOraAbsolute a s
  | .oraAbsoluteX a => Sys2Proof.Machine.execOraAbsoluteX a s
  | .oraAbsoluteY a => Sys2Proof.Machine.execOraAbsoluteY a s
  | .oraIndirectX z => Sys2Proof.Machine.execOraIndirectX z s
  | .oraIndirectY z => Sys2Proof.Machine.execOraIndirectY z s
  | .phaImplied => Sys2Proof.Machine.execPhaImplied s
  | .phpImplied => Sys2Proof.Machine.execPhpImplied s
  | .plaImplied => Sys2Proof.Machine.execPlaImplied s
  | .plpImplied => Sys2Proof.Machine.execPlpImplied s
  | .rolAccumulator => Sys2Proof.Machine.execRolAccumulator s
  | .rolZeroPage z => Sys2Proof.Machine.execRolZeroPage z s
  | .rolZeroPageX z => Sys2Proof.Machine.execRolZeroPageX z s
  | .rolAbsolute a => Sys2Proof.Machine.execRolAbsolute a s
  | .rolAbsoluteX a => Sys2Proof.Machine.execRolAbsoluteX a s
  | .rorAccumulator => Sys2Proof.Machine.execRorAccumulator s
  | .rorZeroPage z => Sys2Proof.Machine.execRorZeroPage z s
  | .rorZeroPageX z => Sys2Proof.Machine.execRorZeroPageX z s
  | .rorAbsolute a => Sys2Proof.Machine.execRorAbsolute a s
  | .rorAbsoluteX a => Sys2Proof.Machine.execRorAbsoluteX a s
  | .rtiImplied => Sys2Proof.Machine.execRtiImplied s
  | .rtsImplied => Sys2Proof.Machine.execRtsImplied s
  | .sbcImmediate v => Sys2Proof.Machine.execSbcImmediate v s
  | .sbcZeroPage z => Sys2Proof.Machine.execSbcZeroPage z s
  | .sbcZeroPageX z => Sys2Proof.Machine.execSbcZeroPageX z s
  | .sbcAbsolute a => Sys2Proof.Machine.execSbcAbsolute a s
  | .sbcAbsoluteX a => Sys2Proof.Machine.execSbcAbsoluteX a s
  | .sbcAbsoluteY a => Sys2Proof.Machine.execSbcAbsoluteY a s
  | .sbcIndirectX z => Sys2Proof.Machine.execSbcIndirectX z s
  | .sbcIndirectY z => Sys2Proof.Machine.execSbcIndirectY z s
  | .secImplied => Sys2Proof.Machine.execSecImplied s
  | .sedImplied => Sys2Proof.Machine.execSedImplied s
  | .seiImplied => Sys2Proof.Machine.execSeiImplied s
  | .staZeroPage z => Sys2Proof.Machine.execStaZeroPage z s
  | .staZeroPageX z => Sys2Proof.Machine.execStaZeroPageX z s
  | .staAbsolute a => Sys2Proof.Machine.execStaAbsolute a s
  | .staAbsoluteX a => Sys2Proof.Machine.execStaAbsoluteX a s
  | .staAbsoluteY a => Sys2Proof.Machine.execStaAbsoluteY a s
  | .staIndirectX z => Sys2Proof.Machine.execStaIndirectX z s
  | .staIndirectY z => Sys2Proof.Machine.execStaIndirectY z s
  | .stxZeroPage z => Sys2Proof.Machine.execStxZeroPage z s
  | .stxZeroPageY z => Sys2Proof.Machine.execStxZeroPageY z s
  | .stxAbsolute a => Sys2Proof.Machine.execStxAbsolute a s
  | .styZeroPage z => Sys2Proof.Machine.execStyZeroPage z s
  | .styZeroPageX z => Sys2Proof.Machine.execStyZeroPageX z s
  | .styAbsolute a => Sys2Proof.Machine.execStyAbsolute a s
  | .taxImplied => Sys2Proof.Machine.execTaxImplied s
  | .tayImplied => Sys2Proof.Machine.execTayImplied s
  | .tsxImplied => Sys2Proof.Machine.execTsxImplied s
  | .txaImplied => Sys2Proof.Machine.execTxaImplied s
  | .txsImplied => Sys2Proof.Machine.execTxsImplied s
  | .tyaImplied => Sys2Proof.Machine.execTyaImplied s

end Sys2Proof.Machine
end

