-- ==== Sys2Proof/Machine/Step.lean ====
section
/-! DEFINITION. One step (spec 40 rules R80 to R84, R98 to R101). -/

namespace Sys2Proof.Machine

/-- R80: what `step()` returns to its caller: a new state and the break signal, which is an output and not state
(R39, R98), or an error with the state at that point (R101). -/
inductive StepOutcome where
  | ok (s : State) (brk : Bool)
  | fault (f : Fault) (s : State)
  | refused (r : Refusal)
  deriving DecidableEq, Repr

/-- R80: fetch and decode, advance, handler, break handling, cycle count, in this order. At a fault in the fetch the
state is the one before the step; at a fault in the handler only pc has moved (R101). -/
def engineStep (s : State) : StepOutcome :=
  match fetchInstr s with
  | .error f => .fault f s
  | .ok i =>
    match exec i (advance i s) with
    | .next t => .ok (endPhase (breakPhase i t)) (isBreak i)
    | .fault f => .fault f (advance i s)
    | .refused r => .refused r

/-- `engineStep` without the break signal and without the state at a fault (R257: a faulted run has no final state). -/
def step (s : State) : Host.Outcome State Fault Refusal :=
  match engineStep s with
  | .ok t _ => .next t
  | .fault f _ => .fault f
  | .refused r => .refused r

/-- `s` with the bytes of an opcode-table word at pc, where the next step fetches them (log 25). -/
def State.withFetchWord (s : State) (nbits w : Nat) : State :=
  match tableWordBytes nbits w with
  | [b0, b1, b2] => memWrite (memWrite (memWrite s s.pc b0) (addrAdd s.pc 1).value b1) (addrAdd s.pc 2).value b2
  | _ => s

end Sys2Proof.Machine
end

