-- ==== Sys2Proof/Machine/Assembler.lean ====
section
/-! DEFINITION. The assembler (spec 50): a pure function from source text and origin to bytes or one error. Text is a
list of characters. The stages run in the spec's order: lines (R211 to R216), pass 1 (R214 to R217), pass 1.5 (R218 to
R220), pass 2 (R221 to R223), pass 3 (R226 to R233). It touches no machine state (R210). -/

namespace Sys2Proof.Machine

abbrev Text := List Char

/-- R235: what the assembler's errors are raised for. ValueRangeError records the integer of which no Byte and no
Address can be built (R253, R228, R229, R231). -/
inductive AsmCause where
  | valueRange (n : Int)
  | addressing
  | unknownInstruction
  | undefinedReference
  deriving DecidableEq, Repr

/-- R266: the kind of an assembler error. -/
def AsmCause.kind : AsmCause → ErrorKind
  | .valueRange _ => .valueRange
  | .addressing => .addressing
  | .unknownInstruction => .unknownInstruction
  | .undefinedReference => .undefinedReference

/-- R235: an error carries the 1-based source line and, in pass 3 only, the byte offset. -/
structure AsmError where
  cause  : AsmCause
  line   : Nat
  offset : Option Nat
  deriving DecidableEq, Repr

def AsmError.kind (e : AsmError) : ErrorKind := e.cause.kind

/-- R236: an error with its source line set aside. -/
def AsmError.withoutLine (e : AsmError) : AsmError := { e with line := 0 }

/-! ## Characters (R211, R216) -/

/-- R211: spaces, tabs and carriage returns (D25). -/
def isBlankChar (c : Char) : Bool := c == ' ' || c == '\t' || c == '\r'

/-- The place of a character among `count` characters that follow one another from `first`, counted from 0. -/
def placeFrom (first : Char) (count : Nat) (c : Char) : Option Nat :=
  (List.range count).find? fun k => first.toNat + k == c.toNat

/-- R216: hexadecimal digits may be of either case. -/
def digitValue (c : Char) : Option Nat :=
  match placeFrom '0' 10 c with
  | some d => some d
  | none => ((placeFrom 'A' 6 c).or (placeFrom 'a' 6 c)).map (10 + ·)

def isDigitOf (radix : Nat) (c : Char) : Bool :=
  match digitValue c with
  | some d => decide (d < radix)
  | none => false

def isHexDigit (c : Char) : Bool := isDigitOf 16 c

/-- The number that digits stand for. -/
def digitsValue (radix : Nat) (ds : Text) : Nat :=
  ds.foldl (fun n c => n * radix + (digitValue c).getD 0) 0

/-- The digit of a value below 16. -/
def digitChar (d : Nat) : Char := ['0', '1', '2', '3', '4', '5', '6', '7', '8', '9', 'A', 'B', 'C', 'D', 'E', 'F'].getD d '0'

/-- `k` digits of `n`, most significant first. -/
def toDigits (radix : Nat) : Nat → Nat → Text
  | 0, _ => []
  | k + 1, n => toDigits radix k (n / radix) ++ [digitChar (n % radix)]

/-- R216: the letters of both cases. -/
def isLetter (c : Char) : Bool := (placeFrom 'A' 26 c).isSome || (placeFrom 'a' 26 c).isSome

/-- R216: a letter or `_`, then letters, digits or `_`. -/
def isIdentifier : Text → Bool
  | [] => false
  | c :: rest => (isLetter c || c == '_') && rest.all fun d => isLetter d || d == '_' || isDigitOf 10 d

/-! ## Lines and tokens (R211 to R213) -/

/-- R211: split at every newline character. -/
def splitLines : Text → List Text
  | [] => [[]]
  | c :: rest =>
    if c = '\n' then [] :: splitLines rest
    else match splitLines rest with
      | [] => [[c]]
      | l :: ls => (c :: l) :: ls

/-- R211: without the comment, and without leading and trailing whitespace. -/
def cleanLine (l : Text) : Text :=
  (((l.takeWhile (· != ';')).dropWhile isBlankChar).reverse.dropWhile isBlankChar).reverse

/-- R212: the maximal run of non-whitespace characters at the start. -/
def firstToken (l : Text) : Text := l.takeWhile fun c => !isBlankChar c

/-- R212: what follows the first token, with all whitespace removed. -/
def operandToken (l : Text) : Text := (l.dropWhile fun c => !isBlankChar c).filter fun c => !isBlankChar c

/-- R213: what a line is. An instruction line has a mnemonic token and an operand token. -/
inductive LineKind where
  | blank
  | label (name : Text)
  | constant (name value : Text)
  | instruction (mnemonic operand : Text)
  /-- R215: a `define` line without a name or without a value -/
  | badDefine
  deriving DecidableEq, Repr

/-- R215: `define name value`, where the value is the rest of the line with whitespace removed. -/
def classifyDefine (afterDefine : Text) : LineKind :=
  let l := afterDefine.dropWhile isBlankChar
  let name := firstToken l
  let value := operandToken l
  if isIdentifier name && !value.isEmpty then .constant name value else .badDefine

/-- R213: label declaration, else constant definition, else instruction line. -/
def classifyLine (line : Text) : LineKind :=
  let l := cleanLine line
  if l.isEmpty then .blank
  else if l.getLast? == some ':' && isIdentifier l.dropLast then .label l.dropLast
  else if firstToken l == ['d', 'e', 'f', 'i', 'n', 'e'] then classifyDefine (l.drop 6)
  else .instruction (firstToken l) (operandToken l)

/-! ## Pass 1: collection (R214 to R217) -/

/-- An instruction line with its source line number. -/
structure SourceLine where
  line     : Nat
  mnemonic : Text
  operand  : Text
  deriving DecidableEq, Repr

/-- What pass 1 leaves: labels by output line index, constants by replacement text, the latest declaration first
(R216), and the instruction lines in order. -/
structure Collected where
  labels    : List (Text × Nat)
  constants : List (Text × Text)
  lines     : List SourceLine
  deriving DecidableEq, Repr

/-- R214 to R217: walks all lines once; `n` is the number of the next line. -/
def collect (n : Nat) (c : Collected) : List Text → Except AsmError Collected
  | [] => .ok c
  | l :: ls =>
    match classifyLine l with
    | .blank => collect (n + 1) c ls
    | .label name => collect (n + 1) { c with labels := (name, c.lines.length) :: c.labels } ls
    | .constant name value => collect (n + 1) { c with constants := (name, value) :: c.constants } ls
    | .instruction m o => collect (n + 1) { c with lines := c.lines ++ [⟨n, m, o⟩] } ls
    | .badDefine => .error ⟨.addressing, n, none⟩

/-! ## Pass 1.5: references (R218 to R220) -/

/-- R218: the sigil of a reference. -/
inductive Sigil where
  | bare | hash | dollar
  deriving DecidableEq, Repr

/-- R218: which operand tokens are references. -/
def asReference (op : Text) : Option (Sigil × Text) :=
  match op with
  | ['A'] => none
  | '#' :: name => if isIdentifier name then some (.hash, name) else none
  | '$' :: name =>
    if name.all isHexDigit && (name.length == 1 || name.length == 2 || name.length == 4) then none
    else if isIdentifier name then some (.dollar, name) else none
  | name => if isIdentifier name then some (.bare, name) else none

/-- R219: an operand after substitution: text, or a placeholder that carries a label's output line index. -/
inductive AsmOperand where
  | text (t : Text)
  | label (index : Nat)
  deriving DecidableEq, Repr

/-- R219, R220: labels before constants for a bare reference, constants only for a prefixed one; the replacement is
not scanned again. -/
def substitute (c : Collected) (op : Text) : Option AsmOperand :=
  match asReference op with
  | none => some (.text op)
  | some (.bare, name) =>
    match c.labels.lookup name with
    | some k => some (.label k)
    | none => (c.constants.lookup name).map .text
  | some (.hash, name) => (c.constants.lookup name).map fun t => .text ('#' :: t)
  | some (.dollar, name) => (c.constants.lookup name).map fun t => .text ('$' :: t)

/-- An instruction line after pass 1.5. -/
structure AsmLine where
  line     : Nat
  mnemonic : Text
  operand  : AsmOperand
  deriving DecidableEq, Repr

/-- R220: in source order, stopping at the first failure. -/
def substituteAll (c : Collected) : List SourceLine → Except AsmError (List AsmLine)
  | [] => .ok []
  | l :: ls =>
    match substitute c l.operand with
    | none => .error ⟨.undefinedReference, l.line, none⟩
    | some op =>
      match substituteAll c ls with
      | .ok rest => .ok (⟨l.line, l.mnemonic, op⟩ :: rest)
      | .error e => .error e

/-! ## Modes from text (R222, R230) -/

/-- The mnemonics as they are written (R216: upper case). -/
def mnemonicNames : List (Text × Mnemonic) := [
  (['A', 'D', 'C'], .adc), (['A', 'N', 'D'], .and), (['A', 'S', 'L'], .asl),
  (['B', 'C', 'C'], .bcc), (['B', 'C', 'S'], .bcs), (['B', 'E', 'Q'], .beq),
  (['B', 'I', 'T'], .bit), (['B', 'M', 'I'], .bmi), (['B', 'N', 'E'], .bne),
  (['B', 'P', 'L'], .bpl), (['B', 'R', 'K'], .brk), (['B', 'V', 'C'], .bvc),
  (['B', 'V', 'S'], .bvs), (['C', 'L', 'C'], .clc), (['C', 'L', 'D'], .cld),
  (['C', 'L', 'I'], .cli), (['C', 'L', 'V'], .clv), (['C', 'M', 'P'], .cmp),
  (['C', 'P', 'X'], .cpx), (['C', 'P', 'Y'], .cpy), (['D', 'E', 'C'], .dec),
  (['D', 'E', 'X'], .dex), (['D', 'E', 'Y'], .dey), (['E', 'O', 'R'], .eor),
  (['I', 'N', 'C'], .inc), (['I', 'N', 'X'], .inx), (['I', 'N', 'Y'], .iny),
  (['J', 'M', 'P'], .jmp), (['J', 'S', 'R'], .jsr), (['L', 'D', 'A'], .lda),
  (['L', 'D', 'X'], .ldx), (['L', 'D', 'Y'], .ldy), (['L', 'S', 'R'], .lsr),
  (['N', 'O', 'P'], .nop), (['O', 'R', 'A'], .ora), (['P', 'H', 'A'], .pha),
  (['P', 'H', 'P'], .php), (['P', 'L', 'A'], .pla), (['P', 'L', 'P'], .plp),
  (['R', 'O', 'L'], .rol), (['R', 'O', 'R'], .ror), (['R', 'T', 'I'], .rti),
  (['R', 'T', 'S'], .rts), (['S', 'B', 'C'], .sbc), (['S', 'E', 'C'], .sec),
  (['S', 'E', 'D'], .sed), (['S', 'E', 'I'], .sei), (['S', 'T', 'A'], .sta),
  (['S', 'T', 'X'], .stx), (['S', 'T', 'Y'], .sty), (['T', 'A', 'X'], .tax),
  (['T', 'A', 'Y'], .tay), (['T', 'S', 'X'], .tsx), (['T', 'X', 'A'], .txa),
  (['T', 'X', 'S'], .txs), (['T', 'Y', 'A'], .tya)]

/-- R222 (a): one of the 56 mnemonics, matched exactly. -/
def findMnemonic (t : Text) : Option Mnemonic := mnemonicNames.lookup t

/-- R68, R222 (b): the mode of a mnemonic that has only one. -/
def singleMode (m : Mnemonic) : Option Mode :=
  match m.modes with
  | [mode] => some mode
  | _ => none

/-- The base of relative tokens' digits. -/
def radixBase : RelRadix → Nat
  | .decimal => 10
  | .hexadecimal => 16

/-- How many digits a relative token may have: two in radix 16 (R229, R230), and as many as 127 needs in radix 10
(log 9). -/
def relTokenDigits : RelRadix → Nat
  | .decimal => 3
  | .hexadecimal => 2

/-- The digits of text up to the first other character, and the rest. -/
def spanHex (t : Text) : Text × Text := (t.takeWhile isHexDigit, t.dropWhile isHexDigit)

/-- A relative token's magnitude (R230 row 6). -/
def parseMagnitude (radix : RelRadix) (ds : Text) : Option Nat :=
  if ds.all (isDigitOf (radixBase radix)) && !ds.isEmpty && decide (ds.length ≤ relTokenDigits radix)
  then some (digitsValue (radixBase radix) ds) else none

/-- R230: the mode of an operand text and the number in it. A text that fits no pattern has none. -/
def parseOperand (radix : RelRadix) (t : Text) : Option (Mode × Int) :=
  match t with
  | ['A'] => some (.accumulator, 0)
  | '#' :: '$' :: ds =>
    let (h, rest) := spanHex ds
    if rest.isEmpty && (h.length == 1 || h.length == 2) then some (.immediate, digitsValue 16 h) else none
  | '$' :: ds =>
    let (h, rest) := spanHex ds
    let mode? : Option Mode :=
      if h.length == 1 || h.length == 2 then
        match rest with
        | [] => some .zeroPage
        | [',', 'X'] => some .zeroPageX
        | [',', 'Y'] => some .zeroPageY
        | _ => none
      else if h.length == 4 then
        match rest with
        | [] => some .absolute
        | [',', 'X'] => some .absoluteX
        | [',', 'Y'] => some .absoluteY
        | _ => none
      else none
    mode?.map fun mode => (mode, (digitsValue 16 h : Int))
  | '*' :: '+' :: ds => (parseMagnitude radix ds).map fun n => (.relative, (n : Int))
  | '*' :: '-' :: ds => (parseMagnitude radix ds).map fun n => (.relative, -(n : Int))
  | '(' :: '$' :: ds =>
    let (h, rest) := spanHex ds
    let mode? : Option Mode :=
      if h.length == 4 then
        match rest with
        | [')'] => some .indirect
        | _ => none
      else if h.length == 1 || h.length == 2 then
        match rest with
        | [',', 'X', ')'] => some .indirectX
        | [')', ',', 'Y'] => some .indirectY
        | _ => none
      else none
    mode?.map fun mode => (mode, (digitsValue 16 h : Int))
  | _ => none

/-- R222: the mode of an instruction line, or the cause of the error. -/
def lineMode (radix : RelRadix) (mnemonic : Text) (op : AsmOperand) : Except AsmCause (Mnemonic × Mode) :=
  match findMnemonic mnemonic with
  | none => .error .unknownInstruction
  | some m =>
    match singleMode m with
    | some mode => .ok (m, mode)
    | none =>
      match op with
      | .label _ => .ok (m, .absolute)
      | .text t =>
        match parseOperand radix t with
        | some (mode, _) => .ok (m, mode)
        | none => .error .addressing

/-! ## Pass 2: sizing (R221 to R223) -/

/-- R221: the offset at which each line begins, and the offset after the last line at the end of the list. -/
def sizeLines (radix : RelRadix) (offset : Nat) : List AsmLine → Except AsmError (List Nat)
  | [] => .ok [offset]
  | l :: ls =>
    match lineMode radix l.mnemonic l.operand with
    | .error k => .error ⟨k, l.line, none⟩
    | .ok (_, mode) =>
      match sizeLines radix (offset + 1 + operandLength mode) ls with
      | .ok rest => .ok (offset :: rest)
      | .error e => .error e

/-- R223: the byte offset of a label with output line index `k`: `start[k]`, or `total` past the last line. -/
def labelOffset (starts : List Nat) (k : Nat) : Nat := starts.getD k 0

/-! ## Pass 3: emission (R226 to R233) -/

/-- R227, R228: the absolute text of a label. -/
def absoluteToken (origin : Addr) (offset : Nat) : Except AsmCause Text :=
  let address := origin.toNat + offset
  if address ≤ 65535 then .ok ('$' :: toDigits 16 4 address) else .error (.valueRange address)

/-- R229: the relative token from the byte after the branch, `next`, to the label. -/
def relativeToken (radix : RelRadix) (next offset : Nat) : Except AsmCause Text :=
  let disp : Int := (offset : Int) - next
  if 0 ≤ disp ∧ disp ≤ 127 then .ok ('*' :: '+' :: toDigits (radixBase radix) (relTokenDigits radix) disp.toNat)
  else if -127 ≤ disp ∧ disp < 0 then .ok ('*' :: '-' :: toDigits (radixBase radix) (relTokenDigits radix) (-disp).toNat)
  else .error (.valueRange disp)

/-- R226: the final operand text of a line of mode `mode` that starts at `start`. -/
def finalText (radix : RelRadix) (origin : Addr) (starts : List Nat) (start : Nat) (mode : Mode) (op : AsmOperand) :
    Except AsmCause Text :=
  match op with
  | .text t => .ok t
  | .label k =>
    if mode = .relative then relativeToken radix (start + 2) (labelOffset starts k)
    else absoluteToken origin (labelOffset starts k)

/-- R231: the byte of a relative displacement, sign and magnitude (R7); a magnitude above 127 has none. -/
def displacementByte (n : Int) : Except AsmCause Byte :=
  if n.natAbs > 127 then .error (.valueRange n)
  else match byteOfInt Config.default n with
    | .ok b => .ok b
    | .error _ => .error (.valueRange n)

/-- R231: the operand bytes of a mode, from the number in the operand text; two-byte operands low byte first. -/
def operandBytes (mode : Mode) (n : Int) : Except AsmCause (List Byte) :=
  match mode with
  | .implied | .accumulator => .ok []
  | .relative =>
    match displacementByte n with
    | .ok b => .ok [b]
    | .error k => .error k
  | .immediate | .zeroPage | .zeroPageX | .zeroPageY | .indirectX | .indirectY => .ok [BitVec.ofNat 8 n.toNat]
  | .absolute | .absoluteX | .absoluteY | .indirect =>
    .ok [loByte (BitVec.ofNat 16 n.toNat), hiByte (BitVec.ofNat 16 n.toNat)]

/-- R226, R232, R233: the bytes of one line. An implied-only mnemonic ignores its operand (R232). -/
def emitLine (radix : RelRadix) (origin : Addr) (starts : List Nat) (start : Nat) (l : AsmLine) :
    Except AsmCause (List Byte) :=
  match lineMode radix l.mnemonic l.operand with
  | .error k => .error k
  | .ok (m, .implied) =>
    match encodeCommand m .implied with
    | some opc => .ok [opc]
    | none => .error .addressing
  | .ok (m, mode) =>
    match finalText radix origin starts start mode l.operand with
    | .error k => .error k
    | .ok t =>
      match parseOperand radix t with
      | none => .error .addressing
      | some (mode', n) =>
        if (singleMode m).isSome && mode' != mode then .error .addressing
        else
          match encodeCommand m mode' with
          | none => .error .addressing
          | some opc =>
            match operandBytes mode' n with
            | .error k => .error k
            | .ok bs => .ok (opc :: bs)

/-- R226: walks the lines in order; `all` are the offsets of pass 2, `starts` those of the remaining lines. -/
def emitLines (radix : RelRadix) (origin : Addr) (all : List Nat) : List Nat → List AsmLine → Except AsmError (List Byte)
  | _, [] => .ok []
  | starts, l :: ls =>
    let start := starts.headD 0
    match emitLine radix origin all start l with
    | .error k => .error ⟨k, l.line, some start⟩
    | .ok bytes =>
      match emitLines radix origin all starts.tail ls with
      | .ok rest => .ok (bytes ++ rest)
      | .error e => .error e

/-- R210, R235: the stages in order; exactly one error, the first one met. -/
def assembleText (radix : RelRadix) (source : Text) (origin : Addr) : Except AsmError (List Byte) :=
  match collect 1 ⟨[], [], []⟩ (splitLines source) with
  | .error e => .error e
  | .ok c =>
    match substituteAll c c.lines with
    | .error e => .error e
    | .ok lines =>
      match sizeLines radix 0 lines with
      | .error e => .error e
      | .ok starts => emitLines radix origin starts starts lines

/-- R210: `assemble(sourceText, originAddress)`, with the parameter REL_TOKEN_RADIX from `cfg`. -/
def assemble (cfg : Config) (source : String) (origin : Addr) : Except AsmError (List Byte) :=
  assembleText cfg.relTokenRadix source.toList origin

end Sys2Proof.Machine
end

