-- ==== Sys2Proof/Machine/HostOps.lean ====
section
/-! DEFINITION. The machine-boundary operations of the host (spec 10 section 7, spec 40 rules R102 and R104, spec 70
rules R280 to R283). Each is a move between steps (R52). -/

namespace Sys2Proof.Machine

/-- R33: changes no register, flag or counter. -/
def readMemory (a : Addr) (s : State) : Byte := memRead s a

/-- R33 -/
def writeMemory (a : Addr) (v : Byte) (s : State) : State := memWrite s a v

/-- R34: any Address is accepted. -/
def setProgramCounter (a : Addr) (s : State) : State := { s with pc := a }

/-- R35: the registers that setRegister names (D22). -/
inductive RegName where
  | a | x | y | sp
  deriving DecidableEq, Repr

/-- R35 -/
def setRegister (which : RegName) (v : Byte) (s : State) : State :=
  match which with
  | .a => { s with a := v }
  | .x => { s with x := v }
  | .y => { s with y := v }
  | .sp => { s with sp := v }

/-- R36: the seven flags as a structure; it changes nothing. -/
def getProcessorStatus (s : State) : Flags := s.flags

/-- R32: the cells of Memory that are also Stack cells when STACK_ALIASED. -/
def inStackPage (k : Nat) : Bool := decide (0x0100 ≤ k ∧ k < 0x0200)

/-- R38: the Stack cells all 0x00. With STACK_ALIASED that clears the page of Memory they are (R32). -/
def clearStack (s : State) : State :=
  if s.cfg.stackAliased then { s with stack := [], mem := s.mem.filter fun c => !inStackPage c.1 }
  else { s with stack := [] }

/-- R38, R280, R281: registers, flags, Stack, cycle counter and pc; Memory and the run control are kept. -/
def hostReset (s : State) : State :=
  { clearStack s with a := 0, x := 0, y := 0, sp := 0, pc := 0, flags := Flags.clear, cycles := 0 }

/-- R102: from Idle and from Paused; it has no move while Running (D33). -/
def start (speedMs : Nat) (s : State) : Option State :=
  match s.run with
  | .idle | .paused => some { s with run := .running, speedMs := speedMs }
  | .running => none

/-- R104: acts only when Running. -/
def pause (s : State) : State :=
  match s.run with
  | .running => { s with run := .paused }
  | .idle | .paused => s

/-- R104 -/
def stop (s : State) : State := { s with run := .idle }

/-- R104: acts only when Paused; the stored interval is used again. -/
def unpause (s : State) : State :=
  match s.run with
  | .paused => { s with run := .running }
  | .idle | .running => s

/-- The host's moves that change the state. `readMemory` and `getProcessorStatus` change nothing. -/
inductive HostOp where
  | writeMemory (a : Addr) (v : Byte)
  | setProgramCounter (a : Addr)
  | setRegister (which : RegName) (v : Byte)
  | reset
  | start (speedMs : Nat)
  | pause
  | unpause
  | stop
  deriving DecidableEq, Repr

/-- What a host move makes of the state; `none` where the spec gives the host no move. -/
def hostMove (op : HostOp) (s : State) : Option State :=
  match op with
  | .writeMemory a v => some (writeMemory a v s)
  | .setProgramCounter a => some (setProgramCounter a s)
  | .setRegister which v => some (setRegister which v s)
  | .reset => some (hostReset s)
  | .start ms => start ms s
  | .pause => some (pause s)
  | .unpause => some (unpause s)
  | .stop => some (stop s)

/-- R283 step 2: byte i goes to `origin + i`. An address above 0xFFFF cannot be built (R2, R14, D10, log 31). -/
def loadBytes (origin : Nat) : List Byte → State → Except Fault State
  | [], s => .ok s
  | v :: rest, s =>
    match addrOfInt (origin : Int) with
    | .ok a => loadBytes (origin + 1) rest (writeMemory a v s)
    | .error f => .error f

/-- R283: loads a byte sequence at `origin` and sets pc there. -/
def boot (origin : Addr) (bytes : List Byte) (s : State) : Except Fault State :=
  match loadBytes origin.toNat bytes s with
  | .ok t => .ok (setProgramCounter origin t)
  | .error f => .error f

end Sys2Proof.Machine
end

