-- ==== Sys2Proof/Machine/Loop.lean ====
section
/-! DEFINITION. The stepping loop (spec 40 section 3) and the end of a run (spec 70 rules R289, R290). Only what ends
the loop is modelled; its period has no architectural meaning (R286). -/

namespace Sys2Proof.Machine

/-- What one tick does (R103). -/
inductive TickOutcome where
  /-- no step was taken -/
  | noStep (s : State)
  /-- one step completed, with its break signal -/
  | stepped (s : State) (brk : Bool)
  /-- the step raised; the error goes to the host -/
  | crashed (f : Fault) (s : State)
  | refused (r : Refusal)
  deriving DecidableEq, Repr

/-- R103: a pause or stop request is seen first, then (LOOP_STOP_ON_FLAG) the break flag, then one step. A failing step
ends the loop without setting B. -/
def tick (s : State) : TickOutcome :=
  match s.run with
  | .idle | .paused => .noStep s
  | .running =>
    if s.cfg.loopStopOnFlag && s.flags.b then .noStep { s with run := .idle }
    else
      match engineStep s with
      | .ok t brk => .stepped (if brk then { t with run := .idle } else t) brk
      | .fault f t => .crashed f { t with run := .idle }
      | .refused r => .refused r

/-- How a run stands after some ticks (R289). -/
inductive RunEnd where
  /-- the last step was a BRK -/
  | halted (s : State)
  /-- a step raised; the state is the one at the fault and is not final (R257) -/
  | crashed (f : Fault) (s : State)
  /-- a tick took no step: the loop is not running, or it found B = 1 -/
  | stopped (s : State)
  /-- the loop is still running -/
  | unfinished (s : State)
  | refused (r : Refusal)
  deriving DecidableEq, Repr

/-- R289: at most `fuel` ticks of the loop. -/
def runLoop : Nat → State → RunEnd
  | 0, s => .unfinished s
  | fuel + 1, s =>
    match tick s with
    | .noStep t => .stopped t
    | .stepped t true => .halted t
    | .stepped t false => runLoop fuel t
    | .crashed f t => .crashed f t
    | .refused r => .refused r

/-- R289: the run of a host that calls `step()` itself until the break signal. It never looks at B or `run` (R103). -/
def runSteps : Nat → State → RunEnd
  | 0, s => .unfinished s
  | fuel + 1, s =>
    match engineStep s with
    | .ok t true => .halted t
    | .ok t false => runSteps fuel t
    | .fault f t => .crashed f t
    | .refused r => .refused r

end Sys2Proof.Machine
end

