-- ==== Sys2Proof/Safety.lean ====
section
/-! DEFINITION. What counts as a safe run, and the spec's own notions in which claims are stated. -/

namespace Sys2Proof.Machine

/-- The representation invariant: both arrays are in canonical form, so that equal arrays are equal data (log 7). -/
def State.inv (s : State) : Bool := Memory.wf s.mem && Stack.wf s.stack

/-- A run of `n` steps that raises no error (R257: a claim about a run takes "no fault occurred" as a premise). -/
def SafeFor (n : Nat) (s : State) : Prop := ∃ t, Host.Core.run core n s = .next t

/-- R66: the byte values that are no opcode, as the rule lists them. -/
def undecodableBytes : List Byte := [
  0x02, 0x03, 0x04, 0x07, 0x0B, 0x0C, 0x0F, 0x12, 0x13, 0x14, 0x17, 0x1A, 0x1B, 0x1C, 0x1F, 0x22, 0x23, 0x27, 0x2B,
  0x2F, 0x32, 0x33, 0x34, 0x37, 0x3A, 0x3B, 0x3C, 0x3F, 0x42, 0x43, 0x44, 0x47, 0x4B, 0x4F, 0x52, 0x53, 0x54, 0x57,
  0x5A, 0x5B, 0x5C, 0x5F, 0x62, 0x63, 0x64, 0x67, 0x6B, 0x6F, 0x72, 0x73, 0x74, 0x77, 0x7A, 0x7B, 0x7C, 0x7F, 0x80,
  0x82, 0x83, 0x87, 0x89, 0x8B, 0x8F, 0x92, 0x93, 0x97, 0x9B, 0x9C, 0x9E, 0x9F, 0xA3, 0xA7, 0xAB, 0xAF, 0xB2, 0xB3,
  0xB7, 0xBB, 0xBF, 0xC2, 0xC3, 0xC7, 0xCB, 0xCF, 0xD2, 0xD3, 0xD4, 0xD7, 0xDA, 0xDB, 0xDC, 0xDF, 0xE2, 0xE3, 0xE7,
  0xEB, 0xEF, 0xF2, 0xF3, 0xF4, 0xF7, 0xFA, 0xFB, 0xFC, 0xFF]

/-- R7, R12: the integer a sign-and-magnitude Byte stands for. -/
def signMagnitude (b : Byte) : Int :=
  if b.getLsbD 7 then -((b.toNat % 128 : Nat) : Int) else (b.toNat : Int)

/-- R171 to R178: the tested flag and its polarity; `none` for a mnemonic that is no branch. -/
def branchCondition (m : Mnemonic) (f : Flags) : Option Bool :=
  match m with
  | .bcc => some (f.c == false)
  | .bcs => some (f.c == true)
  | .beq => some (f.z == true)
  | .bne => some (f.z == false)
  | .bmi => some (f.n == true)
  | .bpl => some (f.n == false)
  | .bvc => some (f.v == false)
  | .bvs => some (f.v == true)
  | _ => none

/-- R154 to R157: the result and the bit shifted out, from the byte and the old carry, as the rules compute them;
`none` for a mnemonic that is no shift. -/
def shiftResult (m : Mnemonic) (v : Byte) (c : Bool) : Option (Byte × Bool) :=
  match m with
  | .asl => some (BitVec.ofNat 8 (v.toNat * 2), v.getLsbD 7)
  | .lsr => some (BitVec.ofNat 8 (v.toNat / 2), v.getLsbD 0)
  | .rol => some (BitVec.ofNat 8 (v.toNat * 2 + c.toNat), v.getLsbD 7)
  | .ror => some (BitVec.ofNat 8 (v.toNat / 2 + 128 * c.toNat), v.getLsbD 0)
  | _ => none

/-- R48: pushes the bytes of a list, first to last. -/
def pushAll : List Byte → State → State
  | [], s => s
  | v :: rest, s => pushAll rest (push v s)

/-- R48: pulls `n` bytes, in the order they come. -/
def pullMany : Nat → State → List Byte × State
  | 0, s => ([], s)
  | n + 1, s =>
    let (v, t) := pull s
    let (rest, u) := pullMany n t
    (v :: rest, u)

/-- A state with I and D set aside, to compare two states that may differ in them only (R26, R255). -/
def withoutID (s : State) : State := { s with flags := { s.flags with i := false, d := false } }

end Sys2Proof.Machine
end

