-- ==== Sys2Proof/Certificates/Slice0/Obligations.lean ====
section
/-! DEFINITION. The statements for the provers. Each docstring says which sentence of the spec it formalises; where a
statement rests on a decision of the spec or of this model, it names the decision or the log entry. -/

open Sys2Proof Sys2Proof.Machine

/-- For every instruction i of all 151 forms, with every operand at every value, and every list of bytes rest, decode
(encode i ++ rest) is (i, rest). The opcode bytes are the spec's table, which it marks as general knowledge (log
11). From 30_encoding.md sections 1 to 3; 92_eei_decisions.md D18. -/
def Obligations.DecodeInvertsEncode : Prop :=
  ∀ (i : Instr) (rest : List Byte), decode (encode i ++ rest) = .ok (i, rest)

/-- Whenever bytes decode to an instruction i with rest left over, the bytes are encode i followed by rest. The opcode
bytes are the spec's table, marked as general knowledge (log 11). From 30_encoding.md sections 1 to 3;
92_eei_decisions.md D18. -/
def Obligations.EncodeInvertsDecode : Prop :=
  ∀ (bytes rest : List Byte) (i : Instr), decode bytes = .ok (i, rest) → encode i ++ rest = bytes

/-- An opcode byte decodes to the Command (m, mode) exactly when that Command encodes to the byte; a Command has no
byte exactly when its mnemonic does not have the mode, as STA immediate and LDX zeroPageX. Formalises R65. -/
def Obligations.CommandTablesAreInverse : Prop :=
  (∀ (b : Byte) (m : Mnemonic) (mode : Mode), decodeCommand b = some (m, mode) ↔ encodeCommand m mode = some b) ∧
  (∀ (m : Mnemonic) (mode : Mode), encodeCommand m mode = none ↔ mode ∉ m.modes) ∧
  encodeCommand .sta .immediate = none ∧ encodeCommand .ldx .zeroPageX = none

/-- One word of each family, written out byte by byte from the spec's table and vectors, decodes to its instruction
with the operand bytes low byte first. Of the opcode bytes only 0xA9 and 0x85 are the source's own; the others are
the standard map, which the spec marks as general knowledge (log 11, D18). From 30_encoding.md section 3;
95_test_vectors.md sections 1 to 6; 92_eei_decisions.md D18. -/
def Obligations.WrittenOutWordsDecode : Prop :=
  decode [0xA9, 0x02] = .ok (.ldaImmediate 0x02, []) ∧
  decode [0x85, 0x00] = .ok (.staZeroPage 0x00, []) ∧
  decode [0xAA] = .ok (.taxImplied, []) ∧
  decode [0x7D, 0x00, 0x07] = .ok (.adcAbsoluteX 0x0700, []) ∧
  decode [0x91, 0x20] = .ok (.staIndirectY 0x20, []) ∧
  decode [0xCE, 0x00, 0x02] = .ok (.decAbsolute 0x0200, []) ∧
  decode [0x0A] = .ok (.aslAccumulator, []) ∧
  decode [0xD0, 0x83] = .ok (.bneRelative 0x83, []) ∧
  decode [0x6C, 0xFF, 0x02] = .ok (.jmpIndirect 0x02FF, []) ∧
  decode [0x00] = .ok (.brkImplied, [])

/-- If the byte at pc decodes to no Command, engineStep is the fault InvalidOpcodeError with that byte and that
address, and the state at the fault is the state before; if it decodes to (m, mode), the fetch gives an
instruction of that mnemonic and mode. Formalises R81. -/
def Obligations.UndecodableOpcodeRaisesUnchanged : Prop :=
  ∀ s : State,
    (decodeCommand (memRead s s.pc) = none →
      engineStep s = .fault (.invalidOpcode (memRead s s.pc) s.pc) s) ∧
    (∀ (m : Mnemonic) (mode : Mode), decodeCommand (memRead s s.pc) = some (m, mode) →
      ∃ i, fetchInstr s = .ok i ∧ i.mnemonic = m ∧ i.mode = mode)

/-- For every state, the step faults with InvalidOpcodeError if and only if the byte at pc is in the list of 105
undecodable values, which the spec marks as general knowledge (log 11). From 30_encoding.md section 4;
60_exceptions.md section 1; 92_eei_decisions.md D18. -/
def Obligations.ExactlyTheListedBytesAreInvalid : Prop :=
  ∀ s : State,
    (∃ o a, step s = .fault (.invalidOpcode o a)) ↔ memRead s s.pc ∈ undecodableBytes

/-- When the bytes at pc, pc + 1, pc + 2 decode to i, step is exec of i on the state whose pc has moved by 1 +
operandLength of its mode, before anything else, and a next state then goes through the break phase and the cycle
count. Operand fetches and the advance wrap at the top of the address space (log 19, D10); that BRK has its effect
in the break phase, after exec, is log 16 (D14). From 40_step_and_addressing.md section 1; 20_memory.md section
10; 92_eei_decisions.md D10, D14. -/
def Obligations.StepRunsTheDecodedInstruction : Prop :=
  ∀ (s : State) (i : Instr) (rest : List Byte),
    decode [memRead s s.pc, memRead s (s.pc + 1), memRead s (s.pc + 2)] = .ok (i, rest) →
    step s =
      match exec i { s with pc := s.pc + BitVec.ofNat 16 (1 + operandLength i.mode) } with
      | .next t => .next (endPhase (breakPhase i t))
      | .fault f => .fault f
      | .refused r => .refused r

/-- When the fetched instruction's handler completes with state u, the step completes; its break signal is true
exactly for BRK; for BRK the flags are those of u with B set, for every other mnemonic they are those of u.
Formalises R98. -/
def Obligations.OnlyBreakSetsTheFlagAndSignals : Prop :=
  ∀ (s u : State) (i : Instr), fetchInstr s = .ok i → exec i (advance i s) = .next u →
    ∃ t, engineStep s = .ok t (decide (i.mnemonic = .brk)) ∧
      t.flags = if i.mnemonic = .brk then { u.flags with b := true } else u.flags

/-- If a step completes, cycles is one higher (for the unbounded counter always, for a counter of w bits below its
top; at its top it is a free value, log 10), and run, speedMs and cfg are unchanged. From
40_step_and_addressing.md section 1; 10_state.md section 4; 92_eei_decisions.md D24. -/
def Obligations.StepCountsOnceAndKeepsRunControl : Prop :=
  ∀ s t : State, step s = .next t →
    (s.cfg.cycleWidth = none → t.cycles = s.cycles + 1) ∧
    (∀ w, s.cfg.cycleWidth = some w → s.cycles + 1 < 2 ^ w → t.cycles = s.cycles + 1) ∧
    t.run = s.run ∧ t.speedMs = s.speedMs ∧ t.cfg = s.cfg

/-- If engineStep faults, either it is InvalidOpcodeError of the byte at pc and the state is unchanged, or it is
ValueRangeError(n) with n from -256 to -128, raised by SBC, CMP, CPX or CPY, and the state differs only in pc,
which has moved past the instruction; AddressingError never occurs and no instruction is refused. From
40_step_and_addressing.md sections 1 and 2; 60_exceptions.md sections 1 and 3. -/
def Obligations.EngineErrorsAreTheTwoListed : Prop :=
  (∀ (s t : State) (f : Fault), engineStep s = .fault f t →
    (f = .invalidOpcode (memRead s s.pc) s.pc ∧ t = s) ∨
    (∃ (n : Int) (i : Instr), f = .valueRange n ∧ -256 ≤ n ∧ n ≤ -128 ∧ fetchInstr s = .ok i ∧
      i.mnemonic ∈ [.sbc, .cmp, .cpx, .cpy] ∧ t = { s with pc := s.pc + BitVec.ofNat 16 i.length })) ∧
  (∀ (s : State) (r : Refusal), engineStep s ≠ .refused r)

/-- For every state whose Memory (65536 cells) and Stack (256 cells) are in canonical form (addresses rising and in
range, no zero cell listed), a completed step gives such a state again. The form is the model's (log 7). From
10_state.md section 6; 20_memory.md sections 1 and 6. -/
def Obligations.StepKeepsArraysCanonical : Prop :=
  ∀ s t : State, s.inv = true → step s = .next t → t.inv = true

/-- For every host operation (writeMemory, setProgramCounter, setRegister, reset, start, pause, unpause, stop) that
has a move, canonical arrays stay canonical, with STACK_ALIASED or without. The form is the model's (log 7). From
10_state.md section 7; 70_reset_and_hazards.md section 1. -/
def Obligations.HostMovesKeepArraysCanonical : Prop :=
  ∀ (op : HostOp) (s t : State), s.inv = true → hostMove op s = some t → t.inv = true

/-- At reset A, X, Y, SP are 0x00, pc is 0x0000, all seven flags are 0, cycles is 0, every Stack cell and (MEM_INIT
default, D16) every Memory cell reads 0x00, the loop is Idle, and the invariant holds. From 10_state.md section 8;
70_reset_and_hazards.md section 1; 92_eei_decisions.md D16. -/
def Obligations.ResetStateIsAsStated : Prop :=
  State.reset.a = 0 ∧ State.reset.x = 0 ∧ State.reset.y = 0 ∧ State.reset.sp = 0 ∧ State.reset.pc = 0 ∧
  State.reset.flags = ⟨false, false, false, false, false, false, false⟩ ∧ State.reset.cycles = 0 ∧
  State.reset.run = .idle ∧ (∀ j, stackRead State.reset j = 0) ∧ (∀ b, memRead State.reset b = 0) ∧
  State.reset.inv = true

/-- For each of C, Z, I, D, B, V, N: if a completed step leaves the flag different, the instruction it ran is in the
spec's written-by list for that flag; and only PLP and RTI can clear B. From 10_state.md section 3;
92_eei_decisions.md D20. -/
def Obligations.FlagsAreWrittenOnlyByTheirInstructions : Prop :=
  ∀ s t : State, step s = .next t → ∃ i, fetchInstr s = .ok i ∧
    (t.flags.c ≠ s.flags.c →
      i.mnemonic ∈ [.adc, .sbc, .cmp, .cpx, .cpy, .asl, .lsr, .rol, .ror, .clc, .sec, .plp, .rti]) ∧
    (t.flags.z ≠ s.flags.z →
      i.mnemonic ∈ [.lda, .ldx, .ldy, .tax, .tay, .txa, .tya, .tsx, .pla, .adc, .sbc, .and, .ora, .eor, .inc, .inx,
        .iny, .dec, .dex, .dey, .asl, .lsr, .rol, .ror, .cmp, .cpx, .cpy, .bit, .plp, .rti]) ∧
    (t.flags.i ≠ s.flags.i → i.mnemonic ∈ [.sei, .cli, .plp, .rti]) ∧
    (t.flags.d ≠ s.flags.d → i.mnemonic ∈ [.sed, .cld, .plp, .rti]) ∧
    (t.flags.b ≠ s.flags.b → i.mnemonic ∈ [.brk, .plp, .rti]) ∧
    (s.flags.b = true → t.flags.b = false → i.mnemonic ∈ [.plp, .rti]) ∧
    (t.flags.v ≠ s.flags.v → i.mnemonic ∈ [.adc, .sbc, .bit, .clv, .plp, .rti]) ∧
    (t.flags.n ≠ s.flags.n →
      i.mnemonic ∈ [.lda, .ldx, .ldy, .tax, .tay, .txa, .tya, .tsx, .pla, .adc, .sbc, .and, .ora, .eor, .inc, .inx,
        .iny, .dec, .dex, .dey, .asl, .lsr, .rol, .ror, .cmp, .cpx, .cpy, .bit, .plp, .rti])

/-- If a completed step leaves A, X, Y or SP different, the instruction it ran is in the spec's list for that
register, and a shift or rotate changes A only in accumulator mode. From 10_state.md section 1;
92_eei_decisions.md D19. -/
def Obligations.RegistersAreWrittenOnlyByTheirInstructions : Prop :=
  ∀ s t : State, step s = .next t → ∃ i, fetchInstr s = .ok i ∧
    (t.a ≠ s.a → i.mnemonic ∈ [.lda, .adc, .sbc, .and, .ora, .eor, .pla, .txa, .tya] ∨
      (i.mnemonic ∈ [.asl, .lsr, .rol, .ror] ∧ i.mode = .accumulator)) ∧
    (t.x ≠ s.x → i.mnemonic ∈ [.ldx, .inx, .dex, .tax, .tsx]) ∧
    (t.y ≠ s.y → i.mnemonic ∈ [.ldy, .iny, .dey, .tay]) ∧
    (t.sp ≠ s.sp → i.mnemonic ∈ [.pha, .php, .pla, .plp, .jsr, .rts, .rti, .txs])

/-- Without STACK_ALIASED: if a completed step changes a Memory byte, its instruction is STA, STX, STY, INC, DEC or a
shift in a memory mode; if it changes a Stack cell, its instruction is PHA, PHP or JSR. With STACK_ALIASED (D2), a
Memory byte changed by any other instruction is one of 0x0100 to 0x01FF changed by PHA, PHP or JSR. From
10_state.md section 6; 20_memory.md sections 4, 6 and 7; 92_eei_decisions.md D2. -/
def Obligations.ArraysAreWrittenOnlyByTheirInstructions : Prop :=
  ∀ s t : State, step s = .next t → ∃ i, fetchInstr s = .ok i ∧
    (∀ b : Addr, memRead t b ≠ memRead s b →
      i.mnemonic ∈ [.sta, .stx, .sty, .inc, .dec] ∨
      (i.mnemonic ∈ [.asl, .lsr, .rol, .ror] ∧ i.mode ≠ .accumulator) ∨
      (s.cfg.stackAliased = true ∧ i.mnemonic ∈ [.pha, .php, .jsr] ∧ 0x0100 ≤ b.toNat ∧ b.toNat < 0x0200)) ∧
    (s.cfg.stackAliased = false → ∀ j : Byte, stackRead t j ≠ stackRead s j → i.mnemonic ∈ [.pha, .php, .jsr])

/-- For every instruction other than PHP, on two states that agree once I and D are set aside, either both complete
and the results agree once I and D are set aside, or both raise the same error. PHP is the one instruction that
reads them. From 10_state.md section 3; 60_exceptions.md section 2. -/
def Obligations.DecimalAndInterruptFlagsAreInert : Prop :=
  ∀ (i : Instr) (s u : State), i.mnemonic ≠ .php → withoutID s = withoutID u →
    (∃ t w, exec i s = .next t ∧ exec i u = .next w ∧ withoutID t = withoutID w) ∨
    (∃ f, exec i s = .fault f ∧ exec i u = .fault f)

/-- Loading the encoding of i at an origin and setting pc there succeeds exactly when it ends at or below 0xFFFF; then
pc is the origin and the fetch gives i; past the top of the address space it raises ValueRangeError (D10, log 31).
From 70_reset_and_hazards.md section 2; 20_memory.md section 8; 92_eei_decisions.md D10. -/
def Obligations.LoadedBytesAreFetched : Prop :=
  ∀ (origin : Addr) (i : Instr) (s : State),
    (origin.toNat + i.length ≤ 65536 →
      ∃ t, boot origin (encode i) s = .ok t ∧ t.pc = origin ∧ fetchInstr t = .ok i ∧
        t = { s with pc := origin, mem := t.mem }) ∧
    (65536 < origin.toNat + i.length → ∃ n, boot origin (encode i) s = .error (.valueRange n))

/-- Immediate and relative give the raw operand byte, accumulator gives A, every other mode gives the Memory byte at
the resolved address or the error of resolving it; zeroPage resolves to the operand byte with a zero top byte;
absolute resolves to the operand address, and whenever bytes decode to an instruction in absolute mode, it
resolves to the first operand byte plus 256 times the second. Formalises R85, R87, R90. -/
def Obligations.OperandValuesAndPlainAddresses : Prop :=
  ∀ (s : State) (v : Byte) (a : Addr) (o : Operand),
    getValue (.immediate v) s = .ok v ∧ getValue (.relative v) s = .ok v ∧ getValue .accumulator s = .ok s.a ∧
    (o.mode ∉ [.immediate, .relative, .accumulator] → getValue o s = (resolve o s).map (memRead s)) ∧
    (∃ ea, resolve (.zeroPage v) s = .ok ea ∧ ea.toNat = v.toNat) ∧
    resolve (.absolute a) s = .ok a ∧
    (∀ (opc lo hi : Byte) (rest : List Byte) (i : Instr), decode (opc :: lo :: hi :: rest) = .ok (i, rest) →
      i.mode = .absolute → ∃ ea, resolve i.operand s = .ok ea ∧ ea.toNat = lo.toNat + 256 * hi.toNat)

/-- zeroPageX and zeroPageY resolve to operand plus index, not reduced to page zero, or modulo 256 with ZP_INDEX_WRAP
(D7); absoluteX and absoluteY to operand plus index modulo 65536 (D8). From 40_step_and_addressing.md section 2;
92_eei_decisions.md D7, D8. -/
def Obligations.IndexedAddresses : Prop :=
  ∀ (s : State) (z : Byte) (a : Addr), ∃ zx zy ax ay,
    resolve (.zeroPageX z) s = .ok zx ∧ resolve (.zeroPageY z) s = .ok zy ∧
    resolve (.absoluteX a) s = .ok ax ∧ resolve (.absoluteY a) s = .ok ay ∧
    zx.toNat = (if s.cfg.zpIndexWrap then (z.toNat + s.x.toNat) % 256 else z.toNat + s.x.toNat) ∧
    zy.toNat = (if s.cfg.zpIndexWrap then (z.toNat + s.y.toNat) % 256 else z.toNat + s.y.toNat) ∧
    ax.toNat = (a.toNat + s.x.toNat) % 65536 ∧ ay.toNat = (a.toNat + s.y.toNat) % 65536

/-- Each reads a little-endian pointer at an address p and at p + 1 modulo 65536, without page wrap (D9): p is the
operand address for indirect, (operand + X) mod 256 for indirectX, the operand for indirectY, which then adds Y
modulo 65536. From 40_step_and_addressing.md section 2; 92_eei_decisions.md D9, D10. -/
def Obligations.IndirectAddresses : Prop :=
  ∀ (s : State) (z : Byte) (a : Addr), ∃ ea ex ey,
    resolve (.indirect a) s = .ok ea ∧ resolve (.indirectX z) s = .ok ex ∧ resolve (.indirectY z) s = .ok ey ∧
    ea.toNat = (memRead s a).toNat + 256 * (memRead s (BitVec.ofNat 16 (a.toNat + 1))).toNat ∧
    ex.toNat = (memRead s (BitVec.ofNat 16 ((z.toNat + s.x.toNat) % 256))).toNat +
      256 * (memRead s (BitVec.ofNat 16 ((z.toNat + s.x.toNat) % 256 + 1))).toNat ∧
    ey.toNat = ((memRead s (BitVec.ofNat 16 z.toNat)).toNat +
      256 * (memRead s (BitVec.ofNat 16 (z.toNat + 1))).toNat + s.y.toNat) % 65536

/-- For every operand and state, Resolve raises AddressingError if the mode is implied, accumulator, immediate or
relative, and otherwise answers an address; indirect is a mode of JMP only. From 40_step_and_addressing.md section
2. -/
def Obligations.OnlyMemoryModesResolve : Prop :=
  (∀ (o : Operand) (s : State),
    (o.mode ∈ [.implied, .accumulator, .immediate, .relative] → resolve o s = .error .addressing) ∧
    (o.mode ∉ [.implied, .accumulator, .immediate, .relative] → ∃ ea, resolve o s = .ok ea)) ∧
  (∀ i : Instr, i.mode = .indirect → i.mnemonic = .jmp)

/-- For every form of LDA (ldaImmediate, ldaZeroPage, ldaZeroPageX, ldaAbsolute, ldaAbsoluteX, ldaAbsoluteY,
ldaIndirectX, ldaIndirectY), LDX (ldxImmediate, ldxZeroPage, ldxZeroPageY, ldxAbsolute, ldxAbsoluteY) and LDY
(ldyImmediate, ldyZeroPage, ldyZeroPageX, ldyAbsolute, ldyAbsoluteX), on every state, exec answers the state with
the register loaded and N, Z from the value; every other register, flag and byte is unchanged. That LDX and LDY
load X and Y as LDA loads A is general knowledge (log 12, D19). From 41_load_store_transfer.md, Loads;
92_eei_decisions.md D19. -/
def Obligations.LoadResults : Prop :=
  ∀ (i : Instr) (s : State),
    (i.mnemonic = .lda → ∃ v, getValue i.operand s = .ok v ∧ exec i s = .next
      { s with a := v, flags := { s.flags with n := v.getLsbD 7, z := v == 0 } }) ∧
    (i.mnemonic = .ldx → ∃ v, getValue i.operand s = .ok v ∧ exec i s = .next
      { s with x := v, flags := { s.flags with n := v.getLsbD 7, z := v == 0 } }) ∧
    (i.mnemonic = .ldy → ∃ v, getValue i.operand s = .ok v ∧ exec i s = .next
      { s with y := v, flags := { s.flags with n := v.getLsbD 7, z := v == 0 } })

/-- For every form of STA (staZeroPage, staZeroPageX, staAbsolute, staAbsoluteX, staAbsoluteY, staIndirectX,
staIndirectY), STX (stxZeroPage, stxZeroPageY, stxAbsolute) and STY (styZeroPage, styZeroPageX, styAbsolute), on
every state, exec answers a next state that differs only in Memory: the byte at the resolved address is the
register, every other byte reads as before. That STX and STY store X and Y as STA stores A is general knowledge
(log 12, D19). From 41_load_store_transfer.md, Stores; 92_eei_decisions.md D19. -/
def Obligations.StoreResults : Prop :=
  ∀ (i : Instr) (s : State) (v : Byte),
    (i.mnemonic = .sta ∧ v = s.a) ∨ (i.mnemonic = .stx ∧ v = s.x) ∨ (i.mnemonic = .sty ∧ v = s.y) →
    ∃ ea t, resolve i.operand s = .ok ea ∧ exec i s = .next t ∧ t = { s with mem := t.mem } ∧
      memRead t ea = v ∧ ∀ b : Addr, b ≠ ea → memRead t b = memRead s b

/-- On every state TAX, TAY, TXA, TYA, TSX move their register and set N, Z from it, and TXS moves X to SP and writes
no flag; nothing else changes. (taxImplied, tayImplied, txaImplied, tyaImplied, tsxImplied, txsImplied.) All six
meanings, and that TXS alone writes no flag, are general knowledge (log 12, D19). From 41_load_store_transfer.md,
Register transfers; 92_eei_decisions.md D19. -/
def Obligations.TransferResults : Prop :=
  ∀ s : State,
    exec .taxImplied s = .next { s with x := s.a, flags := { s.flags with n := s.a.getLsbD 7, z := s.a == 0 } } ∧
    exec .tayImplied s = .next { s with y := s.a, flags := { s.flags with n := s.a.getLsbD 7, z := s.a == 0 } } ∧
    exec .txaImplied s = .next { s with a := s.x, flags := { s.flags with n := s.x.getLsbD 7, z := s.x == 0 } } ∧
    exec .tyaImplied s = .next { s with a := s.y, flags := { s.flags with n := s.y.getLsbD 7, z := s.y == 0 } } ∧
    exec .tsxImplied s = .next { s with x := s.sp, flags := { s.flags with n := s.sp.getLsbD 7, z := s.sp == 0 } } ∧
    exec .txsImplied s = .next { s with sp := s.x }

/-- For every form of ADC (adcImmediate, adcZeroPage, adcZeroPageX, adcAbsolute, adcAbsoluteX, adcAbsoluteY,
adcIndirectX, adcIndirectY), on every state, with raw = A + operand + the carry (when ARITH_CARRY_IN, D6), exec
answers the state with A = raw mod 256, C = V = (raw > 255), N and Z from the stored byte, nothing else changed.
From 42_arithmetic_compare.md, Add and subtract; 92_eei_decisions.md D6. -/
def Obligations.AddWithCarryResult : Prop :=
  ∀ (i : Instr) (s : State), i.mnemonic = .adc → ∃ m, getValue i.operand s = .ok m ∧
    ∀ (raw : Nat) (r : Byte),
      raw = s.a.toNat + m.toNat + (if s.cfg.arithCarryIn then s.flags.c.toNat else 0) → r = BitVec.ofNat 8 raw →
      exec i s = .next { s with
        a := r
        flags := { s.flags with c := decide (255 < raw), v := decide (255 < raw), n := r.getLsbD 7, z := r == 0 } }

/-- For every form of SBC (sbcImmediate, sbcZeroPage, sbcZeroPageX, sbcAbsolute, sbcAbsoluteX, sbcAbsoluteY,
sbcIndirectX, sbcIndirectY), on every state where raw = A - operand - borrow (borrow is the complement of C when
ARITH_CARRY_IN, D6) is at least -127, exec answers the state with A = raw, or 0x80 + magnitude when raw is
negative; C = (raw >= 0), V by the operands' and result's signs, N and Z from the stored byte, nothing else
changed. From 42_arithmetic_compare.md, Add and subtract; 92_eei_decisions.md D5, D6. -/
def Obligations.SubtractWithCarryResult : Prop :=
  ∀ (i : Instr) (s : State), i.mnemonic = .sbc → ∃ m, getValue i.operand s = .ok m ∧
    ∀ (raw : Int) (r : Byte),
      raw = (s.a.toNat : Int) - m.toNat - (if s.cfg.arithCarryIn then 1 - (s.flags.c.toNat : Int) else 0) →
      -127 ≤ raw → r = BitVec.ofNat 8 (if 0 ≤ raw then raw.toNat else 128 + (-raw).toNat) →
      exec i s = .next { s with
        a := r
        flags := { s.flags with
          c := decide (0 ≤ raw)
          v := decide (s.a.getLsbD 7 = m.getLsbD 7 ∧ r.getLsbD 7 ≠ s.a.getLsbD 7)
          n := r.getLsbD 7
          z := r == 0 } }

/-- For every form of CMP (cmpImmediate, cmpZeroPage, cmpZeroPageX, cmpAbsolute, cmpAbsoluteX, cmpAbsoluteY,
cmpIndirectX, cmpIndirectY), CPX (cpxImmediate, cpxZeroPage, cpxAbsolute) and CPY (cpyImmediate, cpyZeroPage,
cpyAbsolute), with r the register compared and m the operand, whenever r - m is at least -127, exec answers the
state with C = (r >= m), Z = (r = m), N = bit 7 of the re-encoded difference, nothing else changed. From
42_arithmetic_compare.md, Compare; 92_eei_decisions.md D5. -/
def Obligations.CompareResults : Prop :=
  ∀ (i : Instr) (s : State) (r : Byte),
    (i.mnemonic = .cmp ∧ r = s.a) ∨ (i.mnemonic = .cpx ∧ r = s.x) ∨ (i.mnemonic = .cpy ∧ r = s.y) →
    ∃ m, getValue i.operand s = .ok m ∧
      (-127 ≤ (r.toNat : Int) - m.toNat → exec i s = .next { s with
        flags := { s.flags with
          c := decide (m.toNat ≤ r.toNat)
          z := decide (r = m)
          n := if m.toNat ≤ r.toNat then (BitVec.ofNat 8 (r.toNat - m.toNat)).getLsbD 7 else true } })

/-- For SBC, CMP, CPX and CPY in every mode: when the difference raw is at most -128, the instruction raises
ValueRangeError(raw) if NEG_BYTE_WIDE lists no byte for it (the default, D5); if it lists w, the instruction
completes with w as the re-encoded difference: SBC stores it and takes V, N, Z from it with C = 0, a compare takes
N from it with C = 0 and Z = 0. From 42_arithmetic_compare.md, Add and subtract, Compare; 00_scope.md section 6;
92_eei_decisions.md D5. -/
def Obligations.DifferenceBelowTheRange : Prop :=
  ∀ (i : Instr) (s : State) (r m : Byte) (raw : Int), getValue i.operand s = .ok m → raw ≤ -128 →
    (i.mnemonic = .sbc → r = s.a →
      raw = (r.toNat : Int) - m.toNat - (if s.cfg.arithCarryIn then 1 - (s.flags.c.toNat : Int) else 0) →
      (s.cfg.negByteWide.lookup (-raw).toNat = none → exec i s = .fault (.valueRange raw)) ∧
      (∀ w, s.cfg.negByteWide.lookup (-raw).toNat = some w → exec i s = .next { s with
        a := w
        flags := { s.flags with
          c := false
          v := decide (r.getLsbD 7 = m.getLsbD 7 ∧ w.getLsbD 7 ≠ r.getLsbD 7)
          n := w.getLsbD 7
          z := w == 0 } })) ∧
    ((i.mnemonic = .cmp ∧ r = s.a) ∨ (i.mnemonic = .cpx ∧ r = s.x) ∨ (i.mnemonic = .cpy ∧ r = s.y) →
      raw = (r.toNat : Int) - m.toNat →
      (s.cfg.negByteWide.lookup (-raw).toNat = none → exec i s = .fault (.valueRange raw)) ∧
      (∀ w, s.cfg.negByteWide.lookup (-raw).toNat = some w → exec i s = .next { s with
        flags := { s.flags with c := false, z := false, n := w.getLsbD 7 } }))

/-- For every form of INC (incZeroPage, incZeroPageX, incAbsolute, incAbsoluteX) and DEC (decZeroPage, decZeroPageX,
decAbsolute, decAbsoluteX), on every state, exec answers a next state that differs only in Memory and in N and Z:
the byte at the resolved address goes up or down by one modulo 256 (D32), every other byte reads as before. From
42_arithmetic_compare.md, Increment and decrement; 92_eei_decisions.md D32. -/
def Obligations.MemoryIncrementDecrementResults : Prop :=
  ∀ (i : Instr) (s : State), i.mnemonic = .inc ∨ i.mnemonic = .dec →
    ∃ ea t v, resolve i.operand s = .ok ea ∧ exec i s = .next t ∧
      v = (if i.mnemonic = .inc then BitVec.ofNat 8 ((memRead s ea).toNat + 1)
           else BitVec.ofNat 8 ((memRead s ea).toNat + 255)) ∧
      t = { s with mem := t.mem, flags := { s.flags with n := v.getLsbD 7, z := v == 0 } } ∧
      memRead t ea = v ∧ ∀ b : Addr, b ≠ ea → memRead t b = memRead s b

/-- On every state INX, INY add one and DEX, DEY take one from their register modulo 256 (D32) and set N, Z from the
new value; nothing else changes. (inxImplied, inyImplied, dexImplied, deyImplied.) From 42_arithmetic_compare.md,
Increment and decrement; 92_eei_decisions.md D32. -/
def Obligations.RegisterIncrementDecrementResults : Prop :=
  ∀ (s : State) (v : Byte),
    (v = BitVec.ofNat 8 (s.x.toNat + 1) → exec .inxImplied s =
      .next { s with x := v, flags := { s.flags with n := v.getLsbD 7, z := v == 0 } }) ∧
    (v = BitVec.ofNat 8 (s.y.toNat + 1) → exec .inyImplied s =
      .next { s with y := v, flags := { s.flags with n := v.getLsbD 7, z := v == 0 } }) ∧
    (v = BitVec.ofNat 8 (s.x.toNat + 255) → exec .dexImplied s =
      .next { s with x := v, flags := { s.flags with n := v.getLsbD 7, z := v == 0 } }) ∧
    (v = BitVec.ofNat 8 (s.y.toNat + 255) → exec .deyImplied s =
      .next { s with y := v, flags := { s.flags with n := v.getLsbD 7, z := v == 0 } })

/-- For every form of AND (andImmediate, andZeroPage, andZeroPageX, andAbsolute, andAbsoluteX, andAbsoluteY,
andIndirectX, andIndirectY), ORA and EOR (the same eight modes, ora... and eor...), on every state, exec answers
the state with A the bitwise and, or, exclusive or of A and the operand, N and Z from it, nothing else changed.
Which of the three is which bitwise operation is general knowledge (log 12, D19). From 43_logic_shift.md, Logical;
92_eei_decisions.md D19. -/
def Obligations.LogicalResults : Prop :=
  ∀ (i : Instr) (s : State), i.mnemonic ∈ [.and, .ora, .eor] →
    ∃ m r, getValue i.operand s = .ok m ∧
      (∀ k, k < 8 → r.getLsbD k =
        (if i.mnemonic = .and then s.a.getLsbD k && m.getLsbD k
         else if i.mnemonic = .ora then s.a.getLsbD k || m.getLsbD k
         else s.a.getLsbD k != m.getLsbD k)) ∧
      exec i s = .next { s with a := r, flags := { s.flags with n := r.getLsbD 7, z := r == 0 } }

/-- For both forms of BIT (bitZeroPage, bitAbsolute), on every state, exec answers the state with Z set when A and the
operand have no bit in common, N and V the operand's bits 7 and 6, nothing else changed. The whole rule is general
knowledge (log 12, D19). From 43_logic_shift.md, Logical; 92_eei_decisions.md D19. -/
def Obligations.BitTestResult : Prop :=
  ∀ (i : Instr) (s : State), i.mnemonic = .bit → ∃ ea m, resolve i.operand s = .ok ea ∧ m = memRead s ea ∧
    exec i s = .next { s with
      flags := { s.flags with z := decide (s.a &&& m = 0), n := m.getLsbD 7, v := m.getLsbD 6 } }

/-- For aslAccumulator, lsrAccumulator, rolAccumulator, rorAccumulator, on every state, exec answers the state with A
the shifted byte (rotates take the old carry in), C the bit shifted out, N and Z from the result; Memory and
everything else unchanged. The direction of each shift and the zero that ASL and LSR shift in are general
knowledge (log 12, G7). From 43_logic_shift.md, Shifts and rotates; 93_implementation_defined.md G7. -/
def Obligations.ShiftAccumulatorResults : Prop :=
  ∀ (i : Instr) (s : State), i.mnemonic ∈ [.asl, .lsr, .rol, .ror] → i.mode = .accumulator →
    ∃ r c, shiftResult i.mnemonic s.a s.flags.c = some (r, c) ∧
      exec i s = .next { s with a := r, flags := { s.flags with c := c, n := r.getLsbD 7, z := r == 0 } }

/-- For the zeroPage, zeroPageX, absolute and absoluteX forms of ASL, LSR, ROL, ROR (aslZeroPage to rorAbsoluteX), on
every state, exec answers a next state that differs only in Memory and in C, N, Z: the byte at the resolved
address is the shifted byte, every other byte reads as before, A is unchanged. The direction of each shift and the
zero that ASL and LSR shift in are general knowledge (log 12, G7). From 43_logic_shift.md, Shifts and rotates;
40_step_and_addressing.md section 1; 93_implementation_defined.md G7. -/
def Obligations.ShiftMemoryResults : Prop :=
  ∀ (i : Instr) (s : State), i.mnemonic ∈ [.asl, .lsr, .rol, .ror] → i.mode ≠ .accumulator →
    ∃ ea r c t, resolve i.operand s = .ok ea ∧ shiftResult i.mnemonic (memRead s ea) s.flags.c = some (r, c) ∧
      exec i s = .next t ∧
      t = { s with mem := t.mem, flags := { s.flags with c := c, n := r.getLsbD 7, z := r == 0 } } ∧
      memRead t ea = r ∧ ∀ b : Addr, b ≠ ea → memRead t b = memRead s b

/-- For BCC, BCS, BEQ, BNE, BMI, BPL, BVC, BVS (bccRelative, bcsRelative, beqRelative, bneRelative, bmiRelative,
bplRelative, bvcRelative, bvsRelative), on every state, exec answers the state with pc moved by the signed
magnitude of the operand modulo 65536 if the tested flag has the branch's polarity, and the state itself
otherwise; no flag is written. From 44_branch_jump.md, Conditional branches; 92_eei_decisions.md D10, D11, D31. -/
def Obligations.BranchResults : Prop :=
  ∀ (i : Instr) (s : State) (taken : Bool), branchCondition i.mnemonic s.flags = some taken →
    ∃ d, i.operand = .relative d ∧ exec i s = .next
      (if taken then { s with pc := BitVec.ofInt 16 ((s.pc.toNat : Int) + signMagnitude d) } else s)

/-- On every state jmpAbsolute a sets pc to a, and jmpIndirect a sets pc to the little-endian pointer stored at a and
a + 1 modulo 65536; nothing else changes. That JMP is this jump is general knowledge (log 12, D19); that the
second byte of the pointer is at a + 1 modulo 65536, without page wrap, is log 19 (D9, D10). From
44_branch_jump.md, Jumps, call, returns; 92_eei_decisions.md D9, D10, D19. -/
def Obligations.JumpResults : Prop :=
  ∀ (s : State) (a : Addr),
    exec (.jmpAbsolute a) s = .next { s with pc := a } ∧
    exec (.jmpIndirect a) s = .next { s with
      pc := BitVec.ofNat 16 ((memRead s a).toNat + 256 * (memRead s (a + 1)).toNat) }

/-- On every state jsrAbsolute a answers a next state with pc = a, SP two higher modulo 256, the cell at SP + 1 the
high byte and at SP + 2 the low byte of pc, every other Stack cell as before, registers and flags unchanged;
Memory is unchanged unless STACK_ALIASED, and then only the bytes of those two cells can change. From
44_branch_jump.md, Jumps, call, returns; 92_eei_decisions.md D2, D3, D12. -/
def Obligations.CallResult : Prop :=
  ∀ (s : State) (a : Addr), ∃ t, exec (.jsrAbsolute a) s = .next t ∧
    t = { s with pc := a, sp := s.sp + 2, mem := t.mem, stack := t.stack } ∧
    (stackRead t (s.sp + 1)).toNat = s.pc.toNat / 256 ∧ (stackRead t (s.sp + 2)).toNat = s.pc.toNat % 256 ∧
    (∀ j, j ≠ s.sp + 1 → j ≠ s.sp + 2 → stackRead t j = stackRead s j) ∧
    (s.cfg.stackAliased = false → t.mem = s.mem) ∧
    (s.cfg.stackAliased = true → t.stack = s.stack ∧
      ∀ b : Addr, b.toNat ≠ 256 + (s.sp + 1).toNat → b.toNat ≠ 256 + (s.sp + 2).toNat → memRead t b = memRead s b)

/-- On every state RTS (rtsImplied) sets pc to the two bytes pulled, low then high, with SP two lower modulo 256; RTI
(rtiImplied) pulls the status byte, assigning all seven flags and ignoring bit 5, then low and high, with SP three
lower (D13); the cells keep their bytes and nothing else changes. That nothing is added to the pulled address is
log 14 (D12) and the whole of RTI is log 15 (D13); the bit position of each flag is general knowledge (log 5, D4).
From 44_branch_jump.md, Jumps, call, returns; 92_eei_decisions.md D4, D12, D13. -/
def Obligations.ReturnResults : Prop :=
  ∀ s : State,
    exec .rtsImplied s = .next { s with
      sp := s.sp - 2
      pc := BitVec.ofNat 16 (256 * (stackRead s (s.sp - 1)).toNat + (stackRead s s.sp).toNat) } ∧
    exec .rtiImplied s = .next { s with
      sp := s.sp - 3
      pc := BitVec.ofNat 16 (256 * (stackRead s (s.sp - 2)).toNat + (stackRead s (s.sp - 1)).toNat)
      flags := {
        c := (stackRead s s.sp).getLsbD 0
        z := (stackRead s s.sp).getLsbD 1
        i := (stackRead s s.sp).getLsbD 2
        d := (stackRead s s.sp).getLsbD 3
        b := (stackRead s s.sp).getLsbD 4
        v := (stackRead s s.sp).getLsbD 6
        n := (stackRead s s.sp).getLsbD 7 } }

/-- On every state and target, JSR completes in a state t with pc the target, and RTS on t completes with the pc and
SP that JSR was given; A, X, Y and the flags are untouched throughout. From 44_branch_jump.md, Jumps, call,
returns; 95_test_vectors.md S7. -/
def Obligations.CallThenReturnComesBack : Prop :=
  ∀ (s : State) (a : Addr), ∃ t u, exec (.jsrAbsolute a) s = .next t ∧ t.pc = a ∧
    exec .rtsImplied t = .next u ∧ u.pc = s.pc ∧ u.sp = s.sp ∧
    u.a = s.a ∧ u.x = s.x ∧ u.y = s.y ∧ u.flags = s.flags

/-- On every state, with v = A for PHA (phaImplied) and v = the status byte for PHP (phpImplied: bits C, Z, I, D, B,
STATUS_BIT5, V, N from 0 to 7, D4), exec answers a next state with SP one higher modulo 256, the cell there v,
every other Stack cell as before, registers and flags unchanged; Memory is unchanged unless STACK_ALIASED, and
then only the byte of that cell can change. From 45_stack_flag_system.md, Stack instructions; 20_memory.md section
6; 92_eei_decisions.md D2, D3, D4. -/
def Obligations.PushInstructionResults : Prop :=
  ∀ (s : State) (i : Instr) (v : Byte),
    (i = .phaImplied ∧ v = s.a) ∨ (i = .phpImplied ∧
      v = BitVec.ofNat 8 (s.flags.c.toNat + 2 * s.flags.z.toNat + 4 * s.flags.i.toNat + 8 * s.flags.d.toNat +
        16 * s.flags.b.toNat + 32 * s.cfg.statusBit5.toNat + 64 * s.flags.v.toNat + 128 * s.flags.n.toNat)) →
    ∃ t, exec i s = .next t ∧ t = { s with sp := s.sp + 1, mem := t.mem, stack := t.stack } ∧
      stackRead t (s.sp + 1) = v ∧ (∀ j, j ≠ s.sp + 1 → stackRead t j = stackRead s j) ∧
      (s.cfg.stackAliased = false → t.mem = s.mem) ∧
      (s.cfg.stackAliased = true → t.stack = s.stack ∧
        ∀ b : Addr, b.toNat ≠ 256 + (s.sp + 1).toNat → memRead t b = memRead s b)

/-- On every state PLA (plaImplied) loads A from the cell at SP and sets N, Z from it; PLP (plpImplied) assigns all
seven flags from bits 0, 1, 2, 3, 4, 6, 7 of that cell, ignoring bit 5; SP is one lower modulo 256, the cell keeps
its byte, nothing else changes. The bit position of each flag is general knowledge (log 5, D4). From
45_stack_flag_system.md, Stack instructions; 10_state.md section 4; 92_eei_decisions.md D4. -/
def Obligations.PullInstructionResults : Prop :=
  ∀ s : State,
    exec .plaImplied s = .next { s with
      a := stackRead s s.sp
      sp := s.sp - 1
      flags := { s.flags with n := (stackRead s s.sp).getLsbD 7, z := stackRead s s.sp == 0 } } ∧
    exec .plpImplied s = .next { s with
      sp := s.sp - 1
      flags := {
        c := (stackRead s s.sp).getLsbD 0
        z := (stackRead s s.sp).getLsbD 1
        i := (stackRead s s.sp).getLsbD 2
        d := (stackRead s s.sp).getLsbD 3
        b := (stackRead s s.sp).getLsbD 4
        v := (stackRead s s.sp).getLsbD 6
        n := (stackRead s s.sp).getLsbD 7 } }

/-- On every state CLC, SEC, CLI, SEI, CLD, SED, CLV clear or set their one flag and change nothing else. (clcImplied,
secImplied, cliImplied, seiImplied, cldImplied, sedImplied, clvImplied.) All seven meanings are general knowledge
(log 12, D19). From 45_stack_flag_system.md, Flag instructions; 92_eei_decisions.md D19. -/
def Obligations.FlagInstructionResults : Prop :=
  ∀ s : State,
    exec .clcImplied s = .next { s with flags := { s.flags with c := false } } ∧
    exec .secImplied s = .next { s with flags := { s.flags with c := true } } ∧
    exec .cliImplied s = .next { s with flags := { s.flags with i := false } } ∧
    exec .seiImplied s = .next { s with flags := { s.flags with i := true } } ∧
    exec .cldImplied s = .next { s with flags := { s.flags with d := false } } ∧
    exec .sedImplied s = .next { s with flags := { s.flags with d := true } } ∧
    exec .clvImplied s = .next { s with flags := { s.flags with v := false } }

/-- exec of nopImplied and brkImplied answers the state as given. With the byte 0xEA at pc the whole step only moves
pc by one and counts; with the byte 0x00 it also sets B, reports the break signal, and pushes nothing, sets no
other flag and reads no vector (for the unbounded counter, D24; BRK as decided in D14). The bytes 0xEA and 0x00
are the standard opcode map (log 11, D18) and the meaning of NOP is general knowledge (log 12, D19). From
45_stack_flag_system.md, NOP and BRK; 40_step_and_addressing.md section 1; 92_eei_decisions.md D14, D18, D19, D24. -/
def Obligations.NopAndBreakSteps : Prop :=
  ∀ s : State,
    exec .nopImplied s = .next s ∧ exec .brkImplied s = .next s ∧
    (s.cfg.cycleWidth = none → memRead s s.pc = 0xEA →
      engineStep s = .ok { s with pc := s.pc + 1, cycles := s.cycles + 1 } false) ∧
    (s.cfg.cycleWidth = none → memRead s s.pc = 0x00 →
      engineStep s = .ok { s with pc := s.pc + 1, cycles := s.cycles + 1, flags := { s.flags with b := true } } true)

/-- For every state, after MemWrite of v at a, reading a gives v and reading any other address gives what it gave; no
other field of the state changes. Formalises R41. -/
def Obligations.MemoryReadsBackTheLastWrite : Prop :=
  ∀ (s : State) (a b : Addr) (v : Byte),
    memRead (memWrite s a v) b = (if b = a then v else memRead s b) ∧
    memWrite s a v = { s with mem := (memWrite s a v).mem }

/-- For every state, Pull returns the Stack cell at SP and a state that differs only in SP, which is one lower modulo
256; every cell keeps its byte, and nothing is raised whatever SP is. Formalises R47. -/
def Obligations.PullReadsThenDecrements : Prop :=
  ∀ s : State, (pull s).1 = stackRead s s.sp ∧
    (pull s).2 = { s with sp := BitVec.ofNat 8 (s.sp.toNat + 255) } ∧
    ∀ j, stackRead (pull s).2 j = stackRead s j

/-- For every state, Push of v gives SP one higher modulo 256, the cell there v, every other Stack cell as before, and
changes no other register or flag; Memory only when STACK_ALIASED (D2). From 20_memory.md section 6;
92_eei_decisions.md D2, D3. -/
def Obligations.PushIncrementsThenWrites : Prop :=
  ∀ (s : State) (v : Byte),
    push v s = { s with sp := BitVec.ofNat 8 (s.sp.toNat + 1), mem := (push v s).mem, stack := (push v s).stack } ∧
    (∀ j, stackRead (push v s) j = if j = s.sp + 1 then v else stackRead s j) ∧
    (s.cfg.stackAliased = false → (push v s).mem = s.mem)

/-- For every state and every list of at most 256 bytes, pushing the bytes in order and then pulling as many returns
them in reverse order and leaves SP at its original value, across any wrap. From 20_memory.md section 6;
95_test_vectors.md S5. -/
def Obligations.StackDisciplineHolds : Prop :=
  ∀ (vs : List Byte) (s : State), vs.length ≤ 256 →
    (pullMany vs.length (pushAll vs s)).1 = vs.reverse ∧ (pullMany vs.length (pushAll vs s)).2.sp = s.sp

/-- For every parameter set and all 128 flag combinations, ByteToFlags of FlagsToByte gives the flags back, bit 5 of
the byte is STATUS_BIT5, and ByteToFlags ignores bit 5 (positions from general knowledge, log 5). From 10_state.md
section 4; 92_eei_decisions.md D4. -/
def Obligations.StatusByteRoundTrip : Prop :=
  (∀ (cfg : Config) (f : Flags), byteToFlags (flagsToByte cfg f) = f ∧
    (flagsToByte cfg f).getLsbD 5 = cfg.statusBit5) ∧
  (∀ p : Byte, byteToFlags (p ||| 0x20) = byteToFlags (p &&& 0xDF))

/-- ByteInc(b) has value (b + 1) mod 256 and overflow exactly when b is 255; ByteAnd, ByteOr, ByteXor are the bitwise
operations, and the sign test of a Byte is its bit 7. Formalises R3, R8. -/
def Obligations.IncrementAndBitwiseValues : Prop :=
  ∀ (a b : Byte) (k : Nat),
    (byteInc b).value.toNat = (b.toNat + 1) % 256 ∧ ((byteInc b).overflow = true ↔ b.toNat = 255) ∧
    (byteAnd a b).getLsbD k = (a.getLsbD k && b.getLsbD k) ∧
    (byteOr a b).getLsbD k = (a.getLsbD k || b.getLsbD k) ∧
    (byteXor a b).getLsbD k = (a.getLsbD k != b.getLsbD k) ∧
    (b.getLsbD 7 = true ↔ 128 ≤ b.toNat)

/-- ByteAdd has the raw sum, its value modulo 256 and overflow above 255; ByteDec wraps; ByteSub with raw = a - b -
bin gives raw itself when it is not negative, 0x80 + magnitude down to -127, and below that the byte of
NEG_BYTE_WIDE or ValueRangeError(raw) (D5), with overflow exactly when raw is negative. From 00_scope.md section
6; 92_eei_decisions.md D5, D6, D32. -/
def Obligations.SumsAndDifferences : Prop :=
  ∀ (cfg : Config) (a b : Byte) (k : Bool),
    ((byteAdd a b k).raw = a.toNat + b.toNat + k.toNat ∧
      (byteAdd a b k).value.toNat = (a.toNat + b.toNat + k.toNat) % 256 ∧
      ((byteAdd a b k).overflow = true ↔ 255 < a.toNat + b.toNat + k.toNat)) ∧
    ((byteDec b).value.toNat = (b.toNat + 255) % 256 ∧ ((byteDec b).overflow = true ↔ b.toNat = 0)) ∧
    ∀ raw : Int, raw = (a.toNat : Int) - b.toNat - k.toNat →
      (0 ≤ raw → ∃ d, byteSub cfg a b k = .ok d ∧ d.raw = raw ∧ (d.value.toNat : Int) = raw ∧ d.overflow = false) ∧
      (-127 ≤ raw → raw < 0 →
        ∃ d, byteSub cfg a b k = .ok d ∧ d.raw = raw ∧ (d.value.toNat : Int) = 128 - raw ∧ d.overflow = true) ∧
      (raw ≤ -128 →
        (cfg.negByteWide.lookup (-raw).toNat = none → byteSub cfg a b k = .error (.valueRange raw)) ∧
        (∀ w, cfg.negByteWide.lookup (-raw).toNat = some w → byteSub cfg a b k = .ok ⟨raw, w, true⟩))

/-- For both radices and each of the eight branches, on a line that starts at offset start and has a label as operand:
with disp the label's offset minus (start + 2), if disp is outside -127 to 127 emitLine raises
ValueRangeError(disp); else it emits two bytes that decode to that branch, and a step from a state with them in
Memory at pc = origin + start and with the tested flag in the branch's polarity changes only pc, to origin + the
label's offset modulo 65536, and cycles. In radix 10 a token has up to three digits, the model's choice (log 9);
the range and the error are D27, disp as the integer it records is log 28, the sign and magnitude displacement D11
(log 33), seven of the conditions general knowledge (log 12, D31). From 50_assembler.md sections 6 and 7;
44_branch_jump.md, Conditional branches; 00_scope.md section 6; 92_eei_decisions.md D10, D11, D27, D31. -/
def Obligations.AssembledBranchReachesItsLabel : Prop :=
  ∀ (radix : RelRadix) (origin : Addr) (starts : List Nat) (start k line : Nat) (text : Text) (m : Mnemonic) (disp : Int),
    findMnemonic text = some m → m.modes = [.relative] → disp = (labelOffset starts k : Int) - (start + 2) →
    (disp < -127 ∨ 127 < disp →
      emitLine radix origin starts start ⟨line, text, .label k⟩ = .error (.valueRange disp)) ∧
    (-127 ≤ disp → disp ≤ 127 → ∃ opc b i,
      emitLine radix origin starts start ⟨line, text, .label k⟩ = .ok [opc, b] ∧
      decode [opc, b] = .ok (i, []) ∧ i.mnemonic = m ∧
      ∀ s : State, s.pc = BitVec.ofNat 16 (origin.toNat + start) →
        memRead s s.pc = opc → memRead s (s.pc + 1) = b → branchCondition m s.flags = some true →
        ∃ t, step s = .next t ∧
          t = { s with pc := BitVec.ofNat 16 (origin.toNat + labelOffset starts k), cycles := t.cycles })

/-- After reset A, X, Y, SP, pc, all flags, cycles and every Stack cell are zero, run, speedMs and the parameters are
kept (D33), and every Memory byte reads as before (D16); with STACK_ALIASED the bytes of 0x0100 to 0x01FF, which
are the Stack (D2), read 0x00. From 10_state.md section 8; 70_reset_and_hazards.md section 1; 92_eei_decisions.md
D2, D16, D33. -/
def Obligations.HostResetResult : Prop :=
  ∀ (s t : State), hostMove .reset s = some t →
    t.a = 0 ∧ t.x = 0 ∧ t.y = 0 ∧ t.sp = 0 ∧ t.pc = 0 ∧ t.cycles = 0 ∧
    t.flags = ⟨false, false, false, false, false, false, false⟩ ∧ (∀ j, stackRead t j = 0) ∧
    t.run = s.run ∧ t.speedMs = s.speedMs ∧ t.cfg = s.cfg ∧
    ∀ b : Addr, memRead t b =
      if s.cfg.stackAliased = true ∧ 256 ≤ b.toNat ∧ b.toNat < 512 then 0 else memRead s b

/-- start has a move from Idle and Paused only, to Running with its interval stored (D33); pause acts only when
Running, unpause only when Paused, stop always goes to Idle; no other field changes. From
40_step_and_addressing.md section 3; 92_eei_decisions.md D33. -/
def Obligations.RunControlMoves : Prop :=
  ∀ (s : State) (ms : Nat),
    (s.run ≠ .running → hostMove (.start ms) s = some { s with run := .running, speedMs := ms }) ∧
    (s.run = .running → hostMove (.start ms) s = none) ∧
    hostMove .pause s = some { s with run := if s.run = .running then .paused else s.run } ∧
    hostMove .unpause s = some { s with run := if s.run = .paused then .running else s.run } ∧
    hostMove .stop s = some { s with run := .idle }

/-- If a tick crashes, the loop was Running and is now Idle, the flags (B among them) and cycles are as before the
tick, and registers, Memory and Stack are unchanged but for pc. From 40_step_and_addressing.md section 3;
60_exceptions.md section 1. -/
def Obligations.CrashedTickIsNotAHalt : Prop :=
  ∀ (s t : State) (f : Fault), tick s = .crashed f t →
    s.run = .running ∧ t = { s with run := .idle, pc := t.pc }

/-- Whatever the number of ticks, if a run of the loop ends by a BRK step then B is 1 and the loop is Idle in its
final state; with LOOP_STOP_ON_FLAG, a Running loop that finds B = 1 stops at the first tick, changing only the
run control. From 70_reset_and_hazards.md section 5; 40_step_and_addressing.md section 3. -/
def Obligations.HaltedRunEndsWithBreak : Prop :=
  ∀ (n : Nat) (s t : State),
    (runLoop n s = .halted t → t.flags.b = true ∧ t.run = .idle) ∧
    (s.run = .running → s.cfg.loopStopOnFlag = true → s.flags.b = true →
      runLoop (n + 1) s = .stopped { s with run := .idle })

/-- For every source text, inserting between two of its lines a line that is empty once its comment and surrounding
whitespace are removed leaves the outcome of assemble the same: the same bytes, or an error that differs at most
in its line number. What counts as whitespace (space, tab, carriage return) is D25 (log 26). From 50_assembler.md
sections 2 and 7; 95_test_vectors.md S8; 92_eei_decisions.md D25. -/
def Obligations.BlankLinesChangeNothing : Prop :=
  ∀ (radix : RelRadix) (origin : Addr) (before blank after : Text), '\n' ∉ blank → cleanLine blank = [] →
    (assembleText radix (before ++ '\n' :: (blank ++ '\n' :: after)) origin).mapError AsmError.withoutLine =
      (assembleText radix (before ++ '\n' :: after) origin).mapError AsmError.withoutLine

/-- For every list of substituted lines, if pass 2 sizes them and pass 3 emits them, the number of bytes is the total
offset that pass 2 ended with. From 50_assembler.md sections 5 and 6. -/
def Obligations.EmittedLengthIsTheSizedLength : Prop :=
  ∀ (radix : RelRadix) (origin : Addr) (lines : List AsmLine) (starts : List Nat) (bytes : List Byte),
    sizeLines radix 0 lines = .ok starts → emitLines radix origin starts starts lines = .ok bytes →
    starts.getLast? = some bytes.length

/-- For every mnemonic with an absolute mode, on a line whose operand is a label: if origin + the label's offset is at
most 0xFFFF, emitLine emits the encoding of the instruction of that mnemonic in absolute mode whose operand is
that address; otherwise it raises ValueRangeError (D28) with that number, which is the model's reading of the
integer recorded (log 28). From 50_assembler.md sections 6 and 7; 30_encoding.md section 2; 92_eei_decisions.md
D28. -/
def Obligations.AssembledLabelOperandIsItsAddress : Prop :=
  ∀ (radix : RelRadix) (origin : Addr) (starts : List Nat) (start k line : Nat) (text : Text) (m : Mnemonic)
    (address : Nat),
    findMnemonic text = some m → .absolute ∈ m.modes → address = origin.toNat + labelOffset starts k →
    (address ≤ 65535 → ∃ (i : Instr) (a : Addr),
      emitLine radix origin starts start ⟨line, text, .label k⟩ = .ok (encode i) ∧
      i.mnemonic = m ∧ i.operand = .absolute a ∧ a.toNat = address) ∧
    (65535 < address →
      emitLine radix origin starts start ⟨line, text, .label k⟩ = .error (.valueRange address))

/-- For every source and origin with assemble answering bytes, when the bytes lie in Memory from the origin on: if
instruction line j has one of the eight branches and as operand the name of a label declared (last) before
instruction line k, then a step from pc = origin + start of line j with the tested flag in the branch's polarity
completes with pc = origin + start of line k, or the end of the program for a label after the last line, modulo
65536 (D10). In radix 10 a token has up to three digits, the model's choice (log 9); the displacement is D11 (log
33) and D27, seven of the conditions are general knowledge (log 12, D31). From 50_assembler.md sections 3 to 7;
44_branch_jump.md, Conditional branches; 70_reset_and_hazards.md section 2; 92_eei_decisions.md D10, D11, D27,
D31. -/
def Obligations.ProgramBranchReachesItsLabel : Prop :=
  ∀ (radix : RelRadix) (source : Text) (origin : Addr) (bytes : List Byte) (c : Collected) (lines : List AsmLine)
    (starts : List Nat) (j k : Nat) (l : SourceLine) (m : Mnemonic) (s : State),
    assembleText radix source origin = .ok bytes → collect 1 ⟨[], [], []⟩ (splitLines source) = .ok c →
    substituteAll c c.lines = .ok lines → sizeLines radix 0 lines = .ok starts →
    c.lines[j]? = some l → findMnemonic l.mnemonic = some m → m.modes = [.relative] →
    asReference l.operand = some (.bare, l.operand) → c.labels.lookup l.operand = some k →
    s.pc = BitVec.ofNat 16 (origin.toNat + labelOffset starts j) →
    (∀ n b, bytes[n]? = some b → memRead s (BitVec.ofNat 16 (origin.toNat + n)) = b) →
    branchCondition m s.flags = some true →
    ∃ t, step s = .next t ∧ t.pc = BitVec.ofNat 16 (origin.toNat + labelOffset starts k)
end

