-- ==== Sys2Proof/Laws/Assembler.lean ====
section
/-! SUPPORT. Laws of the assembler's stages (spec 50): how lines split and how pass 1 walks them, what the texts of
addresses and distances read back as, and what stands in their errors. -/

namespace Sys2Proof.Machine

/-- R211: a source text has at least one line. -/
theorem splitLines_ne_nil (t : Text) : splitLines t ≠ [] := by
  cases t with
  | nil => simp [splitLines]
  | cons c t =>
    simp only [splitLines]
    split
    · simp
    · split <;> simp

/-- R211: a newline separates the lines before it from the lines after it. -/
theorem splitLines_append (l r : Text) : splitLines (l ++ '\n' :: r) = splitLines l ++ splitLines r := by
  induction l with
  | nil => rfl
  | cons c l ih =>
    by_cases h : c = '\n'
    · simp [splitLines, h, ih]
    · simp only [List.cons_append, splitLines, h, if_false, ih]
      cases hs : splitLines l with
      | nil => exact absurd hs (splitLines_ne_nil l)
      | cons x xs => simp

theorem splitLines_single {l : Text} (h : '\n' ∉ l) : splitLines l = [l] := by
  induction l with
  | nil => rfl
  | cons c l ih =>
    simp only [List.mem_cons, not_or] at h
    simp [splitLines, Ne.symm h.1, ih h.2]

/-- R211: nothing is left of a blank line. -/
theorem classifyLine_blank {l : Text} (h : cleanLine l = []) : classifyLine l = .blank := by
  simp [classifyLine, h]

/-- R214: pass 1 walks the lines in order. -/
theorem collect_append (xs ys : List Text) (n : Nat) (c : Collected) :
    collect n c (xs ++ ys) =
      match collect n c xs with
      | .ok d => collect (n + xs.length) d ys
      | .error e => .error e := by
  induction xs generalizing n c with
  | nil => simp [collect]
  | cons x xs ih =>
    simp only [List.cons_append, collect]
    cases classifyLine x <;> simp [ih, Nat.add_assoc, Nat.add_comm 1]

/-- R229, R230: a relative token's digits read back as the magnitude they were made from, in both radices. -/
theorem parseOperand_relative (radix : RelRadix) (k : Fin 128) :
    parseOperand radix ('*' :: '+' :: toDigits (radixBase radix) (relTokenDigits radix) k) = some (.relative, (k : Int)) ∧
      parseOperand radix ('*' :: '-' :: toDigits (radixBase radix) (relTokenDigits radix) k) =
        some (.relative, -(k : Int)) := by
  have all : ∀ r ∈ [RelRadix.decimal, .hexadecimal], ∀ k : Fin 128,
      parseOperand r ('*' :: '+' :: toDigits (radixBase r) (relTokenDigits r) k.val) = some (.relative, (k.val : Int)) ∧
        parseOperand r ('*' :: '-' :: toDigits (radixBase r) (relTokenDigits r) k.val) =
          some (.relative, -(k.val : Int)) := by
    decide +kernel
  exact all radix (by cases radix <;> simp) k

/-- R231: the displacement byte of an integer that has one stands for that integer. -/
theorem displacementByte_fits {n : Int} (h : -127 ≤ n ∧ n ≤ 127) :
    ∃ b, displacementByte n = .ok b ∧ signMagnitude b = n := by
  have all : ∀ k : Fin 255, (displacementByte ((k.val : Int) - 127)).toOption.map signMagnitude =
      some ((k.val : Int) - 127) := by
    decide +kernel
  have hk := all ⟨(n + 127).toNat, by omega⟩
  rw [show (((n + 127).toNat : Nat) : Int) - 127 = n by omega] at hk
  cases hb : displacementByte n with
  | error e => simp [hb, Except.toOption] at hk
  | ok b => exact ⟨b, rfl, by simpa [hb, Except.toOption] using hk⟩

/-- R231: any other integer has none, and is what the error records (R253). -/
theorem displacementByte_far {n : Int} (h : n < -127 ∨ 127 < n) : displacementByte n = .error (.valueRange n) := by
  rw [displacementByte, if_pos (by omega)]

/-- R229, R230: the token of a distance within reach reads back as that distance. -/
theorem relativeToken_fits (radix : RelRadix) {next offset : Nat}
    (h : -127 ≤ (offset : Int) - next ∧ (offset : Int) - next ≤ 127) :
    ∃ t, relativeToken radix next offset = .ok t ∧ parseOperand radix t = some (.relative, (offset : Int) - next) := by
  by_cases h0 : 0 ≤ (offset : Int) - next
  · have hp := (parseOperand_relative radix ⟨((offset : Int) - next).toNat, by omega⟩).1
    rw [show ((((offset : Int) - next).toNat : Nat) : Int) = (offset : Int) - next by omega] at hp
    exact ⟨_, by simp only [relativeToken]; rw [if_pos ⟨h0, h.2⟩], hp⟩
  · have hp := (parseOperand_relative radix ⟨(-((offset : Int) - next)).toNat, by omega⟩).2
    rw [show -(((-((offset : Int) - next)).toNat : Nat) : Int) = (offset : Int) - next by omega] at hp
    exact ⟨_, by simp only [relativeToken]; rw [if_neg (by omega), if_pos (by omega)], hp⟩

/-- R229: a distance out of reach has no token, and is what the error records (R253). -/
theorem relativeToken_far (radix : RelRadix) {next offset : Nat}
    (h : (offset : Int) - next < -127 ∨ 127 < (offset : Int) - next) :
    relativeToken radix next offset = .error (.valueRange ((offset : Int) - next)) := by
  simp only [relativeToken]
  rw [if_neg (by omega), if_neg (by omega)]

/-- R216: what a digit stands for, read back. -/
theorem digitValue_digitChar : ∀ d, d < 16 → digitValue (digitChar d) = some d := by decide

/-- R230: four hexadecimal digits behind `$` are an absolute operand, and stand for their number. -/
theorem parseOperand_absolute (radix : RelRadix) {n : Nat} (h : n < 65536) :
    parseOperand radix ('$' :: toDigits 16 4 n) = some (.absolute, (n : Int)) := by
  have value (k : Nat) : digitValue (digitChar (k % 16)) = some (k % 16) :=
    digitValue_digitChar _ (Nat.mod_lt _ (by decide))
  have hex (k : Nat) : isHexDigit (digitChar (k % 16)) = true := by
    simpa [isHexDigit, isDigitOf, value] using Nat.mod_lt k (by decide)
  simp [parseOperand, spanHex, toDigits, hex, digitsValue, value]
  omega

/-- R227, R230: the text of a label's address reads back as that address. -/
theorem absoluteToken_fits (radix : RelRadix) {origin : Addr} {offset : Nat} (h : origin.toNat + offset ≤ 65535) :
    ∃ t, absoluteToken origin offset = .ok t ∧
      parseOperand radix t = some (.absolute, ((origin.toNat + offset : Nat) : Int)) :=
  ⟨_, by simp only [absoluteToken]; rw [if_pos h], parseOperand_absolute radix (by omega)⟩

/-- R228: an address above 0xFFFF has no text, and is what the error records (R253). -/
theorem absoluteToken_far {origin : Addr} {offset : Nat} (h : 65535 < origin.toNat + offset) :
    absoluteToken origin offset = .error (.valueRange (origin.toNat + offset : Nat)) := by
  simp only [absoluteToken]
  rw [if_neg (by omega)]

/-- R221, R231: the operand bytes are as many as the mode's operand length. -/
theorem operandBytes_length {mode : Mode} {n : Int} {bs : List Byte} (h : operandBytes mode n = .ok bs) :
    bs.length = operandLength mode := by
  cases mode <;> simp [operandBytes] at h <;> try (subst h; rfl)
  split at h
  · cases h; rfl
  · cases h

end Sys2Proof.Machine
end

