-- ==== Sys2Proof/Laws/Encoding.lean ====
section
/-! SUPPORT. Laws of the encoding (spec 30): words and bytes, and that each constructor's pair is in the opcode map. -/

namespace Sys2Proof

/-- R2, R42: an Address is its high and its low byte. -/
@[simp] theorem mkAddr_hiByte_loByte (a : Addr) : mkAddr (hiByte a) (loByte a) = a := by
  apply BitVec.eq_of_getLsbD_eq
  intro k hk
  simp only [mkAddr, hiByte, loByte, BitVec.getLsbD_append, BitVec.getLsbD_setWidth, BitVec.getLsbD_ushiftRight]
  by_cases h : k < 8
  · simp [h]
  · have : k - 8 < 8 := by omega
    simp [h, this, show 8 + (k - 8) = k by omega]

@[simp] theorem loByte_mkAddr (hi lo : Byte) : loByte (mkAddr hi lo) = lo := by
  apply BitVec.eq_of_getLsbD_eq
  intro k hk
  simp only [loByte, mkAddr, BitVec.getLsbD_append, BitVec.getLsbD_setWidth]
  simp [hk]

@[simp] theorem hiByte_mkAddr (hi lo : Byte) : hiByte (mkAddr hi lo) = hi := by
  apply BitVec.eq_of_getLsbD_eq
  intro k hk
  simp only [hiByte, mkAddr, BitVec.getLsbD_append, BitVec.getLsbD_setWidth, BitVec.getLsbD_ushiftRight]
  simp [hk]

/-- `hi:lo` is `hi * 256 + lo` (spec 00 section 5). -/
theorem mkAddr_toNat (hi lo : Byte) : (mkAddr hi lo).toNat = hi.toNat * 256 + lo.toNat := by
  rw [mkAddr, BitVec.toNat_append, Nat.shiftLeft_eq, Nat.mul_comm, ← Nat.two_pow_add_eq_or_of_lt lo.isLt, Nat.mul_comm]

@[simp] theorem zext16_toNat (b : Byte) : (zext16 b).toNat = b.toNat := by
  simp [zext16]
  omega

/-- R62, R67, R68: every instruction is well formed. -/
theorem Instr.wf_all (i : Instr) : i.wf = true := by
  cases i <;> rfl

/-- R68: the pair of each constructor is legal. -/
theorem Instr.mode_legal (i : Instr) : i.mode ∈ i.mnemonic.modes := by
  have h := i.wf_all
  simp only [Instr.wf, Instruction.wf, Bool.and_eq_true] at h
  exact List.contains_iff_mem.1 h.1

/-- R62: opcode and operand bytes are all there is. -/
theorem encode_length (i : Instr) : (encode i).length = i.length := by
  cases i <;> rfl

/-- R60, R63: an instruction in absolute mode is its opcode byte, then its address low byte first. -/
theorem encode_absolute (i : Instr) (h : i.mode = .absolute) :
    ∃ opc a, i.operand = .absolute a ∧ encode i = [opc, loByte a, hiByte a] := by
  cases i <;> first | exact ⟨_, _, rfl, rfl⟩ | cases h

/-- R65: decoding the opcode byte of a Command gives it back. -/
theorem decodeCommand_encodeCommand : ∀ (m : Mnemonic) (mode : Mode) (opc : Byte),
    encodeCommand m mode = some opc → decodeCommand opc = some (m, mode) := by
  have key : ∀ m : Mnemonic, ∀ e ∈ opcodesOf m, decodeCommand e.2 = some (m, e.1) := by
    intro m
    cases m <;> decide
  intro m mode opc h
  have mem : (mode, opc) ∈ opcodesOf m := by
    revert h
    unfold encodeCommand
    generalize opcodesOf m = l
    induction l with
    | nil => simp
    | cons e rest ih =>
      intro h
      rw [List.lookup_cons] at h
      by_cases he : mode = e.1
      · simp [he] at h
        simp [he, ← h]
      · rw [beq_eq_false_iff_ne.2 he] at h
        exact List.mem_cons_of_mem _ (ih h)
  exact key m _ mem

/-- R60, R81: decoding with enough bytes for every format is a matter of the opcode byte alone. -/
theorem decode_three (opc b0 b1 : Byte) : decode [opc, b0, b1] =
    match decodeOpcode opc with
    | none => .error (.invalidOpcode opc)
    | some (.f1 i) => .ok (i, [b0, b1])
    | some (.f2 mk) => .ok (mk b0, [b1])
    | some (.f3 mk) => .ok (mk (mkAddr b1 b0), []) := by
  simp only [decode]
  cases decodeOpcode opc with
  | none => rfl
  | some sh => cases sh <;> rfl

end Sys2Proof
end

