-- ==== Sys2Proof/Laws/State.lean ====
section
/-! SUPPORT. What each named update does to each field, so that no later proof unfolds a record update. -/

namespace Sys2Proof.Machine

variable (s : State)

/-! memWrite -/

@[simp] theorem memWrite_a (a : Addr) (v : Byte) : ((memWrite s a v)).a = s.a := rfl
@[simp] theorem memWrite_x (a : Addr) (v : Byte) : ((memWrite s a v)).x = s.x := rfl
@[simp] theorem memWrite_y (a : Addr) (v : Byte) : ((memWrite s a v)).y = s.y := rfl
@[simp] theorem memWrite_sp (a : Addr) (v : Byte) : ((memWrite s a v)).sp = s.sp := rfl
@[simp] theorem memWrite_pc (a : Addr) (v : Byte) : ((memWrite s a v)).pc = s.pc := rfl
@[simp] theorem memWrite_flags (a : Addr) (v : Byte) : ((memWrite s a v)).flags = s.flags := rfl
@[simp] theorem memWrite_stack (a : Addr) (v : Byte) : ((memWrite s a v)).stack = s.stack := rfl
@[simp] theorem memWrite_cycles (a : Addr) (v : Byte) : ((memWrite s a v)).cycles = s.cycles := rfl
@[simp] theorem memWrite_run (a : Addr) (v : Byte) : ((memWrite s a v)).run = s.run := rfl
@[simp] theorem memWrite_speedMs (a : Addr) (v : Byte) : ((memWrite s a v)).speedMs = s.speedMs := rfl
@[simp] theorem memWrite_cfg (a : Addr) (v : Byte) : ((memWrite s a v)).cfg = s.cfg := rfl
@[simp] theorem memWrite_mem (a : Addr) (v : Byte) : (memWrite s a v).mem = cellWrite s.mem a.toNat v := rfl

/-! stackWrite -/

@[simp] theorem stackWrite_a (i v : Byte) : (stackWrite s i v).a = s.a := by unfold stackWrite; split <;> rfl
@[simp] theorem stackWrite_x (i v : Byte) : (stackWrite s i v).x = s.x := by unfold stackWrite; split <;> rfl
@[simp] theorem stackWrite_y (i v : Byte) : (stackWrite s i v).y = s.y := by unfold stackWrite; split <;> rfl
@[simp] theorem stackWrite_sp (i v : Byte) : (stackWrite s i v).sp = s.sp := by unfold stackWrite; split <;> rfl
@[simp] theorem stackWrite_pc (i v : Byte) : (stackWrite s i v).pc = s.pc := by unfold stackWrite; split <;> rfl
@[simp] theorem stackWrite_flags (i v : Byte) : (stackWrite s i v).flags = s.flags := by unfold stackWrite; split <;> rfl
@[simp] theorem stackWrite_cycles (i v : Byte) : (stackWrite s i v).cycles = s.cycles := by unfold stackWrite; split <;> rfl
@[simp] theorem stackWrite_run (i v : Byte) : (stackWrite s i v).run = s.run := by unfold stackWrite; split <;> rfl
@[simp] theorem stackWrite_speedMs (i v : Byte) : (stackWrite s i v).speedMs = s.speedMs := by unfold stackWrite; split <;> rfl
@[simp] theorem stackWrite_cfg (i v : Byte) : (stackWrite s i v).cfg = s.cfg := by unfold stackWrite; split <;> rfl
theorem stackWrite_mem (i v : Byte) : (stackWrite s i v).mem =
    if s.cfg.stackAliased then cellWrite s.mem (stackPage i) v else s.mem := by unfold stackWrite; split <;> rfl
theorem stackWrite_stack (i v : Byte) : (stackWrite s i v).stack =
    if s.cfg.stackAliased then s.stack else cellWrite s.stack i.toNat v := by unfold stackWrite; split <;> rfl

/-! push -/

@[simp] theorem push_a (v : Byte) : (push v s).a = s.a := by simp [push]
@[simp] theorem push_x (v : Byte) : (push v s).x = s.x := by simp [push]
@[simp] theorem push_y (v : Byte) : (push v s).y = s.y := by simp [push]
@[simp] theorem push_pc (v : Byte) : (push v s).pc = s.pc := by simp [push]
@[simp] theorem push_flags (v : Byte) : (push v s).flags = s.flags := by simp [push]
@[simp] theorem push_cycles (v : Byte) : (push v s).cycles = s.cycles := by simp [push]
@[simp] theorem push_run (v : Byte) : (push v s).run = s.run := by simp [push]
@[simp] theorem push_speedMs (v : Byte) : (push v s).speedMs = s.speedMs := by simp [push]
@[simp] theorem push_cfg (v : Byte) : (push v s).cfg = s.cfg := by simp [push]
@[simp] theorem push_sp (v : Byte) : (push v s).sp = s.sp + 1 := by simp [push, byteInc]
theorem push_mem (v : Byte) : (push v s).mem =
    if s.cfg.stackAliased then cellWrite s.mem (stackPage (s.sp + 1)) v else s.mem := by
  simp [push, stackWrite_mem, byteInc]
theorem push_stack (v : Byte) : (push v s).stack =
    if s.cfg.stackAliased then s.stack else cellWrite s.stack (s.sp + 1).toNat v := by
  simp [push, stackWrite_stack, byteInc]

/-! pull -/

@[simp] theorem pull_a : ((pull s).2).a = s.a := rfl
@[simp] theorem pull_x : ((pull s).2).x = s.x := rfl
@[simp] theorem pull_y : ((pull s).2).y = s.y := rfl
@[simp] theorem pull_pc : ((pull s).2).pc = s.pc := rfl
@[simp] theorem pull_flags : ((pull s).2).flags = s.flags := rfl
@[simp] theorem pull_mem : ((pull s).2).mem = s.mem := rfl
@[simp] theorem pull_stack : ((pull s).2).stack = s.stack := rfl
@[simp] theorem pull_cycles : ((pull s).2).cycles = s.cycles := rfl
@[simp] theorem pull_run : ((pull s).2).run = s.run := rfl
@[simp] theorem pull_speedMs : ((pull s).2).speedMs = s.speedMs := rfl
@[simp] theorem pull_cfg : ((pull s).2).cfg = s.cfg := rfl
@[simp] theorem pull_sp : (pull s).2.sp = s.sp - 1 := rfl
@[simp] theorem pull_value : (pull s).1 = stackRead s s.sp := rfl

/-! advance -/

@[simp] theorem advance_a (i : Instr) : (advance i s).a = s.a := rfl
@[simp] theorem advance_x (i : Instr) : (advance i s).x = s.x := rfl
@[simp] theorem advance_y (i : Instr) : (advance i s).y = s.y := rfl
@[simp] theorem advance_sp (i : Instr) : (advance i s).sp = s.sp := rfl
@[simp] theorem advance_flags (i : Instr) : (advance i s).flags = s.flags := rfl
@[simp] theorem advance_mem (i : Instr) : (advance i s).mem = s.mem := rfl
@[simp] theorem advance_stack (i : Instr) : (advance i s).stack = s.stack := rfl
@[simp] theorem advance_cycles (i : Instr) : (advance i s).cycles = s.cycles := rfl
@[simp] theorem advance_run (i : Instr) : (advance i s).run = s.run := rfl
@[simp] theorem advance_speedMs (i : Instr) : (advance i s).speedMs = s.speedMs := rfl
@[simp] theorem advance_cfg (i : Instr) : (advance i s).cfg = s.cfg := rfl
@[simp] theorem advance_pc (i : Instr) : (advance i s).pc = (addrAdd s.pc i.length).value := rfl

/-! breakPhase -/

@[simp] theorem breakPhase_a (i : Instr) : (breakPhase i s).a = s.a := by unfold breakPhase; split <;> rfl
@[simp] theorem breakPhase_x (i : Instr) : (breakPhase i s).x = s.x := by unfold breakPhase; split <;> rfl
@[simp] theorem breakPhase_y (i : Instr) : (breakPhase i s).y = s.y := by unfold breakPhase; split <;> rfl
@[simp] theorem breakPhase_sp (i : Instr) : (breakPhase i s).sp = s.sp := by unfold breakPhase; split <;> rfl
@[simp] theorem breakPhase_pc (i : Instr) : (breakPhase i s).pc = s.pc := by unfold breakPhase; split <;> rfl
@[simp] theorem breakPhase_mem (i : Instr) : (breakPhase i s).mem = s.mem := by unfold breakPhase; split <;> rfl
@[simp] theorem breakPhase_stack (i : Instr) : (breakPhase i s).stack = s.stack := by unfold breakPhase; split <;> rfl
@[simp] theorem breakPhase_cycles (i : Instr) : (breakPhase i s).cycles = s.cycles := by unfold breakPhase; split <;> rfl
@[simp] theorem breakPhase_run (i : Instr) : (breakPhase i s).run = s.run := by unfold breakPhase; split <;> rfl
@[simp] theorem breakPhase_speedMs (i : Instr) : (breakPhase i s).speedMs = s.speedMs := by unfold breakPhase; split <;> rfl
@[simp] theorem breakPhase_cfg (i : Instr) : (breakPhase i s).cfg = s.cfg := by unfold breakPhase; split <;> rfl
theorem breakPhase_flags (i : Instr) : (breakPhase i s).flags =
    if isBreak i then { s.flags with b := true } else s.flags := by unfold breakPhase; split <;> rfl

/-! endPhase -/

@[simp] theorem endPhase_a : (endPhase s).a = s.a := rfl
@[simp] theorem endPhase_x : (endPhase s).x = s.x := rfl
@[simp] theorem endPhase_y : (endPhase s).y = s.y := rfl
@[simp] theorem endPhase_sp : (endPhase s).sp = s.sp := rfl
@[simp] theorem endPhase_pc : (endPhase s).pc = s.pc := rfl
@[simp] theorem endPhase_flags : (endPhase s).flags = s.flags := rfl
@[simp] theorem endPhase_mem : (endPhase s).mem = s.mem := rfl
@[simp] theorem endPhase_stack : (endPhase s).stack = s.stack := rfl
@[simp] theorem endPhase_run : (endPhase s).run = s.run := rfl
@[simp] theorem endPhase_speedMs : (endPhase s).speedMs = s.speedMs := rfl
@[simp] theorem endPhase_cfg : (endPhase s).cfg = s.cfg := rfl
@[simp] theorem endPhase_cycles : (endPhase s).cycles = nextCycles s.cfg.cycleWidth s.cycles := rfl

/-! putValue -/

@[simp] theorem putValue_x (p : Place) (v : Byte) : (putValue p v s).x = s.x := by cases p <;> rfl
@[simp] theorem putValue_y (p : Place) (v : Byte) : (putValue p v s).y = s.y := by cases p <;> rfl
@[simp] theorem putValue_sp (p : Place) (v : Byte) : (putValue p v s).sp = s.sp := by cases p <;> rfl
@[simp] theorem putValue_pc (p : Place) (v : Byte) : (putValue p v s).pc = s.pc := by cases p <;> rfl
@[simp] theorem putValue_flags (p : Place) (v : Byte) : (putValue p v s).flags = s.flags := by cases p <;> rfl
@[simp] theorem putValue_stack (p : Place) (v : Byte) : (putValue p v s).stack = s.stack := by cases p <;> rfl
@[simp] theorem putValue_cycles (p : Place) (v : Byte) : (putValue p v s).cycles = s.cycles := by cases p <;> rfl
@[simp] theorem putValue_run (p : Place) (v : Byte) : (putValue p v s).run = s.run := by cases p <;> rfl
@[simp] theorem putValue_speedMs (p : Place) (v : Byte) : (putValue p v s).speedMs = s.speedMs := by cases p <;> rfl
@[simp] theorem putValue_cfg (p : Place) (v : Byte) : (putValue p v s).cfg = s.cfg := by cases p <;> rfl
@[simp] theorem putValue_accumulator (v : Byte) : putValue .accumulator v s = { s with a := v } := rfl
@[simp] theorem putValue_memory (ea : Addr) (v : Byte) : putValue (.memory ea) v s = memWrite s ea v := rfl

/-! setNZ -/

@[simp] theorem setNZ_c (v : Byte) (f : Flags) : (setNZ v f).c = f.c := rfl
@[simp] theorem setNZ_i (v : Byte) (f : Flags) : (setNZ v f).i = f.i := rfl
@[simp] theorem setNZ_d (v : Byte) (f : Flags) : (setNZ v f).d = f.d := rfl
@[simp] theorem setNZ_b (v : Byte) (f : Flags) : (setNZ v f).b = f.b := rfl
@[simp] theorem setNZ_v (v : Byte) (f : Flags) : (setNZ v f).v = f.v := rfl
@[simp] theorem setNZ_n (v : Byte) (f : Flags) : (setNZ v f).n = v.getLsbD 7 := rfl
@[simp] theorem setNZ_z (v : Byte) (f : Flags) : (setNZ v f).z = (v == 0) := rfl

end Sys2Proof.Machine
end

