-- ==== Sys2Proof/Laws/Memory.lean ====
section
/-! SUPPORT. The laws of the byte arrays: reading after a write, and that every operation keeps the canonical form. The
reading laws need no canonical form, so they hold in every state. -/

namespace Sys2Proof.Machine

/-! ## Reading after a write -/

theorem cellRead_filter_ne (m : Cells) (a : Nat) : cellRead (m.filter fun c => c.1 != a) a = 0 := by
  induction m with
  | nil => rfl
  | cons c rest ih =>
    by_cases h : c.1 = a
    · simpa [h] using ih
    · simp [h, cellRead, ih]

theorem cellRead_filter_keep (m : Cells) (p : Nat → Bool) {b : Nat} (h : p b = true) :
    cellRead (m.filter fun c => p c.1) b = cellRead m b := by
  induction m with
  | nil => rfl
  | cons c rest ih =>
    by_cases hc : p c.1 = true
    · simp [hc, cellRead, ih]
    · have hb : c.1 ≠ b := by rintro rfl; exact hc h
      simp [hc, cellRead, ih, hb]

theorem cellRead_filter_drop (m : Cells) (p : Nat → Bool) {b : Nat} (h : p b = false) :
    cellRead (m.filter fun c => p c.1) b = 0 := by
  induction m with
  | nil => rfl
  | cons c rest ih =>
    by_cases hc : p c.1 = true
    · have hb : c.1 ≠ b := by rintro rfl; simp [h] at hc
      simp [hc, cellRead, ih, hb]
    · simpa [hc] using ih

theorem cellRead_insert_other (m : Cells) {a b : Nat} (v : Byte) (h : b ≠ a) :
    cellRead (cellInsert (a, v) m) b = cellRead m b := by
  induction m with
  | nil => simp [cellInsert, cellRead, h.symm]
  | cons c rest ih =>
    unfold cellInsert
    split <;> simp_all [cellRead, h.symm]

theorem cellRead_insert_same (m : Cells) (a : Nat) (v : Byte) (h : ∀ c ∈ m, c.1 ≠ a) :
    cellRead (cellInsert (a, v) m) a = v := by
  induction m with
  | nil => simp [cellInsert, cellRead]
  | cons c rest ih =>
    have hc : c.1 ≠ a := h c (by simp)
    unfold cellInsert
    split
    · simp [cellRead]
    · simpa [cellRead, hc] using ih fun d hd => h d (by simp [hd])

/-- R41: what an array reads as after a write, at every address. -/
@[simp] theorem cellRead_cellWrite (m : Cells) (a b : Nat) (v : Byte) :
    cellRead (cellWrite m a v) b = if b = a then v else cellRead m b := by
  have others : b ≠ a → cellRead (m.filter fun c => c.1 != a) b = cellRead m b := fun h =>
    cellRead_filter_keep m (fun k => k != a) (by simpa using h)
  by_cases hb : b = a
  · subst hb
    by_cases hv : v = 0
    · simp [cellWrite, hv, cellRead_filter_ne]
    · simp only [cellWrite, hv, if_false, if_true]
      exact cellRead_insert_same _ _ _ (by simp)
  · by_cases hv : v = 0
    · simp [cellWrite, hv, hb, others hb]
    · simp only [cellWrite, hv, hb, if_false]
      rw [cellRead_insert_other _ _ hb, others hb]

theorem addr_toNat_inj {a b : Addr} : a.toNat = b.toNat ↔ a = b := BitVec.toNat_inj

/-- R41 -/
@[simp] theorem memRead_memWrite (s : State) (a b : Addr) (v : Byte) :
    memRead (memWrite s a v) b = if b = a then v else memRead s b := by
  simp [memRead, addr_toNat_inj]

/-- R46, R47: what a Stack cell holds after a stack write. -/
@[simp] theorem stackRead_stackWrite (s : State) (i j v : Byte) :
    stackRead (stackWrite s i v) j = if j = i then v else stackRead s j := by
  have key : (stackPage j = stackPage i) ↔ j = i := by
    simp [stackPage, BitVec.toNat_inj]
  by_cases h : s.cfg.stackAliased = true
  · simp [stackRead, stackWrite_mem, stackWrite_cfg, h, key]
  · simp [stackRead, stackWrite_stack, stackWrite_cfg, h, BitVec.toNat_inj]

/-- A Stack cell depends on nothing but the arrays and the parameters. -/
theorem stackRead_congr {s t : State} (hm : t.mem = s.mem) (hs : t.stack = s.stack) (hc : t.cfg = s.cfg) (i : Byte) :
    stackRead t i = stackRead s i := by
  simp [stackRead, hm, hs, hc]

@[simp] theorem stackRead_pull (s : State) (i : Byte) : stackRead (pull s).2 i = stackRead s i := rfl

/-- R46 -/
@[simp] theorem stackRead_push (s : State) (v j : Byte) :
    stackRead (push v s) j = if j = s.sp + 1 then v else stackRead s j := by
  simp only [push, byteInc, stackRead_stackWrite]
  rfl

/-- Without STACK_ALIASED a push leaves Memory alone (R32). -/
theorem push_mem_separate {s : State} (h : s.cfg.stackAliased = false) (v : Byte) : (push v s).mem = s.mem := by
  simp [push_mem, h]

/-- With STACK_ALIASED a push writes exactly the Memory byte of its cell (R32). -/
theorem memRead_push_aliased {s : State} (h : s.cfg.stackAliased = true) (v : Byte) (b : Addr) :
    memRead (push v s) b = if b.toNat = stackPage (s.sp + 1) then v else memRead s b := by
  simp [memRead, push_mem, h]

/-! ## The canonical form -/

theorem cellsWfFrom_mono {size lo lo' : Nat} {m : Cells} (h : lo' ≤ lo) (hm : cellsWfFrom size lo m = true) :
    cellsWfFrom size lo' m = true := by
  cases m with
  | nil => rfl
  | cons c rest =>
    simp only [cellsWfFrom, Bool.and_eq_true, decide_eq_true_eq] at hm ⊢
    exact ⟨⟨⟨by omega, hm.1.1.2⟩, hm.1.2⟩, hm.2⟩

theorem cellsWfFrom_lo {size lo : Nat} {m : Cells} (hm : cellsWfFrom size lo m = true) : ∀ c ∈ m, lo ≤ c.1 := by
  induction m generalizing lo with
  | nil => simp
  | cons c rest ih =>
    simp only [cellsWfFrom, Bool.and_eq_true, decide_eq_true_eq] at hm
    intro d hd
    rcases List.mem_cons.1 hd with rfl | hd
    · exact hm.1.1.1
    · have := ih hm.2 d hd
      omega

theorem cellsWfFrom_filter {size lo : Nat} {m : Cells} (p : Host.Cell → Bool) (hm : cellsWfFrom size lo m = true) :
    cellsWfFrom size lo (m.filter p) = true := by
  induction m generalizing lo with
  | nil => rfl
  | cons c rest ih =>
    simp only [cellsWfFrom, Bool.and_eq_true, decide_eq_true_eq] at hm
    by_cases hc : p c = true
    · simpa [hc, cellsWfFrom] using ⟨⟨hm.1.1, by simpa using hm.1.2⟩, ih hm.2⟩
    · simp only [List.filter_cons, hc, if_neg, Bool.false_eq_true, not_false_eq_true]
      exact cellsWfFrom_mono (by omega) (ih hm.2)

theorem cellsWfFrom_insert {size lo a : Nat} {v : Byte} {m : Cells} (hlo : lo ≤ a) (ha : a < size) (hv : v ≠ 0)
    (hm : cellsWfFrom size lo m = true) (hne : ∀ c ∈ m, c.1 ≠ a) :
    cellsWfFrom size lo (cellInsert (a, v) m) = true := by
  induction m generalizing lo with
  | nil => simpa [cellInsert, cellsWfFrom, hlo, ha] using hv
  | cons c rest ih =>
    have hc : c.1 ≠ a := hne c (by simp)
    simp only [cellsWfFrom, Bool.and_eq_true, decide_eq_true_eq] at hm
    unfold cellInsert
    split
    · rename_i hlt
      simp only [cellsWfFrom, Bool.and_eq_true, decide_eq_true_eq]
      exact ⟨⟨⟨hlo, ha⟩, by simpa using hv⟩, ⟨⟨by have := hlt; simp at this; omega, hm.1.1.2⟩, hm.1.2⟩, hm.2⟩
    · rename_i hlt
      simp only [cellsWfFrom, Bool.and_eq_true, decide_eq_true_eq]
      refine ⟨hm.1, ih ?_ hm.2 fun d hd => hne d (by simp [hd])⟩
      simp at hlt
      omega

/-- Every array write keeps the canonical form. -/
theorem cellsWf_cellWrite {size a : Nat} {m : Cells} (ha : a < size) (v : Byte) (hm : cellsWf size m = true) :
    cellsWf size (cellWrite m a v) = true := by
  unfold cellWrite cellsWf
  by_cases hv : v = 0
  · simpa [hv] using cellsWfFrom_filter _ hm
  · simp only [hv, if_false]
    exact cellsWfFrom_insert (Nat.zero_le _) ha hv (cellsWfFrom_filter _ hm) (by simp)

theorem Memory.wf_memWrite {s : State} (a : Addr) (v : Byte) (h : Memory.wf s.mem = true) :
    Memory.wf (memWrite s a v).mem = true :=
  cellsWf_cellWrite a.isLt v h

theorem stackPage_lt (i : Byte) : stackPage i < 65536 := by
  have := i.isLt
  simp only [stackPage]
  omega

theorem Memory.wf_push {s : State} (v : Byte) (h : Memory.wf s.mem = true) : Memory.wf (push v s).mem = true := by
  rw [push_mem]
  split
  · exact cellsWf_cellWrite (stackPage_lt _) v h
  · exact h

theorem Stack.wf_push {s : State} (v : Byte) (h : Stack.wf s.stack = true) : Stack.wf (push v s).stack = true := by
  rw [push_stack]
  split
  · exact h
  · exact cellsWf_cellWrite (s.sp + 1).isLt v h

theorem Memory.wf_putValue {s : State} (p : Place) (v : Byte) (h : Memory.wf s.mem = true) :
    Memory.wf (putValue p v s).mem = true := by
  cases p with
  | accumulator => exact h
  | memory ea => exact Memory.wf_memWrite ea v h

theorem Memory.wf_clearStack {s : State} (h : Memory.wf s.mem = true) : Memory.wf (clearStack s).mem = true := by
  unfold clearStack
  split
  · exact cellsWfFrom_filter _ h
  · exact h

/-- The canonical form is canonical: two canonical arrays that read alike are the same list. -/
theorem cells_ext {size : Nat} {m m' : Cells} {lo : Nat} (hm : cellsWfFrom size lo m = true)
    (hm' : cellsWfFrom size lo m' = true) (h : ∀ a, cellRead m a = cellRead m' a) : m = m' := by
  have absent : ∀ {m : Cells} {k : Nat}, (∀ c ∈ m, k + 1 ≤ c.1) → cellRead m k = 0 := by
    intro m k hk
    induction m with
    | nil => rfl
    | cons c rest ih =>
      have := hk c (by simp)
      simp only [cellRead]
      rw [if_neg (by omega), ih fun d hd => hk d (by simp [hd])]
  induction m generalizing m' lo with
  | nil =>
    cases m' with
    | nil => rfl
    | cons d rest' =>
      simp only [cellsWfFrom, Bool.and_eq_true, decide_eq_true_eq] at hm'
      have := h d.1
      simp [cellRead] at this
      simp [← this] at hm'
  | cons c rest ih =>
    simp only [cellsWfFrom, Bool.and_eq_true, decide_eq_true_eq] at hm
    cases m' with
    | nil =>
      have := h c.1
      simp [cellRead] at this
      simp [this] at hm
    | cons d rest' =>
      simp only [cellsWfFrom, Bool.and_eq_true, decide_eq_true_eq] at hm'
      have hc := cellsWfFrom_lo hm.2
      have hd := cellsWfFrom_lo hm'.2
      have hkey : c.1 = d.1 := by
        rcases Nat.lt_trichotomy c.1 d.1 with hlt | heq | hgt
        · have := h c.1
          simp only [cellRead, if_true] at this
          rw [if_neg (by omega), absent fun e he => by have := hd e he; omega] at this
          simp [this] at hm
        · exact heq
        · have := h d.1
          simp only [cellRead, if_true] at this
          rw [if_neg (by omega), absent fun e he => by have := hc e he; omega] at this
          simp [← this] at hm'
      have hval : c.2 = d.2 := by
        have := h c.1
        simpa [cellRead, hkey] using this
      have hcd : c = d := Prod.ext hkey hval
      subst hcd
      congr 1
      refine ih hm.2 hm'.2 fun a => ?_
      have := h a
      by_cases ha : c.1 = a
      · subst ha
        rw [absent hc, absent hd]
      · simpa [cellRead, ha] using this

end Sys2Proof.Machine
end

