-- ==== Sys2Proof/Laws/Operands.lean ====
section
/-! SUPPORT. Operand access: when an operand has an address, a value and a place (spec 40 rules R85, R96, R100). -/

namespace Sys2Proof.Machine

/-- R61: the nine modes that resolve to a memory address. -/
def isMemoryMode : Mode → Bool
  | .implied | .accumulator | .immediate | .relative => false
  | _ => true

/-- R86, R96: `resolve` answers an address exactly for the nine memory modes. -/
theorem resolve_ok {o : Operand} (h : isMemoryMode o.mode = true) (s : State) : ∃ ea, resolve o s = .ok ea := by
  cases o <;> first | exact ⟨_, rfl⟩ | exact absurd h (by simp [Operand.mode, isMemoryMode])

theorem resolve_addressing {o : Operand} (h : isMemoryMode o.mode = false) (s : State) :
    resolve o s = .error .addressing := by
  cases o <;> first | rfl | exact absurd h (by simp [Operand.mode, isMemoryMode])

/-- R85: every mode but implied has a value. -/
theorem getValue_ok {o : Operand} (h : o.mode ≠ .implied) (s : State) : ∃ v, getValue o s = .ok v := by
  cases o <;> first | exact ⟨_, rfl⟩ | exact absurd rfl h

/-- R100: accumulator mode and the memory modes have a place. -/
theorem placeOf_memory {o : Operand} {s : State} {ea : Addr} (h : resolve o s = .ok ea) :
    placeOf o s = .ok (.memory ea) := by
  cases o <;> simp_all [placeOf, resolve]

theorem withValue_ok {o : Operand} {s : State} {v : Byte} (h : getValue o s = .ok v) (k : Byte → Result) :
    withValue o s k = k v := by
  simp [withValue, h]

theorem withAddress_ok {o : Operand} {s : State} {ea : Addr} (h : resolve o s = .ok ea) (k : Addr → Result) :
    withAddress o s k = k ea := by
  simp [withAddress, h]

/-- What a handler that runs on its operand value can answer. -/
theorem withValue_next {o : Operand} {s t : State} {k : Byte → Result} (h : withValue o s k = .next t) :
    ∃ v, getValue o s = .ok v ∧ k v = .next t := by
  unfold withValue at h
  split at h
  · exact ⟨_, ‹_›, h⟩
  · cases h

theorem withAddress_next {o : Operand} {s t : State} {k : Addr → Result} (h : withAddress o s k = .next t) :
    ∃ ea, resolve o s = .ok ea ∧ k ea = .next t := by
  unfold withAddress at h
  split at h
  · exact ⟨_, ‹_›, h⟩
  · cases h

end Sys2Proof.Machine
end

