-- ==== Sys2Proof/Laws/Exec.lean ====
section
/-! SUPPORT. exec runs one handler per mnemonic, with the addressing mode as its argument (R84), and what a handler can
do to a state: the inversion lemmas that later proofs cite instead of unfolding exec. -/

namespace Sys2Proof.Machine

/-- R84: the handler of a mnemonic. -/
def handler : Mnemonic → Operand → State → Result
  | .adc => adc
  | .and => andA
  | .asl => asl
  | .bcc => bcc
  | .bcs => bcs
  | .beq => beq
  | .bit => bitTest
  | .bmi => bmi
  | .bne => bneZ
  | .bpl => bpl
  | .brk => brk
  | .bvc => bvc
  | .bvs => bvs
  | .clc => clc
  | .cld => cld
  | .cli => cli
  | .clv => clv
  | .cmp => cmpA
  | .cpx => cpx
  | .cpy => cpy
  | .dec => dec
  | .dex => dex
  | .dey => dey
  | .eor => eor
  | .inc => inc
  | .inx => inx
  | .iny => iny
  | .jmp => jmp
  | .jsr => jsr
  | .lda => lda
  | .ldx => ldx
  | .ldy => ldy
  | .lsr => lsr
  | .nop => nop
  | .ora => ora
  | .pha => pha
  | .php => php
  | .pla => pla
  | .plp => plp
  | .rol => rol
  | .ror => ror
  | .rti => rti
  | .rts => rts
  | .sbc => sbc
  | .sec => sec
  | .sed => sed
  | .sei => sei
  | .sta => sta
  | .stx => stx
  | .sty => sty
  | .tax => tax
  | .tay => tay
  | .tsx => tsx
  | .txa => txa
  | .txs => txs
  | .tya => tya

/-- R84: a mnemonic behaves the same in every mode apart from where its operand comes from. -/
theorem exec_eq_handler (i : Instr) (s : State) : exec i s = handler i.mnemonic i.operand s := by
  cases i <;> rfl

/-- For an instruction of a known mnemonic: its handler, on an operand of one of the mnemonic's modes (R68). -/
theorem exec_of_mnemonic {i : Instr} {m : Mnemonic} (h : i.mnemonic = m) (s : State) :
    exec i s = handler m i.operand s ∧ i.operand.mode ∈ m.modes := by
  subst h
  exact ⟨exec_eq_handler i s, i.mode_legal⟩

/-- The operand value of an instruction none of whose modes is implied. -/
theorem value_of_mnemonic {i : Instr} {m : Mnemonic} (h : i.mnemonic = m) (hm : Mode.implied ∉ m.modes) (s : State) :
    ∃ v, getValue i.operand s = .ok v :=
  getValue_ok (fun hi => hm (hi ▸ (exec_of_mnemonic h s).2)) s

/-- The effective address of an instruction all of whose modes are memory modes. -/
theorem address_of_mnemonic {i : Instr} {m : Mnemonic} (h : i.mnemonic = m) (hm : m.modes.all isMemoryMode = true)
    (s : State) : ∃ ea, resolve i.operand s = .ok ea :=
  resolve_ok (List.all_eq_true.1 hm _ (exec_of_mnemonic h s).2) s

/-! ## What each shared operation can do -/

theorem sbc_next {o : Operand} {s t : State} (h : sbc o s = .next t) :
    ∃ m diff, getValue o s = .ok m ∧ byteSub s.cfg s.a m (borrowIn s) = .ok diff ∧
      t = { s with a := diff.value, flags := sbcFlags s.a m diff s.flags } := by
  obtain ⟨m, hm, hk⟩ := withValue_next h
  split at hk
  · exact ⟨m, _, hm, ‹_›, by simpa using hk.symm⟩
  · cases hk

theorem compareWith_next {r : Byte} {o : Operand} {s t : State} (h : compareWith r o s = .next t) :
    ∃ m diff, getValue o s = .ok m ∧ byteSub s.cfg r m false = .ok diff ∧
      t = { s with flags := compareFlags r m diff s.flags } := by
  obtain ⟨m, hm, hk⟩ := withValue_next h
  split at hk
  · exact ⟨m, _, hm, ‹_›, by simpa using hk.symm⟩
  · cases hk

theorem shiftPlace_next {f : Byte → Bool → Byte × Bool} {o : Operand} {s t : State} (h : shiftPlace f o s = .next t) :
    ∃ p, placeOf o s = .ok p ∧
      t = { putValue p (f (readPlace p s) s.flags.c).1 s with
            flags := shiftFlags (f (readPlace p s) s.flags.c).1 (f (readPlace p s) s.flags.c).2 s.flags } := by
  unfold shiftPlace at h
  split at h
  · exact ⟨_, ‹_›, by simpa using h.symm⟩
  · cases h

theorem branchIf_next {cond : Bool} {o : Operand} {s t : State} (h : branchIf cond o s = .next t) :
    ∃ d, getValue o s = .ok d ∧ t = if cond then { s with pc := addrSignedAdd s.pc d } else s := by
  obtain ⟨d, hd, hk⟩ := withValue_next h
  exact ⟨d, hd, by simpa using hk.symm⟩

theorem modifyMemory_next {f : Byte → ByteStep} {o : Operand} {s t : State} (h : modifyMemory f o s = .next t) :
    ∃ ea, resolve o s = .ok ea ∧
      t = { memWrite s ea (f (memRead s ea)).value with flags := setNZ (f (memRead s ea)).value s.flags } := by
  obtain ⟨ea, he, hk⟩ := withAddress_next h
  exact ⟨ea, he, by simpa using hk.symm⟩

/-- What a handler changes of the arrays: nothing, one Memory byte, or what one or two pushes write. -/
def ArrayEffect (s t : State) : Prop :=
  (t.mem = s.mem ∧ t.stack = s.stack) ∨
  (∃ (ea : Addr) (v : Byte), t.mem = cellWrite s.mem ea.toNat v ∧ t.stack = s.stack) ∨
  (∃ v, t.mem = (push v s).mem ∧ t.stack = (push v s).stack) ∨
  (∃ a, t.mem = (pushAddr a s).mem ∧ t.stack = (pushAddr a s).stack)

/-- Everything outside registers and flags that a handler can do: it keeps the run control, the counter and the
parameters, and changes the arrays in one of four ways. -/
theorem handler_effect {m : Mnemonic} {o : Operand} {s t : State} (h : handler m o s = .next t) :
    t.cycles = s.cycles ∧ t.run = s.run ∧ t.speedMs = s.speedMs ∧ t.cfg = s.cfg ∧ ArrayEffect s t := by
  cases m
  case sbc => obtain ⟨m, d, -, -, rfl⟩ := sbc_next h; exact ⟨rfl, rfl, rfl, rfl, .inl ⟨rfl, rfl⟩⟩
  case cmp => obtain ⟨m, d, -, -, rfl⟩ := compareWith_next h; exact ⟨rfl, rfl, rfl, rfl, .inl ⟨rfl, rfl⟩⟩
  case cpx => obtain ⟨m, d, -, -, rfl⟩ := compareWith_next h; exact ⟨rfl, rfl, rfl, rfl, .inl ⟨rfl, rfl⟩⟩
  case cpy => obtain ⟨m, d, -, -, rfl⟩ := compareWith_next h; exact ⟨rfl, rfl, rfl, rfl, .inl ⟨rfl, rfl⟩⟩
  case asl | lsr | rol | ror =>
    obtain ⟨p, -, rfl⟩ := shiftPlace_next h
    cases p with
    | accumulator => exact ⟨rfl, rfl, rfl, rfl, .inl ⟨rfl, rfl⟩⟩
    | memory ea => exact ⟨rfl, rfl, rfl, rfl, .inr (.inl ⟨ea, _, rfl, rfl⟩)⟩
  case inc | dec =>
    obtain ⟨ea, -, rfl⟩ := modifyMemory_next h
    exact ⟨rfl, rfl, rfl, rfl, .inr (.inl ⟨ea, _, rfl, rfl⟩)⟩
  case bcc | bcs | beq | bne | bmi | bpl | bvc | bvs =>
    obtain ⟨d, -, rfl⟩ := branchIf_next h
    split <;> exact ⟨rfl, rfl, rfl, rfl, .inl ⟨rfl, rfl⟩⟩
  case lda | ldx | ldy | adc | and | ora | eor | bit =>
    obtain ⟨v, -, hk⟩ := withValue_next h
    injection hk with hk
    subst hk
    exact ⟨rfl, rfl, rfl, rfl, .inl ⟨rfl, rfl⟩⟩
  case sta | stx | sty =>
    obtain ⟨ea, -, hk⟩ := withAddress_next h
    injection hk with hk
    subst hk
    exact ⟨rfl, rfl, rfl, rfl, .inr (.inl ⟨ea, _, rfl, rfl⟩)⟩
  case jmp =>
    obtain ⟨ea, -, hk⟩ := withAddress_next h
    injection hk with hk
    subst hk
    exact ⟨rfl, rfl, rfl, rfl, .inl ⟨rfl, rfl⟩⟩
  case jsr =>
    obtain ⟨ea, -, hk⟩ := withAddress_next h
    injection hk with hk
    subst hk
    exact ⟨by simp [pushAddr], by simp [pushAddr], by simp [pushAddr], by simp [pushAddr],
      .inr (.inr (.inr ⟨s.pc, rfl, rfl⟩))⟩
  case pha | php =>
    injection h with h
    subst h
    exact ⟨by simp, by simp, by simp, by simp, .inr (.inr (.inl ⟨_, rfl, rfl⟩))⟩
  all_goals
    injection h with h
    subst h
    exact ⟨rfl, rfl, rfl, rfl, .inl ⟨rfl, rfl⟩⟩

/-- The effect of an instruction outside registers and flags. -/
theorem exec_effect {i : Instr} {s t : State} (h : exec i s = .next t) :
    t.cycles = s.cycles ∧ t.run = s.run ∧ t.speedMs = s.speedMs ∧ t.cfg = s.cfg ∧ ArrayEffect s t :=
  handler_effect (exec_eq_handler i s ▸ h)

/-- Every effect on the arrays keeps their canonical form. -/
theorem ArrayEffect.keeps_inv {s t : State} (h : ArrayEffect s t) (hs : s.inv = true) : t.inv = true := by
  simp only [State.inv, Bool.and_eq_true] at hs ⊢
  rcases h with ⟨hm, hk⟩ | ⟨ea, v, hm, hk⟩ | ⟨v, hm, hk⟩ | ⟨a, hm, hk⟩ <;> rw [hm, hk]
  · exact hs
  · exact ⟨Memory.wf_memWrite ea v hs.1, hs.2⟩
  · exact ⟨Memory.wf_push v hs.1, Stack.wf_push v hs.2⟩
  · exact ⟨Memory.wf_push _ (Memory.wf_push _ hs.1), Stack.wf_push _ (Stack.wf_push _ hs.2)⟩

/-- No instruction is refused: each of the 151 forms has its meaning. -/
theorem exec_never_refused (i : Instr) (s : State) (r : Refusal) : exec i s ≠ .refused r := by
  have value : ∀ o (k : Byte → Result), (∀ v, k v ≠ .refused r) → withValue o s k ≠ .refused r := by
    intro o k hk
    unfold withValue
    split
    · exact hk _
    · simp
  have address : ∀ o (k : Addr → Result), (∀ a, k a ≠ .refused r) → withAddress o s k ≠ .refused r := by
    intro o k hk
    unfold withAddress
    split
    · exact hk _
    · simp
  have compare : ∀ b o, compareWith b o s ≠ .refused r := fun b o =>
    value o _ fun v => by split <;> simp
  have shift : ∀ f o, shiftPlace f o s ≠ .refused r := fun f o => by unfold shiftPlace; split <;> simp
  rw [exec_eq_handler]
  generalize i.operand = o
  cases i.mnemonic
  case sbc => exact value o _ fun v => by split <;> simp
  case cmp | cpx | cpy => exact compare _ o
  case asl | lsr | rol | ror => exact shift _ o
  case lda | ldx | ldy | adc | and | ora | eor | bit => exact value o _ fun v => by simp
  case bcc | bcs | beq | bne | bmi | bpl | bvc | bvs => exact value o _ fun v => by simp
  case sta | stx | sty | inc | dec | jmp | jsr => exact address o _ fun a => by simp
  all_goals simp [handler, tax, tay, txa, tya, tsx, txs, inx, iny, dex, dey, rts, rti, pha, php, pla, plp, clc, sec, cli,
    sei, cld, sed, clv, nop, brk]

end Sys2Proof.Machine
end

