-- ==== Sys2Proof/Laws/HostOps.lean ====
section
/-! SUPPORT. What loading a byte sequence does (spec 70 rule R283): where it succeeds, what Memory then reads, and where
it raises. -/

namespace Sys2Proof.Machine

/-- R2: a number up to 65535 is an Address. -/
theorem addrOfInt_ok {n : Nat} (h : n ≤ 65535) : addrOfInt (n : Int) = .ok (BitVec.ofNat 16 n) := by
  simp only [addrOfInt]
  rw [if_pos (by omega)]
  simp

theorem addrOfInt_error {n : Nat} (h : ¬ n ≤ 65535) : addrOfInt (n : Int) = .error (.valueRange n) := by
  simp only [addrOfInt]
  rw [if_neg (by omega)]

/-- R283: what fits below the top of the address space is loaded: byte k at `o + k`, the cells below `o` as before. -/
theorem loadBytes_ok (bs : List Byte) (o : Nat) (s : State) (h : o + bs.length ≤ 65536) :
    ∃ m, loadBytes o bs s = .ok { s with mem := m } ∧
      (∀ k (hk : k < bs.length), cellRead m (o + k) = bs[k]) ∧ ∀ b, b < o → cellRead m b = cellRead s.mem b := by
  induction bs generalizing o s with
  | nil => exact ⟨s.mem, rfl, by simp, by simp⟩
  | cons v bs ih =>
    simp only [List.length_cons] at h
    have hlt : o % 65536 = o := Nat.mod_eq_of_lt (by omega)
    obtain ⟨m, h1, h2, h3⟩ := ih (o + 1) (writeMemory (BitVec.ofNat 16 o) v s) (by omega)
    refine ⟨m, by simp only [loadBytes, addrOfInt_ok (show o ≤ 65535 by omega), h1]; rfl, ?_, ?_⟩
    · intro k hk
      cases k with
      | zero => simpa [writeMemory, hlt] using h3 o (by omega)
      | succ k =>
        rw [show o + (k + 1) = o + 1 + k by omega]
        simpa using h2 k (by simpa using hk)
    · intro b hb
      rw [h3 b (by omega)]
      simp [writeMemory, hlt]
      omega

/-- D10: what does not fit raises ValueRangeError. -/
theorem loadBytes_error (bs : List Byte) (o : Nat) (s : State) (ho : o ≤ 65536) (h : 65536 < o + bs.length) :
    ∃ n, loadBytes o bs s = .error (.valueRange n) := by
  induction bs generalizing o s with
  | nil => simp at h; omega
  | cons v bs ih =>
    simp only [List.length_cons] at h
    by_cases hle : o ≤ 65535
    · obtain ⟨n, hn⟩ := ih (o + 1) (writeMemory (BitVec.ofNat 16 o) v s) (by omega) (by omega)
      exact ⟨n, by simp only [loadBytes, addrOfInt_ok hle, hn]⟩
    · exact ⟨o, by simp only [loadBytes, addrOfInt_error hle]⟩

end Sys2Proof.Machine
end

