-- ==== Sys2Proof/Laws/PerInstr.lean ====
section
/-! SUPPORT. Statements about every instruction as syntax, one lemma per constructor. RoundTrip: no bit of an encoding
is dropped, and decoding takes exactly the instruction's bytes (R65). -/

namespace Sys2Proof.Laws.RoundTrip

/-- Decoding an instruction's bytes, whatever follows them, gives the instruction and what follows. -/
def Statement (i : Instr) : Prop := ∀ rest : List Byte, decode (encode i ++ rest) = .ok (i, rest)

/-- The three-byte forms: the two operand bytes put together are the operand again. -/
theorem of_word (mk : Addr → Instr) (a : Addr)
    (h : ∀ rest, decode (encode (mk a) ++ rest) = .ok (mk (mkAddr (hiByte a) (loByte a)), rest)) :
    Statement (mk a) := by
  intro rest
  rw [h rest, mkAddr_hiByte_loByte]

theorem adcImmediate (v : Byte) : Statement (.adcImmediate v) := fun _ => rfl
theorem adcZeroPage (z : Byte) : Statement (.adcZeroPage z) := fun _ => rfl
theorem adcZeroPageX (z : Byte) : Statement (.adcZeroPageX z) := fun _ => rfl
theorem adcAbsolute (a : Addr) : Statement (.adcAbsolute a) := of_word .adcAbsolute a fun _ => rfl
theorem adcAbsoluteX (a : Addr) : Statement (.adcAbsoluteX a) := of_word .adcAbsoluteX a fun _ => rfl
theorem adcAbsoluteY (a : Addr) : Statement (.adcAbsoluteY a) := of_word .adcAbsoluteY a fun _ => rfl
theorem adcIndirectX (z : Byte) : Statement (.adcIndirectX z) := fun _ => rfl
theorem adcIndirectY (z : Byte) : Statement (.adcIndirectY z) := fun _ => rfl
theorem andImmediate (v : Byte) : Statement (.andImmediate v) := fun _ => rfl
theorem andZeroPage (z : Byte) : Statement (.andZeroPage z) := fun _ => rfl
theorem andZeroPageX (z : Byte) : Statement (.andZeroPageX z) := fun _ => rfl
theorem andAbsolute (a : Addr) : Statement (.andAbsolute a) := of_word .andAbsolute a fun _ => rfl
theorem andAbsoluteX (a : Addr) : Statement (.andAbsoluteX a) := of_word .andAbsoluteX a fun _ => rfl
theorem andAbsoluteY (a : Addr) : Statement (.andAbsoluteY a) := of_word .andAbsoluteY a fun _ => rfl
theorem andIndirectX (z : Byte) : Statement (.andIndirectX z) := fun _ => rfl
theorem andIndirectY (z : Byte) : Statement (.andIndirectY z) := fun _ => rfl
theorem aslAccumulator : Statement (.aslAccumulator) := fun _ => rfl
theorem aslZeroPage (z : Byte) : Statement (.aslZeroPage z) := fun _ => rfl
theorem aslZeroPageX (z : Byte) : Statement (.aslZeroPageX z) := fun _ => rfl
theorem aslAbsolute (a : Addr) : Statement (.aslAbsolute a) := of_word .aslAbsolute a fun _ => rfl
theorem aslAbsoluteX (a : Addr) : Statement (.aslAbsoluteX a) := of_word .aslAbsoluteX a fun _ => rfl
theorem bccRelative (d : Byte) : Statement (.bccRelative d) := fun _ => rfl
theorem bcsRelative (d : Byte) : Statement (.bcsRelative d) := fun _ => rfl
theorem beqRelative (d : Byte) : Statement (.beqRelative d) := fun _ => rfl
theorem bitZeroPage (z : Byte) : Statement (.bitZeroPage z) := fun _ => rfl
theorem bitAbsolute (a : Addr) : Statement (.bitAbsolute a) := of_word .bitAbsolute a fun _ => rfl
theorem bmiRelative (d : Byte) : Statement (.bmiRelative d) := fun _ => rfl
theorem bneRelative (d : Byte) : Statement (.bneRelative d) := fun _ => rfl
theorem bplRelative (d : Byte) : Statement (.bplRelative d) := fun _ => rfl
theorem brkImplied : Statement (.brkImplied) := fun _ => rfl
theorem bvcRelative (d : Byte) : Statement (.bvcRelative d) := fun _ => rfl
theorem bvsRelative (d : Byte) : Statement (.bvsRelative d) := fun _ => rfl
theorem clcImplied : Statement (.clcImplied) := fun _ => rfl
theorem cldImplied : Statement (.cldImplied) := fun _ => rfl
theorem cliImplied : Statement (.cliImplied) := fun _ => rfl
theorem clvImplied : Statement (.clvImplied) := fun _ => rfl
theorem cmpImmediate (v : Byte) : Statement (.cmpImmediate v) := fun _ => rfl
theorem cmpZeroPage (z : Byte) : Statement (.cmpZeroPage z) := fun _ => rfl
theorem cmpZeroPageX (z : Byte) : Statement (.cmpZeroPageX z) := fun _ => rfl
theorem cmpAbsolute (a : Addr) : Statement (.cmpAbsolute a) := of_word .cmpAbsolute a fun _ => rfl
theorem cmpAbsoluteX (a : Addr) : Statement (.cmpAbsoluteX a) := of_word .cmpAbsoluteX a fun _ => rfl
theorem cmpAbsoluteY (a : Addr) : Statement (.cmpAbsoluteY a) := of_word .cmpAbsoluteY a fun _ => rfl
theorem cmpIndirectX (z : Byte) : Statement (.cmpIndirectX z) := fun _ => rfl
theorem cmpIndirectY (z : Byte) : Statement (.cmpIndirectY z) := fun _ => rfl
theorem cpxImmediate (v : Byte) : Statement (.cpxImmediate v) := fun _ => rfl
theorem cpxZeroPage (z : Byte) : Statement (.cpxZeroPage z) := fun _ => rfl
theorem cpxAbsolute (a : Addr) : Statement (.cpxAbsolute a) := of_word .cpxAbsolute a fun _ => rfl
theorem cpyImmediate (v : Byte) : Statement (.cpyImmediate v) := fun _ => rfl
theorem cpyZeroPage (z : Byte) : Statement (.cpyZeroPage z) := fun _ => rfl
theorem cpyAbsolute (a : Addr) : Statement (.cpyAbsolute a) := of_word .cpyAbsolute a fun _ => rfl
theorem decZeroPage (z : Byte) : Statement (.decZeroPage z) := fun _ => rfl
theorem decZeroPageX (z : Byte) : Statement (.decZeroPageX z) := fun _ => rfl
theorem decAbsolute (a : Addr) : Statement (.decAbsolute a) := of_word .decAbsolute a fun _ => rfl
theorem decAbsoluteX (a : Addr) : Statement (.decAbsoluteX a) := of_word .decAbsoluteX a fun _ => rfl
theorem dexImplied : Statement (.dexImplied) := fun _ => rfl
theorem deyImplied : Statement (.deyImplied) := fun _ => rfl
theorem eorImmediate (v : Byte) : Statement (.eorImmediate v) := fun _ => rfl
theorem eorZeroPage (z : Byte) : Statement (.eorZeroPage z) := fun _ => rfl
theorem eorZeroPageX (z : Byte) : Statement (.eorZeroPageX z) := fun _ => rfl
theorem eorAbsolute (a : Addr) : Statement (.eorAbsolute a) := of_word .eorAbsolute a fun _ => rfl
theorem eorAbsoluteX (a : Addr) : Statement (.eorAbsoluteX a) := of_word .eorAbsoluteX a fun _ => rfl
theorem eorAbsoluteY (a : Addr) : Statement (.eorAbsoluteY a) := of_word .eorAbsoluteY a fun _ => rfl
theorem eorIndirectX (z : Byte) : Statement (.eorIndirectX z) := fun _ => rfl
theorem eorIndirectY (z : Byte) : Statement (.eorIndirectY z) := fun _ => rfl
theorem incZeroPage (z : Byte) : Statement (.incZeroPage z) := fun _ => rfl
theorem incZeroPageX (z : Byte) : Statement (.incZeroPageX z) := fun _ => rfl
theorem incAbsolute (a : Addr) : Statement (.incAbsolute a) := of_word .incAbsolute a fun _ => rfl
theorem incAbsoluteX (a : Addr) : Statement (.incAbsoluteX a) := of_word .incAbsoluteX a fun _ => rfl
theorem inxImplied : Statement (.inxImplied) := fun _ => rfl
theorem inyImplied : Statement (.inyImplied) := fun _ => rfl
theorem jmpAbsolute (a : Addr) : Statement (.jmpAbsolute a) := of_word .jmpAbsolute a fun _ => rfl
theorem jmpIndirect (a : Addr) : Statement (.jmpIndirect a) := of_word .jmpIndirect a fun _ => rfl
theorem jsrAbsolute (a : Addr) : Statement (.jsrAbsolute a) := of_word .jsrAbsolute a fun _ => rfl
theorem ldaImmediate (v : Byte) : Statement (.ldaImmediate v) := fun _ => rfl
theorem ldaZeroPage (z : Byte) : Statement (.ldaZeroPage z) := fun _ => rfl
theorem ldaZeroPageX (z : Byte) : Statement (.ldaZeroPageX z) := fun _ => rfl
theorem ldaAbsolute (a : Addr) : Statement (.ldaAbsolute a) := of_word .ldaAbsolute a fun _ => rfl
theorem ldaAbsoluteX (a : Addr) : Statement (.ldaAbsoluteX a) := of_word .ldaAbsoluteX a fun _ => rfl
theorem ldaAbsoluteY (a : Addr) : Statement (.ldaAbsoluteY a) := of_word .ldaAbsoluteY a fun _ => rfl
theorem ldaIndirectX (z : Byte) : Statement (.ldaIndirectX z) := fun _ => rfl
theorem ldaIndirectY (z : Byte) : Statement (.ldaIndirectY z) := fun _ => rfl
theorem ldxImmediate (v : Byte) : Statement (.ldxImmediate v) := fun _ => rfl
theorem ldxZeroPage (z : Byte) : Statement (.ldxZeroPage z) := fun _ => rfl
theorem ldxZeroPageY (z : Byte) : Statement (.ldxZeroPageY z) := fun _ => rfl
theorem ldxAbsolute (a : Addr) : Statement (.ldxAbsolute a) := of_word .ldxAbsolute a fun _ => rfl
theorem ldxAbsoluteY (a : Addr) : Statement (.ldxAbsoluteY a) := of_word .ldxAbsoluteY a fun _ => rfl
theorem ldyImmediate (v : Byte) : Statement (.ldyImmediate v) := fun _ => rfl
theorem ldyZeroPage (z : Byte) : Statement (.ldyZeroPage z) := fun _ => rfl
theorem ldyZeroPageX (z : Byte) : Statement (.ldyZeroPageX z) := fun _ => rfl
theorem ldyAbsolute (a : Addr) : Statement (.ldyAbsolute a) := of_word .ldyAbsolute a fun _ => rfl
theorem ldyAbsoluteX (a : Addr) : Statement (.ldyAbsoluteX a) := of_word .ldyAbsoluteX a fun _ => rfl
theorem lsrAccumulator : Statement (.lsrAccumulator) := fun _ => rfl
theorem lsrZeroPage (z : Byte) : Statement (.lsrZeroPage z) := fun _ => rfl
theorem lsrZeroPageX (z : Byte) : Statement (.lsrZeroPageX z) := fun _ => rfl
theorem lsrAbsolute (a : Addr) : Statement (.lsrAbsolute a) := of_word .lsrAbsolute a fun _ => rfl
theorem lsrAbsoluteX (a : Addr) : Statement (.lsrAbsoluteX a) := of_word .lsrAbsoluteX a fun _ => rfl
theorem nopImplied : Statement (.nopImplied) := fun _ => rfl
theorem oraImmediate (v : Byte) : Statement (.oraImmediate v) := fun _ => rfl
theorem oraZeroPage (z : Byte) : Statement (.oraZeroPage z) := fun _ => rfl
theorem oraZeroPageX (z : Byte) : Statement (.oraZeroPageX z) := fun _ => rfl
theorem oraAbsolute (a : Addr) : Statement (.oraAbsolute a) := of_word .oraAbsolute a fun _ => rfl
theorem oraAbsoluteX (a : Addr) : Statement (.oraAbsoluteX a) := of_word .oraAbsoluteX a fun _ => rfl
theorem oraAbsoluteY (a : Addr) : Statement (.oraAbsoluteY a) := of_word .oraAbsoluteY a fun _ => rfl
theorem oraIndirectX (z : Byte) : Statement (.oraIndirectX z) := fun _ => rfl
theorem oraIndirectY (z : Byte) : Statement (.oraIndirectY z) := fun _ => rfl
theorem phaImplied : Statement (.phaImplied) := fun _ => rfl
theorem phpImplied : Statement (.phpImplied) := fun _ => rfl
theorem plaImplied : Statement (.plaImplied) := fun _ => rfl
theorem plpImplied : Statement (.plpImplied) := fun _ => rfl
theorem rolAccumulator : Statement (.rolAccumulator) := fun _ => rfl
theorem rolZeroPage (z : Byte) : Statement (.rolZeroPage z) := fun _ => rfl
theorem rolZeroPageX (z : Byte) : Statement (.rolZeroPageX z) := fun _ => rfl
theorem rolAbsolute (a : Addr) : Statement (.rolAbsolute a) := of_word .rolAbsolute a fun _ => rfl
theorem rolAbsoluteX (a : Addr) : Statement (.rolAbsoluteX a) := of_word .rolAbsoluteX a fun _ => rfl
theorem rorAccumulator : Statement (.rorAccumulator) := fun _ => rfl
theorem rorZeroPage (z : Byte) : Statement (.rorZeroPage z) := fun _ => rfl
theorem rorZeroPageX (z : Byte) : Statement (.rorZeroPageX z) := fun _ => rfl
theorem rorAbsolute (a : Addr) : Statement (.rorAbsolute a) := of_word .rorAbsolute a fun _ => rfl
theorem rorAbsoluteX (a : Addr) : Statement (.rorAbsoluteX a) := of_word .rorAbsoluteX a fun _ => rfl
theorem rtiImplied : Statement (.rtiImplied) := fun _ => rfl
theorem rtsImplied : Statement (.rtsImplied) := fun _ => rfl
theorem sbcImmediate (v : Byte) : Statement (.sbcImmediate v) := fun _ => rfl
theorem sbcZeroPage (z : Byte) : Statement (.sbcZeroPage z) := fun _ => rfl
theorem sbcZeroPageX (z : Byte) : Statement (.sbcZeroPageX z) := fun _ => rfl
theorem sbcAbsolute (a : Addr) : Statement (.sbcAbsolute a) := of_word .sbcAbsolute a fun _ => rfl
theorem sbcAbsoluteX (a : Addr) : Statement (.sbcAbsoluteX a) := of_word .sbcAbsoluteX a fun _ => rfl
theorem sbcAbsoluteY (a : Addr) : Statement (.sbcAbsoluteY a) := of_word .sbcAbsoluteY a fun _ => rfl
theorem sbcIndirectX (z : Byte) : Statement (.sbcIndirectX z) := fun _ => rfl
theorem sbcIndirectY (z : Byte) : Statement (.sbcIndirectY z) := fun _ => rfl
theorem secImplied : Statement (.secImplied) := fun _ => rfl
theorem sedImplied : Statement (.sedImplied) := fun _ => rfl
theorem seiImplied : Statement (.seiImplied) := fun _ => rfl
theorem staZeroPage (z : Byte) : Statement (.staZeroPage z) := fun _ => rfl
theorem staZeroPageX (z : Byte) : Statement (.staZeroPageX z) := fun _ => rfl
theorem staAbsolute (a : Addr) : Statement (.staAbsolute a) := of_word .staAbsolute a fun _ => rfl
theorem staAbsoluteX (a : Addr) : Statement (.staAbsoluteX a) := of_word .staAbsoluteX a fun _ => rfl
theorem staAbsoluteY (a : Addr) : Statement (.staAbsoluteY a) := of_word .staAbsoluteY a fun _ => rfl
theorem staIndirectX (z : Byte) : Statement (.staIndirectX z) := fun _ => rfl
theorem staIndirectY (z : Byte) : Statement (.staIndirectY z) := fun _ => rfl
theorem stxZeroPage (z : Byte) : Statement (.stxZeroPage z) := fun _ => rfl
theorem stxZeroPageY (z : Byte) : Statement (.stxZeroPageY z) := fun _ => rfl
theorem stxAbsolute (a : Addr) : Statement (.stxAbsolute a) := of_word .stxAbsolute a fun _ => rfl
theorem styZeroPage (z : Byte) : Statement (.styZeroPage z) := fun _ => rfl
theorem styZeroPageX (z : Byte) : Statement (.styZeroPageX z) := fun _ => rfl
theorem styAbsolute (a : Addr) : Statement (.styAbsolute a) := of_word .styAbsolute a fun _ => rfl
theorem taxImplied : Statement (.taxImplied) := fun _ => rfl
theorem tayImplied : Statement (.tayImplied) := fun _ => rfl
theorem tsxImplied : Statement (.tsxImplied) := fun _ => rfl
theorem txaImplied : Statement (.txaImplied) := fun _ => rfl
theorem txsImplied : Statement (.txsImplied) := fun _ => rfl
theorem tyaImplied : Statement (.tyaImplied) := fun _ => rfl

end Sys2Proof.Laws.RoundTrip
end

