-- ==== Sys2Proof/Laws/Step.lean ====
section
/-! SUPPORT. What one step can do, said once (spec 40 rules R80 to R101). -/

namespace Sys2Proof.Machine

/-- R81, R82: the fetch runs the decoder on the bytes at pc. -/
theorem fetchInstr_of_decode {s : State} {i : Instr} {rest : List Byte} (h : decode (fetchBytes s) = .ok (i, rest)) :
    fetchInstr s = .ok i := by
  simp [fetchInstr, h]

theorem fetchInstr_ok {s : State} {i : Instr} (h : fetchInstr s = .ok i) :
    ∃ rest, decode (fetchBytes s) = .ok (i, rest) := by
  unfold fetchInstr at h
  split at h
  · rename_i rest heq
    injection h with h
    subst h
    exact ⟨rest, heq⟩
  · cases h

/-- R81: the only error of the fetch is InvalidOpcodeError with the byte at pc and its address. -/
theorem fetchInstr_error {s : State} {f : Fault} (h : fetchInstr s = .error f) :
    f = .invalidOpcode (memRead s s.pc) s.pc := by
  unfold fetchInstr at h
  split at h
  · cases h
  · injection h with h
    exact h.symm

/-- R81: the fetch fails exactly when the byte at pc is no opcode. -/
theorem fetchInstr_error_iff (s : State) :
    fetchInstr s = .error (.invalidOpcode (memRead s s.pc) s.pc) ↔ decodeOpcode (memRead s s.pc) = none := by
  unfold fetchInstr fetchBytes
  rw [decode_three]
  cases decodeOpcode (memRead s s.pc) with
  | none => simp
  | some sh => cases sh <;> simp

/-- R80: a step that completes fetched an instruction whose handler completed. -/
theorem engineStep_ok {s t : State} {brk : Bool} (h : engineStep s = .ok t brk) :
    ∃ i u, fetchInstr s = .ok i ∧ exec i (advance i s) = .next u ∧ t = endPhase (breakPhase i u) ∧ brk = isBreak i := by
  unfold engineStep at h
  split at h
  · cases h
  · rename_i i hi
    split at h
    · rename_i u hu
      injection h with h1 h2
      exact ⟨i, u, hi, hu, h1.symm, h2.symm⟩
    · cases h
    · cases h

/-- R101: a step that raises did so in the fetch, with the state unchanged, or in the handler, with pc advanced. -/
theorem engineStep_fault {s t : State} {f : Fault} (h : engineStep s = .fault f t) :
    (fetchInstr s = .error f ∧ t = s) ∨
    (∃ i, fetchInstr s = .ok i ∧ exec i (advance i s) = .fault f ∧ t = advance i s) := by
  unfold engineStep at h
  split at h
  · rename_i g hg
    injection h with h1 h2
    subst h1 h2
    exact .inl ⟨hg, rfl⟩
  · rename_i i hi
    split at h
    · cases h
    · rename_i g hg
      injection h with h1 h2
      subst h1 h2
      exact .inr ⟨i, hi, hg, rfl⟩
    · cases h

theorem engineStep_never_refused (s : State) (r : Refusal) : engineStep s ≠ .refused r := by
  unfold engineStep
  split
  · simp
  · rename_i i _
    split
    · simp
    · simp
    · rename_i r' hr
      exact absurd hr (exec_never_refused i _ r')

theorem engineStep_of_fetch {s u : State} {i : Instr} (hi : fetchInstr s = .ok i)
    (hu : exec i (advance i s) = .next u) : engineStep s = .ok (endPhase (breakPhase i u)) (isBreak i) := by
  simp [engineStep, hi, hu]

/-- `step` completes exactly when `engineStep` does. -/
theorem step_next {s t : State} : step s = .next t ↔ ∃ brk, engineStep s = .ok t brk := by
  unfold step
  cases engineStep s <;> simp

theorem step_fault {s : State} {f : Fault} : step s = .fault f ↔ ∃ t, engineStep s = .fault f t := by
  unfold step
  cases engineStep s <;> simp

/-- One step, said in terms of the instruction it ran: the inversion lemma of `step`. -/
theorem step_next_cases {s t : State} (h : step s = .next t) :
    ∃ i u, fetchInstr s = .ok i ∧ exec i (advance i s) = .next u ∧ t = endPhase (breakPhase i u) := by
  obtain ⟨brk, hb⟩ := step_next.1 h
  obtain ⟨i, u, hi, hu, ht, -⟩ := engineStep_ok hb
  exact ⟨i, u, hi, hu, ht⟩

/-- Everything a step does outside registers, flags and the counter. -/
theorem step_effect {s t : State} (h : step s = .next t) :
    t.cycles = nextCycles s.cfg.cycleWidth s.cycles ∧ t.run = s.run ∧ t.speedMs = s.speedMs ∧ t.cfg = s.cfg ∧
      ∃ i, fetchInstr s = .ok i ∧ ArrayEffect (advance i s) t := by
  obtain ⟨i, u, hi, hu, rfl⟩ := step_next_cases h
  obtain ⟨hc, hr, hs, hf, ha⟩ := exec_effect hu
  refine ⟨by simp [hc, hf], by simp [hr], by simp [hs], by simp [hf], i, hi, ?_⟩
  simpa [ArrayEffect] using ha

end Sys2Proof.Machine
end

