-- ==== Sys2Proof/Laws/Values.lean ====
section
/-! SUPPORT. The value arithmetic in terms of integers (spec 00 rules R3 to R12). -/

namespace Sys2Proof.Machine

/-- R6: a difference that is not negative is stored as it is. -/
theorem byteSub_nonneg (cfg : Config) (a b : Byte) (bin : Bool) (h : (0 : Int) ≤ (a.toNat : Int) - b.toNat - bin.toNat) :
    byteSub cfg a b bin = .ok {
      raw := (a.toNat : Int) - b.toNat - bin.toNat
      value := BitVec.ofNat 8 ((a.toNat : Int) - b.toNat - bin.toNat).toNat
      overflow := false } := by
  have hlt : (a.toNat : Int) - b.toNat - bin.toNat ≤ 255 := by have := a.isLt; omega
  have h1 : ¬ (a.toNat : Int) - b.toNat - bin.toNat > 255 := by omega
  have h2 : (a.toNat : Int) - b.toNat - bin.toNat ≥ 0 := h
  have h3 : ¬ (a.toNat : Int) - b.toNat - bin.toNat < 0 := by omega
  simp only [byteSub, byteOfInt, h1, if_neg, if_pos h2, not_false_eq_true]
  simp [h3]

/-- R6, R7: a difference from -127 to -1 is stored as sign and magnitude. -/
theorem byteSub_small (cfg : Config) (a b : Byte) (bin : Bool)
    (h : -127 ≤ (a.toNat : Int) - b.toNat - bin.toNat ∧ (a.toNat : Int) - b.toNat - bin.toNat < 0) :
    byteSub cfg a b bin = .ok {
      raw := (a.toNat : Int) - b.toNat - bin.toNat
      value := 0x80 + BitVec.ofNat 8 (-((a.toNat : Int) - b.toNat - bin.toNat)).toNat
      overflow := true } := by
  have h1 : ¬ (a.toNat : Int) - b.toNat - bin.toNat > 255 := by omega
  have h2 : ¬ (a.toNat : Int) - b.toNat - bin.toNat ≥ 0 := by omega
  have h3 : (-((a.toNat : Int) - b.toNat - bin.toNat)).toNat ≤ 127 := by omega
  simp only [byteSub, byteOfInt, negByte, h1, h2, h3, if_neg, if_true, not_false_eq_true]
  simp [h.2]

/-- R7: a difference of -128 or lower is what NEG_BYTE_WIDE says. -/
theorem byteSub_wide (cfg : Config) (a b : Byte) (bin : Bool) (h : (a.toNat : Int) - b.toNat - bin.toNat ≤ -128) :
    byteSub cfg a b bin = match cfg.negByteWide.lookup (-((a.toNat : Int) - b.toNat - bin.toNat)).toNat with
      | some v => .ok { raw := (a.toNat : Int) - b.toNat - bin.toNat, value := v, overflow := true }
      | none => .error (.valueRange ((a.toNat : Int) - b.toNat - bin.toNat)) := by
  have h1 : ¬ (a.toNat : Int) - b.toNat - bin.toNat > 255 := by omega
  have h2 : ¬ (a.toNat : Int) - b.toNat - bin.toNat ≥ 0 := by omega
  have h3 : ¬ (-((a.toNat : Int) - b.toNat - bin.toNat)).toNat ≤ 127 := by omega
  have h4 : (a.toNat : Int) - b.toNat - bin.toNat < 0 := by omega
  simp only [byteSub, byteOfInt, negByte, h1, h2, h3, if_false, h4, decide_true]
  cases List.lookup (-((a.toNat : Int) - b.toNat - bin.toNat)).toNat cfg.negByteWide <;> rfl

/-- Only a difference of -128 or lower raises, and what it raises is that difference. -/
theorem byteSub_error {cfg : Config} {a b : Byte} {bin : Bool} {f : Fault} (h : byteSub cfg a b bin = .error f) :
    (a.toNat : Int) - b.toNat - bin.toNat ≤ -128 ∧ f = .valueRange ((a.toNat : Int) - b.toNat - bin.toNat) := by
  by_cases h0 : (0 : Int) ≤ (a.toNat : Int) - b.toNat - bin.toNat
  · rw [byteSub_nonneg cfg a b bin h0] at h
    cases h
  · by_cases h1 : -127 ≤ (a.toNat : Int) - b.toNat - bin.toNat
    · rw [byteSub_small cfg a b bin ⟨h1, by omega⟩] at h
      cases h
    · have hw : (a.toNat : Int) - b.toNat - bin.toNat ≤ -128 := by omega
      rw [byteSub_wide cfg a b bin hw] at h
      split at h
      · cases h
      · injection h with h
        exact ⟨hw, h.symm⟩

/-- R12: the branch adjustment adds the integer that the Byte stands for, modulo 65536. -/
theorem addrSignedAdd_eq (a : Addr) (b : Byte) :
    addrSignedAdd a b = BitVec.ofInt 16 ((a.toNat : Int) + signMagnitude b) := by
  apply BitVec.eq_of_toNat_eq
  have hb := b.isLt
  have ha := a.isLt
  rw [BitVec.toNat_ofInt]
  unfold addrSignedAdd signMagnitude
  split
  · have hmod : (b &&& 0x7F).toNat = b.toNat % 128 := by
      rw [BitVec.toNat_and]
      exact Nat.and_two_pow_sub_one_eq_mod b.toNat 7
    rw [BitVec.toNat_sub, zext16_toNat, hmod]
    omega
  · rw [BitVec.toNat_add, zext16_toNat]
    omega

/-- R7: sign bit plus magnitude, as one number. -/
theorem signed_byte_eq (n : Nat) : (0x80 : Byte) + BitVec.ofNat 8 n = BitVec.ofNat 8 (128 + n) := by
  rw [show (0x80 : Byte) = BitVec.ofNat 8 128 from rfl, BitVec.ofNat_add]

/-- R7: a re-encoded negative difference has its sign bit set. -/
theorem bit7_of_ge {n : Nat} (h : 128 ≤ n) (hn : n < 256) : (BitVec.ofNat 8 n).getLsbD 7 = true := by
  rw [BitVec.getLsbD_ofNat, Nat.testBit_eq_decide_div_mod_eq]
  simp
  omega

/-- R130: the carry that goes into ADC, as a number. -/
theorem carryIn_toNat (s : State) : (carryIn s).toNat = if s.cfg.arithCarryIn then s.flags.c.toNat else 0 := by
  unfold carryIn
  cases s.cfg.arithCarryIn <;> rfl

/-- R131: the borrow that goes into SBC, as a number. -/
theorem borrowIn_toNat (s : State) :
    ((borrowIn s).toNat : Int) = if s.cfg.arithCarryIn then 1 - (s.flags.c.toNat : Int) else 0 := by
  unfold borrowIn
  cases s.cfg.arithCarryIn <;> cases s.flags.c <;> simp

@[simp] theorem byteInc_value (b : Byte) : (byteInc b).value = b + 1 := rfl

@[simp] theorem byteDec_value (b : Byte) : (byteDec b).value = b - 1 := rfl

/-- R42: a little-endian pointer as a number. -/
theorem readPointer_toNat (s : State) (a : Addr) :
    (readPointer s a).toNat = (memRead s a).toNat + 256 * (memRead s (a + 1)).toNat := by
  simp [readPointer, mkAddr_toNat, addrInc]
  omega

end Sys2Proof.Machine
end

