-- ==== Sys2Proof/Tests/Slice0.lean ====
section
/-! SUPPORT. The model's own tests: the smoke test of the syntax checks, decoding of words written out from the spec's
table, one or two steps per instruction against the vectors of spec 95 (expected values are the spec's), a few vectors
of the assembler and of the host's moves, and for each obligation with hypotheses a witness that meets them. -/

namespace Sys2Proof.Machine

/-! ## Syntax checks (R62, R68) -/

theorem smoke_accepts_sta_zeroPage : Instruction.wf ⟨.sta, .zeroPage, [0x10]⟩ = true := by decide

/-- R68: STA has no immediate form. -/
theorem smoke_refuses_illegal_mode : Instruction.wf ⟨.sta, .immediate, [0x10]⟩ = false := by decide

/-- R62: immediate has one operand byte. -/
theorem smoke_refuses_extra_operand_byte : Instruction.wf ⟨.lda, .immediate, [0x10, 0x20]⟩ = false := by decide

/-- R62: absolute has two operand bytes. -/
theorem smoke_refuses_missing_operand_byte : Instruction.wf ⟨.jmp, .absolute, [0x10]⟩ = false := by decide

/-- R64, R68: the opcode table lists for each mnemonic exactly the modes it has. -/
theorem smoke_modes_are_those_with_an_opcode : ∀ m : Mnemonic, (opcodesOf m).map (fun e => e.1) = m.modes := by
  intro m
  cases m <;> rfl

/-! ## Decoding (R60 to R66); words from spec/opcode_table.json's encodings and the vectors' bytes -/

theorem test_decode_load : decode [0xA9, 0x02, 0x85] = .ok (.ldaImmediate 0x02, [0x85]) := rfl
theorem test_decode_store : decode [0x85, 0x00] = .ok (.staZeroPage 0x00, []) := rfl
theorem test_decode_transfer : decode [0x9A] = .ok (.txsImplied, []) := rfl
theorem test_decode_arithmetic : decode [0x7D, 0x00, 0x07] = .ok (.adcAbsoluteX 0x0700, []) := rfl
theorem test_decode_compare : decode [0xC4, 0x10] = .ok (.cpyZeroPage 0x10, []) := rfl
theorem test_decode_increment : decode [0xF6, 0xF0] = .ok (.incZeroPageX 0xF0, []) := rfl
theorem test_decode_logic : decode [0x2C, 0x00, 0x03] = .ok (.bitAbsolute 0x0300, []) := rfl
theorem test_decode_shift : decode [0x6A] = .ok (.rorAccumulator, []) := rfl
theorem test_decode_branch : decode [0x90, 0xFD] = .ok (.bccRelative 0xFD, []) := rfl
theorem test_decode_jump : decode [0x6C, 0xFF, 0x02] = .ok (.jmpIndirect 0x02FF, []) := rfl
theorem test_decode_call : decode [0x20, 0x01, 0x06] = .ok (.jsrAbsolute 0x0601, []) := rfl
theorem test_decode_stack : decode [0x48] = .ok (.phaImplied, []) := rfl
theorem test_decode_system : decode [0x00, 0xFF] = .ok (.brkImplied, [0xFF]) := rfl

/-- R66, vectors F2 and F3. -/
theorem test_decode_rejects_by_name :
    decode [0xFF] = .error (.invalidOpcode 0xFF) ∧ decode [0x80, 0x00] = .error (.invalidOpcode 0x80) := ⟨rfl, rfl⟩

/-- An instruction without all its operand bytes does not decode. -/
theorem test_decode_truncated : decode [0xAD, 0x00] = .error .truncated ∧ decode [] = .error .truncated := ⟨rfl, rfl⟩

/-- spec/opcode_table.json numbers the operand bytes from bit 8 up. -/
theorem test_table_word : decodeTableWord 24 0x0300BD = some (.ldaAbsoluteX 0x0300) ∧
    decodeTableWord 8 0xBD = some (.ldaAbsoluteX 0x0000) ∧ decodeTableWord 8 0x02 = none := ⟨rfl, rfl, rfl⟩

/-- The next step after `withFetchWord` runs that instruction, from reset. -/
theorem test_withFetchWord : fetchInstr (State.reset.withFetchWord 16 0x05C6) = .ok (.decZeroPage 0x05) := by rfl

/-! ## One step per instruction: the vectors of spec 95 sections 2 to 7 -/

/-- The bytes of a list from an address on, wrapping at the top (R54). -/
def place (origin : Addr) : List Byte → State → State
  | [], s => s
  | v :: rest, s => place (addrInc origin) rest (writeMemory origin v s)

/-- The state with the bytes of an instruction at `origin` and pc there. -/
def ready (origin : Addr) (bytes : List Byte) (s : State) : State := setProgramCounter origin (place origin bytes s)

/-- Whether the next step completes in a state that passes `check`. -/
def stepsTo (s : State) (check : State → Bool) : Bool :=
  match step s with
  | .next t => check t
  | _ => false

theorem next_of_stepsTo {s : State} {check : State → Bool} (h : stepsTo s check = true) :
    ∃ t, step s = .next t ∧ check t = true := by
  unfold stepsTo at h
  split at h
  · exact ⟨_, ‹_›, h⟩
  · cases h

/-- Vector A3. -/
theorem test_lda_a3 : stepsTo
    (ready 0x0600 [0xB5, 0x80] { State.reset with x := 0xFF, mem := [(0x007F, 0x99), (0x017F, 0x42)] })
    (fun t => t.a == 0x42 && t.flags.z == false && t.flags.n == false && t.pc == 0x0602 && t.cycles == 1) = true := by
  decide

/-- Vector A6. -/
theorem test_lda_a6 : stepsTo
    (ready 0x0600 [0xA1, 0xFF] { State.reset with x := 0x00, mem := [(0x0100, 0x03), (0x0300, 0x66)] })
    (fun t => t.a == 0x66 && t.pc == 0x0602 && t.cycles == 1) = true := by
  decide

/-- Vector A8. -/
theorem test_ldx_a8 : stepsTo
    (ready 0x0600 [0xB6, 0x10] { State.reset with y := 0xF0, mem := [(0x0100, 0x80)] })
    (fun t => t.x == 0x80 && t.flags.z == false && t.flags.n == true && t.pc == 0x0602 && t.cycles == 1) = true := by
  decide

/-- Vector A9. -/
theorem test_ldy_a9 : stepsTo
    (ready 0x0600 [0xA0, 0x7F] State.reset)
    (fun t => t.y == 0x7F && t.flags.z == false && t.flags.n == false && t.pc == 0x0602 && t.cycles == 1) = true := by
  decide

/-- Vector A10. -/
theorem test_sta_a10 : stepsTo
    (ready 0x0600 [0x8D, 0x00, 0x02] { State.reset with a := 0x80, flags := { Flags.clear with z := true } })
    (fun t => t.pc == 0x0603 && t.flags.z == true && t.flags.n == false && memRead t 0x0200 == 0x80 && t.cycles == 1) = true := by
  decide

/-- Vector A11. -/
theorem test_sta_a11 : stepsTo
    (ready 0x0600 [0x91, 0x20] { State.reset with a := 0xAB, y := 0x10, mem := [(0x0020, 0xF8), (0x0021, 0x03)] })
    (fun t => memRead t 0x0408 == 0xAB && t.pc == 0x0602 && t.cycles == 1) = true := by
  decide

/-- Vector A12. -/
theorem test_stx_a12 : stepsTo
    (ready 0x0600 [0x96, 0x10] { State.reset with x := 0x07, y := 0xFF })
    (fun t => memRead t 0x010F == 0x07 && t.pc == 0x0602 && t.cycles == 1) = true := by
  decide

/-- Vector A13. -/
theorem test_sty_a13 : stepsTo
    (ready 0x0600 [0x84, 0x00] { State.reset with y := 0x00, mem := [(0x0000, 0xEE)] })
    (fun t => t.flags.z == false && memRead t 0x0000 == 0x00 && t.pc == 0x0602 && t.cycles == 1) = true := by
  decide

/-- Vector A14. -/
theorem test_tax_a14 : stepsTo
    (ready 0x0600 [0xAA] { State.reset with a := 0x00, x := 0x05 })
    (fun t => t.x == 0x00 && t.flags.z == true && t.flags.n == false && t.pc == 0x0601 && t.cycles == 1) = true := by
  decide

/-- Vector A15. -/
theorem test_tay_a15 : stepsTo
    (ready 0x0600 [0xA8] { State.reset with a := 0xF0 })
    (fun t => t.y == 0xF0 && t.flags.z == false && t.flags.n == true && t.pc == 0x0601 && t.cycles == 1) = true := by
  decide

/-- Vector A16. -/
theorem test_txa_a16 : stepsTo
    (ready 0x0600 [0x8A] { State.reset with x := 0x7F, flags := { Flags.clear with n := true } })
    (fun t => t.a == 0x7F && t.flags.z == false && t.flags.n == false && t.pc == 0x0601 && t.cycles == 1) = true := by
  decide

/-- Vector A17. -/
theorem test_tya_a17 : stepsTo
    (ready 0x0600 [0x98] { State.reset with y := 0x00, a := 0x09 })
    (fun t => t.a == 0x00 && t.flags.z == true && t.pc == 0x0601 && t.cycles == 1) = true := by
  decide

/-- Vector A18. -/
theorem test_tsx_a18 : stepsTo
    (ready 0x0600 [0xBA] { State.reset with sp := 0xFF })
    (fun t => t.x == 0xFF && t.sp == 0xFF && t.flags.z == false && t.flags.n == true && t.pc == 0x0601 && t.cycles == 1) = true := by
  decide

/-- Vector A19. -/
theorem test_txs_a19 : stepsTo
    (ready 0x0600 [0x9A] { State.reset with x := 0x00, sp := 0x05 })
    (fun t => t.sp == 0x00 && t.flags.z == false && t.flags.n == false && t.pc == 0x0601 && t.cycles == 1) = true := by
  decide

/-- Vector B1. -/
theorem test_adc_b1 : stepsTo
    (ready 0x0600 [0x69, 0x80] { State.reset with a := 0x80, flags := { Flags.clear with c := false } })
    (fun t => t.a == 0x00 && t.flags.c == true && t.flags.v == true && t.flags.n == false && t.flags.z == true && t.pc == 0x0602 && t.cycles == 1) = true := by
  decide

/-- Vector B4. -/
theorem test_adc_b4 : stepsTo
    (ready 0x0600 [0x69, 0x00] { State.reset with a := 0xFF, flags := { Flags.clear with c := true } })
    (fun t => t.a == 0x00 && t.flags.c == true && t.flags.v == true && t.flags.n == false && t.flags.z == true && t.pc == 0x0602 && t.cycles == 1) = true := by
  decide

/-- Vector B11. -/
theorem test_sbc_b11 : stepsTo
    (ready 0x0600 [0xE9, 0x01] { State.reset with a := 0x00, flags := { Flags.clear with c := true } })
    (fun t => t.a == 0x81 && t.flags.c == false && t.flags.v == true && t.flags.n == true && t.flags.z == false && t.pc == 0x0602 && t.cycles == 1) = true := by
  decide

/-- Vector B21: only pc has moved at the fault (R101). -/
theorem test_sbc_b21 :
    engineStep (ready 0x0600 [0xE9, 0x90] { State.reset with a := 0x10, flags := { Flags.clear with c := true } }) =
      .fault (.valueRange (-128)) (setProgramCounter 0x0602 (ready 0x0600 [0xE9, 0x90] { State.reset with a := 0x10, flags := { Flags.clear with c := true } })) := by
  decide

/-- Vector B30. -/
theorem test_cmp_b30 : stepsTo
    (ready 0x0600 [0xC9, 0x02] { State.reset with a := 0x01, flags := { Flags.clear with v := true } })
    (fun t => t.a == 0x01 && t.flags.c == false && t.flags.z == false && t.flags.n == true && t.flags.v == true && t.pc == 0x0602 && t.cycles == 1) = true := by
  decide

/-- Vector B36: only pc has moved at the fault (R101). -/
theorem test_cmp_b36 :
    engineStep (ready 0x0600 [0xC9, 0x80] { State.reset with a := 0x00, flags := { Flags.clear with v := true, c := true } }) =
      .fault (.valueRange (-128)) (setProgramCounter 0x0602 (ready 0x0600 [0xC9, 0x80] { State.reset with a := 0x00, flags := { Flags.clear with v := true, c := true } })) := by
  decide

/-- Vector B40. -/
theorem test_cpx_b40 : stepsTo
    (ready 0x0600 [0xE0, 0x01] { State.reset with x := 0x00 })
    (fun t => t.flags.c == false && t.flags.z == false && t.flags.n == true && t.pc == 0x0602 && t.cycles == 1) = true := by
  decide

/-- Vector B41. -/
theorem test_cpy_b41 : stepsTo
    (ready 0x0600 [0xC0, 0x08] { State.reset with y := 0x10 })
    (fun t => t.flags.c == true && t.flags.z == false && t.flags.n == false && t.pc == 0x0602 && t.cycles == 1) = true := by
  decide

/-- Vector B52. -/
theorem test_inc_b52 : stepsTo
    (ready 0x0600 [0xF6, 0xF0] { State.reset with x := 0x20 })
    (fun t => t.flags.z == false && t.flags.n == false && memRead t 0x0110 == 0x01 && t.pc == 0x0602 && t.cycles == 1) = true := by
  decide

/-- Vector B54. -/
theorem test_dec_b54 : stepsTo
    (ready 0x0600 [0xCE, 0x00, 0x02] { State.reset with mem := [] })
    (fun t => t.pc == 0x0603 && t.flags.z == false && t.flags.n == true && memRead t 0x0200 == 0xFF && t.cycles == 1) = true := by
  decide

/-- Vector B55. -/
theorem test_inx_b55 : stepsTo
    (ready 0x0600 [0xE8] { State.reset with x := 0xFF })
    (fun t => t.x == 0x00 && t.flags.z == true && t.flags.n == false && t.pc == 0x0601 && t.cycles == 1) = true := by
  decide

/-- Vector B57. -/
theorem test_iny_b57 : stepsTo
    (ready 0x0600 [0xC8] { State.reset with y := 0x00 })
    (fun t => t.y == 0x01 && t.flags.z == false && t.flags.n == false && t.pc == 0x0601 && t.cycles == 1) = true := by
  decide

/-- Vector B58. -/
theorem test_dex_b58 : stepsTo
    (ready 0x0600 [0xCA] { State.reset with x := 0x00 })
    (fun t => t.x == 0xFF && t.flags.z == false && t.flags.n == true && t.pc == 0x0601 && t.cycles == 1) = true := by
  decide

/-- Vector B60. -/
theorem test_dey_b60 : stepsTo
    (ready 0x0600 [0x88] { State.reset with y := 0x80 })
    (fun t => t.y == 0x7F && t.flags.z == false && t.flags.n == false && t.pc == 0x0601 && t.cycles == 1) = true := by
  decide

/-- Vector C1. -/
theorem test_and_c1 : stepsTo
    (ready 0x0600 [0x29, 0x3C] { State.reset with a := 0xF0 })
    (fun t => t.a == 0x30 && t.flags.z == false && t.flags.n == false && t.pc == 0x0602 && t.cycles == 1) = true := by
  decide

/-- Vector C3. -/
theorem test_ora_c3 : stepsTo
    (ready 0x0600 [0x09, 0x80] { State.reset with a := 0x0F })
    (fun t => t.a == 0x8F && t.flags.z == false && t.flags.n == true && t.pc == 0x0602 && t.cycles == 1) = true := by
  decide

/-- Vector C5. -/
theorem test_eor_c5 : stepsTo
    (ready 0x0600 [0x49, 0xFF] { State.reset with a := 0xAA })
    (fun t => t.a == 0x55 && t.flags.z == false && t.flags.n == false && t.pc == 0x0602 && t.cycles == 1) = true := by
  decide

/-- Vector C7. -/
theorem test_bit_c7 : stepsTo
    (ready 0x0600 [0x24, 0x20] { State.reset with a := 0x01, mem := [(0x0020, 0xC0)] })
    (fun t => t.a == 0x01 && t.flags.z == true && t.flags.n == true && t.flags.v == true && t.pc == 0x0602 && t.cycles == 1) = true := by
  decide

/-- Vector C10. -/
theorem test_asl_c10 : stepsTo
    (ready 0x0600 [0x0A] { State.reset with a := 0x81, flags := { Flags.clear with c := true } })
    (fun t => t.a == 0x02 && t.flags.c == true && t.flags.z == false && t.flags.n == false && t.pc == 0x0601 && t.cycles == 1) = true := by
  decide

/-- Vector C24. -/
theorem test_asl_c24 : stepsTo
    (ready 0x0600 [0x16, 0x10] { State.reset with x := 0xF8, mem := [(0x0108, 0x55)] })
    (fun t => t.flags.c == false && t.flags.z == false && t.flags.n == true && memRead t 0x0108 == 0xAA && t.pc == 0x0602 && t.cycles == 1) = true := by
  decide

/-- Vector C14. -/
theorem test_lsr_c14 : stepsTo
    (ready 0x0600 [0x4A] { State.reset with a := 0xFF, flags := { Flags.clear with c := true } })
    (fun t => t.a == 0x7F && t.flags.c == true && t.flags.z == false && t.flags.n == false && t.pc == 0x0601 && t.cycles == 1) = true := by
  decide

/-- Vector C16. -/
theorem test_rol_c16 : stepsTo
    (ready 0x0600 [0x2A] { State.reset with a := 0x80, flags := { Flags.clear with c := true } })
    (fun t => t.a == 0x01 && t.flags.c == true && t.flags.z == false && t.flags.n == false && t.pc == 0x0601 && t.cycles == 1) = true := by
  decide

/-- Vector C23. -/
theorem test_ror_c23 : stepsTo
    (ready 0x0600 [0x66, 0x10] { State.reset with flags := { Flags.clear with c := true }, mem := [(0x0010, 0x02)] })
    (fun t => t.a == 0x00 && t.flags.c == false && t.flags.z == false && t.flags.n == true && memRead t 0x0010 == 0x81 && t.pc == 0x0602 && t.cycles == 1) = true := by
  decide

/-- Vector D1. -/
theorem test_bne_d1 : stepsTo
    (ready 0x0604 [0xD0, 0x02] { State.reset with flags := { Flags.clear with z := false } })
    (fun t => t.pc == 0x0608 && t.cycles == 1) = true := by
  decide

/-- Vector D2. -/
theorem test_bne_d2 : stepsTo
    (ready 0x0604 [0xD0, 0x02] { State.reset with flags := { Flags.clear with z := true } })
    (fun t => t.pc == 0x0606 && t.cycles == 1) = true := by
  decide

/-- Vector D3. -/
theorem test_bcs_d3 : stepsTo
    (ready 0x0604 [0xB0, 0x83] { State.reset with flags := { Flags.clear with c := true } })
    (fun t => t.pc == 0x0603 && t.cycles == 1) = true := by
  decide

/-- Vector D4. -/
theorem test_beq_d4 : stepsTo
    (ready 0x0604 [0xF0, 0x80] { State.reset with flags := { Flags.clear with z := true } })
    (fun t => t.pc == 0x0606 && t.cycles == 1) = true := by
  decide

/-- Vector D6. -/
theorem test_bmi_d6 : stepsTo
    (ready 0x01FE [0x30, 0xFF] { State.reset with flags := { Flags.clear with n := true } })
    (fun t => t.pc == 0x0181 && t.cycles == 1) = true := by
  decide

/-- Vector D7. -/
theorem test_bpl_d7 : stepsTo
    (ready 0xFFFF [0x10, 0x85] { State.reset with flags := { Flags.clear with n := false } })
    (fun t => t.pc == 0xFFFC && t.cycles == 1) = true := by
  decide

/-- Vector D8. -/
theorem test_bvs_d8 : stepsTo
    (ready 0xFFFC [0x70, 0x04] { State.reset with flags := { Flags.clear with v := true } })
    (fun t => t.pc == 0x0002 && t.cycles == 1) = true := by
  decide

/-- Vector D9. -/
theorem test_bvc_d9 : stepsTo
    (ready 0x06FE [0x50, 0x10] { State.reset with flags := { Flags.clear with v := false } })
    (fun t => t.pc == 0x0710 && t.cycles == 1) = true := by
  decide

/-- Vector D10. -/
theorem test_bcc_d10 : stepsTo
    (ready 0x0604 [0x90, 0xFD] { State.reset with flags := { Flags.clear with c := false } })
    (fun t => t.pc == 0x0589 && t.cycles == 1) = true := by
  decide

/-- Vector D20. -/
theorem test_jmp_d20 : stepsTo
    (ready 0x0700 [0x4C, 0x00, 0x06] State.reset)
    (fun t => t.pc == 0x0600 && t.cycles == 1) = true := by
  decide

/-- Vector D21. -/
theorem test_jmp_d21 : stepsTo
    (ready 0x0700 [0x6C, 0xFF, 0x02] { State.reset with mem := [(0x0200, 0x99), (0x02FF, 0x34), (0x0300, 0x12)] })
    (fun t => t.pc == 0x1234 && t.cycles == 1) = true := by
  decide

/-- Vector D23. -/
theorem test_jsr_d23 : stepsTo
    (ready 0x00FF [0x20, 0x01, 0x06] { State.reset with sp := 0x00 })
    (fun t => t.sp == 0x02 && t.pc == 0x0601 && stackRead t 0x01 == 0x01 && stackRead t 0x02 == 0x02 && t.cycles == 1) = true := by
  decide

/-- Vector D25. -/
theorem test_rts_d25 : stepsTo
    (ready 0x0600 [0x60] { State.reset with sp := 0x02, stack := [(0x0001, 0x01), (0x0002, 0x02)] })
    (fun t => t.sp == 0x00 && t.pc == 0x0102 && t.cycles == 1) = true := by
  decide

/-- Vector D27. -/
theorem test_rti_d27 : stepsTo
    (ready 0x0600 [0x40] { State.reset with sp := 0x03, stack := [(0x0001, 0x06), (0x0002, 0x10), (0x0003, 0x81)] })
    (fun t => t.sp == 0x00 && t.pc == 0x0610 && t.flags.c == true && t.flags.n == true && t.cycles == 1) = true := by
  decide

/-- Vector E1. -/
theorem test_pha_e1 : stepsTo
    (ready 0x0600 [0x48] { State.reset with a := 0xAA })
    (fun t => t.sp == 0x01 && memRead t 0x0101 == 0x00 && stackRead t 0x01 == 0xAA && t.pc == 0x0601 && t.cycles == 1) = true := by
  decide

/-- Vector E3. -/
theorem test_php_e3 : stepsTo
    (ready 0x0600 [0x08] { State.reset with flags := { Flags.clear with c := true, n := true } })
    (fun t => t.sp == 0x01 && stackRead t 0x01 == 0x81 && t.pc == 0x0601 && t.cycles == 1) = true := by
  decide

/-- Vector E6. -/
theorem test_pla_e6 : stepsTo
    (ready 0x0600 [0x68] { State.reset with sp := 0x01, stack := [(0x0001, 0x80)] })
    (fun t => t.a == 0x80 && t.sp == 0x00 && t.flags.z == false && t.flags.n == true && t.pc == 0x0601 && t.cycles == 1) = true := by
  decide

/-- Vector E8. -/
theorem test_plp_e8 : stepsTo
    (ready 0x0600 [0x28] { State.reset with sp := 0x01, stack := [(0x0001, 0xC3)] })
    (fun t => t.sp == 0x00 && t.flags.c == true && t.flags.z == true && t.flags.i == false && t.flags.d == false && t.flags.b == false && t.flags.v == true && t.flags.n == true && t.pc == 0x0601 && t.cycles == 1) = true := by
  decide

/-- Vector E11. -/
theorem test_clc_e11 : stepsTo
    (ready 0x0600 [0x18] { State.reset with flags := { Flags.clear with c := true } })
    (fun t => t.flags.c == false && t.pc == 0x0601 && t.cycles == 1) = true := by
  decide

/-- Vector E12. -/
theorem test_sec_e12 : stepsTo
    (ready 0x0600 [0x38] { State.reset with flags := { Flags.clear with c := false } })
    (fun t => t.flags.c == true && t.pc == 0x0601 && t.cycles == 1) = true := by
  decide

/-- Vector E13. -/
theorem test_cli_e13 : stepsTo
    (ready 0x0600 [0x58] { State.reset with flags := { Flags.clear with i := true } })
    (fun t => t.flags.i == false && t.pc == 0x0601 && t.cycles == 1) = true := by
  decide

/-- Vector E14. -/
theorem test_sei_e14 : stepsTo
    (ready 0x0600 [0x78] { State.reset with flags := { Flags.clear with i := false } })
    (fun t => t.flags.i == true && t.pc == 0x0601 && t.cycles == 1) = true := by
  decide

/-- Vector E15. -/
theorem test_cld_e15 : stepsTo
    (ready 0x0600 [0xD8] { State.reset with flags := { Flags.clear with d := true } })
    (fun t => t.flags.d == false && t.pc == 0x0601 && t.cycles == 1) = true := by
  decide

/-- Vector E16. -/
theorem test_sed_e16 : stepsTo
    (ready 0x0600 [0xF8] { State.reset with flags := { Flags.clear with d := false } })
    (fun t => t.flags.d == true && t.pc == 0x0601 && t.cycles == 1) = true := by
  decide

/-- Vector E17. -/
theorem test_clv_e17 : stepsTo
    (ready 0x0600 [0xB8] { State.reset with flags := { Flags.clear with v := true } })
    (fun t => t.flags.v == false && t.pc == 0x0601 && t.cycles == 1) = true := by
  decide

/-- Vector E18. -/
theorem test_nop_e18 : stepsTo
    (ready 0x0600 [0xEA] State.reset)
    (fun t => t.pc == 0x0601 && t.cycles == 1) = true := by
  decide

/-- Vector E19. -/
theorem test_brk_e19 : stepsTo
    (ready 0x0608 [0x00] { State.reset with flags := { Flags.clear with i := false } })
    (fun t => t.sp == 0x00 && t.pc == 0x0609 && t.flags.b == true && t.flags.i == false && t.cycles == 1) = true := by
  decide

/-- Vector F1. -/
theorem test_undecodable_f1 : engineStep (ready 0x0600 [0x02] State.reset) =
    .fault (.invalidOpcode 0x02 0x0600) (ready 0x0600 [0x02] State.reset) := by
  decide

/-- Vector E19: the step reports the break signal. -/
theorem test_brk_signal : engineStep (ready 0x0608 [0x00] State.reset) =
    .ok { State.reset with pc := 0x0609, cycles := 1, flags := { Flags.clear with b := true } } true := by
  decide

/-! ## The other parameter values (spec 00 section 4), each on the vector that shows it -/

/-- ZP_INDEX_WRAP on vector A3. -/
theorem test_zp_index_wrap : stepsTo (ready 0x0600 [0xB5, 0x80]
      { State.reset with x := 0xFF, mem := [(0x007F, 0x99), (0x017F, 0x42)], cfg := { Config.default with zpIndexWrap := true } })
    (fun t => t.a == 0x99 && t.flags.n == true) = true := by
  decide

/-- ARITH_CARRY_IN false on vector B4. -/
theorem test_arith_carry_in : stepsTo (ready 0x0600 [0x69, 0x00]
      { State.reset with a := 0xFF, flags := { Flags.clear with c := true }, cfg := { Config.default with arithCarryIn := false } })
    (fun t => t.a == 0xFF && t.flags.c == false && t.flags.v == false && t.flags.n == true) = true := by
  decide

/-- STACK_ALIASED: program P5's remark on its step 6. -/
theorem test_stack_aliased : stepsTo (ready 0x0600 [0x48]
      { State.reset with a := 0x81, cfg := { Config.default with stackAliased := true } })
    (fun t => memRead t 0x0101 == 0x81 && t.sp == 0x01 && t.stack == []) = true := by
  decide

/-- NEG_BYTE_WIDE with a byte for -128, on vector B36: the compare completes (R7). -/
theorem test_neg_byte_wide : stepsTo (ready 0x0600 [0xC9, 0x80]
      { State.reset with cfg := { Config.default with negByteWide := [(128, 0x80)] } })
    (fun t => t.flags.c == false && t.flags.z == false && t.flags.n == true) = true := by
  decide

/-- Vectors K3 and K4 with STATUS_BIT5. -/
theorem test_status_bit5 : flagsToByte { Config.default with statusBit5 := true } Flags.clear = 0x20 ∧
    flagsToByte Config.default ⟨true, true, true, true, true, true, true⟩ = 0xDF ∧ byteToFlags 0x20 = Flags.clear := by
  decide

/-! ## Host moves and the loop (vectors K10, K24, K27) -/

/-- Vector K10. -/
theorem test_host_reset : hostMove .reset
      { State.reset with a := 0x12, x := 0x34, y := 0x56, sp := 0x78, pc := 0x0604, cycles := 9, run := .paused, stack := [(1, 0xAA)], mem := [(0x0200, 0x55)] } =
    some { State.reset with run := .paused, mem := [(0x0200, 0x55)] } := by
  decide

/-- Vector K24, the default: the tick sees B = 1 and steps nothing. -/
theorem test_loop_stops_on_flag : tick { State.reset with run := .running, flags := { Flags.clear with b := true } } =
    .noStep { State.reset with run := .idle, flags := { Flags.clear with b := true } } := by
  decide

/-- Vector K27. -/
theorem test_crashed_tick : tick { ready 0x0600 [0x02] State.reset with run := .running } =
    .crashed (.invalidOpcode 0x02 0x0600) { ready 0x0600 [0x02] State.reset with run := .idle } := by
  decide

/-! ## The assembler (spec 95 section 9) -/

/-- Whether a source assembles at 0x0600 to these bytes. -/
def assemblesTo (source : Text) (bytes : List Byte) : Bool :=
  match assembleText .hexadecimal source 0x0600 with
  | .ok b => b == bytes
  | .error _ => false

/-- Whether a source fails at an origin with this cause at this line. -/
def failsAt (origin : Addr) (source : Text) (cause : AsmCause) (line : Nat) : Bool :=
  match assembleText .hexadecimal source origin with
  | .ok _ => false
  | .error e => e.cause == cause && e.line == line

/-- Vector AS1 (the source's own example). -/
theorem test_as1 : assemblesTo "LDA #$02\nSTA $00".toList [0xA9, 0x02, 0x85, 0x00] = true := by decide

/-- Vector AS2 (the source's own example): a forward branch. -/
theorem test_as2 : assemblesTo "LDA #$01\nCMP #$02\nBNE notequal\nSTA $22\nnotequal:\nBRK".toList
    [0xA9, 0x01, 0xC9, 0x02, 0xD0, 0x02, 0x85, 0x22, 0x00] = true := by decide

/-- Vector AS7: constants behind each sigil. -/
theorem test_as7 : assemblesTo "define five $05\nLDA #five\nLDA five\ndefine port 0200\nSTA $port".toList
    [0xA9, 0x05, 0xA5, 0x05, 0x8D, 0x00, 0x02] = true := by decide

/-- Vector AS12: a backward branch is sign and magnitude. -/
theorem test_as12 : assemblesTo "top:\nNOP\nBNE top".toList [0xEA, 0xD0, 0x83] = true := by decide

/-- Vector AS28: pass 1.5 fails before pass 2 sees the mnemonic. -/
theorem test_as28 : failsAt 0x0600 "loop: DEX".toList .undefinedReference 1 = true := by decide

/-- Vector AS33: STA has no immediate form. -/
theorem test_as33 : failsAt 0x0600 "STA #$01".toList .addressing 1 = true := by decide

/-- Vector AS40: a literal displacement above 0x7F, and the integer the error records (R253). -/
theorem test_as40 : failsAt 0x0600 "BNE *+80".toList (.valueRange 128) 1 = true := by decide

/-- Vector AS26: the label's address is 0xFFFD + 4. -/
theorem test_as26 : failsAt 0xFFFD "NOP\nJMP e\ne:".toList (.valueRange 0x10001) 2 = true := by decide

/-! ## Witnesses: a state and operands that meet the hypotheses of each obligation -/

theorem witness_EncodeInvertsDecode : decode [0xA9, 0x02, 0x85] = .ok (.ldaImmediate 0x02, [0x85]) := rfl

/-- Both clauses: a byte that is no Command, and one that is. -/
theorem witness_UndecodableOpcodeRaisesUnchanged :
    decodeCommand (memRead (ready 0x0600 [0x02] State.reset) 0x0600) = none ∧
      decodeCommand (memRead (ready 0x0600 [0xEA] State.reset) 0x0600) = some (.nop, .implied) := by decide

/-- Both sides of the equivalence: the lowest and the highest listed byte, and a byte between that is not listed. -/
theorem witness_ExactlyTheListedBytesAreInvalid :
    (0x02 : Byte) ∈ undecodableBytes ∧ (0xFF : Byte) ∈ undecodableBytes ∧ (0xFE : Byte) ∉ undecodableBytes := by decide

/-- At the top of the address space: the operand bytes come from 0x0000 and 0x0001. -/
theorem witness_StepRunsTheDecodedInstruction : ∃ s : State, s.pc = 0xFFFF ∧
    decode [memRead s s.pc, memRead s (s.pc + 1), memRead s (s.pc + 2)] = .ok (.jmpAbsolute 0x1234, []) :=
  ⟨ready 0xFFFF [0x4C, 0x34, 0x12] State.reset, rfl, rfl⟩

/-- BRK, and an instruction that is not BRK. -/
theorem witness_OnlyBreakSetsTheFlagAndSignals :
    (∃ s u, fetchInstr s = .ok .brkImplied ∧ exec .brkImplied (advance .brkImplied s) = .next u) ∧
      ∃ s u, fetchInstr s = .ok .nopImplied ∧ exec .nopImplied (advance .nopImplied s) = .next u :=
  ⟨⟨ready 0x0600 [0x00] State.reset, _, rfl, rfl⟩, ready 0x0600 [0xEA] State.reset, _, rfl, rfl⟩

/-- The unbounded counter, and a counter of 8 bits one below its top. -/
theorem witness_StepCountsOnceAndKeepsRunControl :
    (∃ s t, step s = .next t ∧ s.cfg.cycleWidth = none) ∧
      ∃ s t, step s = .next t ∧ s.cfg.cycleWidth = some 8 ∧ s.cycles + 1 < 2 ^ 8 ∧ s.cycles = 254 := by
  refine ⟨⟨ready 0x0600 [0xEA] State.reset, ?_⟩,
    ready 0x0600 [0xEA] { State.reset with cycles := 254, cfg := { Config.default with cycleWidth := some 8 } }, ?_⟩
  · obtain ⟨t, h, -⟩ := next_of_stepsTo (s := ready 0x0600 [0xEA] State.reset) (check := fun _ => true) (by decide)
    exact ⟨t, h, rfl⟩
  · obtain ⟨t, h, -⟩ := next_of_stepsTo (s := ready 0x0600 [0xEA]
      { State.reset with cycles := 254, cfg := { Config.default with cycleWidth := some 8 } }) (check := fun _ => true)
      (by decide)
    exact ⟨t, h, rfl, by decide, rfl⟩

/-- Both errors; `test_undecodable_f1` and `test_sbc_b21` are such steps. -/
theorem witness_EngineErrorsAreTheTwoListed :
    (∃ s t, engineStep s = .fault (.invalidOpcode 0x02 0x0600) t) ∧ ∃ s t, engineStep s = .fault (.valueRange (-128)) t :=
  ⟨⟨_, _, test_undecodable_f1⟩, _, _, test_sbc_b21⟩

theorem witness_StepKeepsArraysCanonical : ∃ s t, s.inv = true ∧ step s = .next t := by
  obtain ⟨t, h, -⟩ := next_of_stepsTo (s := ready 0x0600 [0x48] { State.reset with a := 0x11 }) (check := fun _ => true)
    (by decide)
  exact ⟨_, t, by decide, h⟩

/-- A host move on each array: a written byte, and the reset of an aliased stack page. -/
theorem witness_HostMovesKeepArraysCanonical :
    (∃ s t, s.inv = true ∧ hostMove (.writeMemory 0xFFFF 0x01) s = some t) ∧
      ∃ s t, s.inv = true ∧ s.cfg.stackAliased = true ∧ s.mem ≠ [] ∧ hostMove .reset s = some t :=
  ⟨⟨State.reset, _, by decide, rfl⟩,
    { State.reset with mem := [(0x00FF, 1), (0x0100, 2), (0x01FF, 3), (0x0200, 4)], cfg := { Config.default with stackAliased := true } },
    _, by decide, rfl, by decide, rfl⟩

/-- PLP changes all seven flags at once (from all clear), and clears B. -/
theorem witness_FlagsAreWrittenOnlyByTheirInstructions :
    stepsTo (ready 0x0600 [0x28] { State.reset with stack := [(0, 0xFF)] })
        (fun t => t.flags.c && t.flags.z && t.flags.i && t.flags.d && t.flags.b && t.flags.v && t.flags.n) = true ∧
      stepsTo (ready 0x0600 [0x28] { State.reset with flags := { Flags.clear with b := true } }) (fun t => !t.flags.b) =
        true := by decide

/-- A step that changes A, X, Y, SP, and A in accumulator mode. -/
theorem witness_RegistersAreWrittenOnlyByTheirInstructions :
    stepsTo (ready 0x0600 [0xA9, 0x01] State.reset) (fun t => t.a != 0) = true ∧
      stepsTo (ready 0x0600 [0xA2, 0x01] State.reset) (fun t => t.x != 0) = true ∧
      stepsTo (ready 0x0600 [0xA0, 0x01] State.reset) (fun t => t.y != 0) = true ∧
      stepsTo (ready 0x0600 [0x68] State.reset) (fun t => t.sp != 0) = true ∧
      stepsTo (ready 0x0600 [0x0A] { State.reset with a := 1 }) (fun t => t.a != 1) = true := by decide

/-- A step that changes a Memory byte, a Stack cell, and with STACK_ALIASED a byte of page 1 at each end. -/
theorem witness_ArraysAreWrittenOnlyByTheirInstructions :
    stepsTo (ready 0x0600 [0x85, 0x10] { State.reset with a := 1 }) (fun t => memRead t 0x0010 != 0) = true ∧
      stepsTo (ready 0x0600 [0x48] { State.reset with a := 1 }) (fun t => stackRead t 1 != 0) = true ∧
      stepsTo (ready 0x0600 [0x48] { State.reset with a := 1, sp := 0xFE, cfg := { Config.default with stackAliased := true } })
        (fun t => memRead t 0x01FF != 0) = true ∧
      stepsTo (ready 0x0600 [0x48] { State.reset with a := 1, sp := 0xFF, cfg := { Config.default with stackAliased := true } })
        (fun t => memRead t 0x0100 != 0) = true := by decide

/-- Two different states that agree once I and D are set aside. -/
theorem witness_DecimalAndInterruptFlagsAreInert : ∃ (i : Instr) (s u : State),
    i.mnemonic ≠ .php ∧ withoutID s = withoutID u ∧ s ≠ u :=
  ⟨.adcImmediate 0x09, State.reset, { State.reset with flags := { Flags.clear with d := true } }, by decide, rfl, by decide⟩

/-- Both clauses at the boundary: the last origin where three bytes fit, and the first where they do not. -/
theorem witness_LoadedBytesAreFetched :
    (0xFFFD : Addr).toNat + (Instr.jmpAbsolute 0x1234).length ≤ 65536 ∧
      65536 < (0xFFFE : Addr).toNat + (Instr.jmpAbsolute 0x1234).length := by decide

theorem witness_OperandValuesAndPlainAddresses :
    (Operand.zeroPage 0xFF).mode ∉ [Mode.immediate, .relative, .accumulator] ∧
      decode [0x8D, 0xFF, 0x12] = .ok (.staAbsolute 0x12FF, []) ∧ (Instr.staAbsolute 0x12FF).mode = .absolute :=
  ⟨by decide, rfl, rfl⟩

/-- Every clause: the four modes without an address, a mode with one, and an instruction in indirect mode. -/
theorem witness_OnlyMemoryModesResolve :
    Operand.implied.mode ∈ [Mode.implied, .accumulator, .immediate, .relative] ∧
      Operand.accumulator.mode ∈ [Mode.implied, .accumulator, .immediate, .relative] ∧
      (Operand.immediate 0).mode ∈ [Mode.implied, .accumulator, .immediate, .relative] ∧
      (Operand.relative 0).mode ∈ [Mode.implied, .accumulator, .immediate, .relative] ∧
      (Operand.absolute 0xFFFF).mode ∉ [Mode.implied, .accumulator, .immediate, .relative] ∧
      (Instr.jmpIndirect 0xFFFF).mode = .indirect := by decide

theorem witness_LoadResults : (Instr.ldaIndirectY 0xFF).mnemonic = .lda ∧ (Instr.ldxZeroPageY 0xFF).mnemonic = .ldx ∧
    (Instr.ldyImmediate 0x80).mnemonic = .ldy := by decide

theorem witness_StoreResults : ((Instr.staIndirectX 0xFF).mnemonic = .sta ∧ State.reset.a = 0) ∧
    ((Instr.stxZeroPageY 0xFF).mnemonic = .stx ∧ State.reset.x = 0) ∧
    (Instr.styAbsolute 0xFFFF).mnemonic = .sty ∧ State.reset.y = 0 := by decide

/-- The largest raw sum, 0x1FF (vector B5). -/
theorem witness_AddWithCarryResult : ∃ s : State, (Instr.adcImmediate 0xFF).mnemonic = .adc ∧
    511 = s.a.toNat + (0xFF : Byte).toNat + (if s.cfg.arithCarryIn then s.flags.c.toNat else 0) :=
  ⟨{ State.reset with a := 0xFF, flags := { Flags.clear with c := true } }, rfl, rfl⟩

/-- Both signs at the boundary: raw = 0 (vector B12) and raw = -127 (vector B16). -/
theorem witness_SubtractWithCarryResult :
    (∃ s : State, (0 : Int) = (s.a.toNat : Int) - (0x05 : Byte).toNat -
      (if s.cfg.arithCarryIn then 1 - (s.flags.c.toNat : Int) else 0)) ∧
    ∃ s : State, (-127 : Int) = (s.a.toNat : Int) - (0x8F : Byte).toNat -
      (if s.cfg.arithCarryIn then 1 - (s.flags.c.toNat : Int) else 0) :=
  ⟨⟨{ State.reset with a := 0x05, flags := { Flags.clear with c := true } }, rfl⟩,
    { State.reset with a := 0x10, flags := { Flags.clear with c := true } }, rfl⟩

/-- Each compare, with a difference of 0 and of -127 (vector B33). -/
theorem witness_CompareResults :
    ((Instr.cmpImmediate 0x80).mnemonic = .cmp ∧ (-127 : Int) ≤ ((0x01 : Byte).toNat : Int) - (0x80 : Byte).toNat) ∧
      ((Instr.cpxImmediate 0x05).mnemonic = .cpx ∧ (-127 : Int) ≤ ((0x05 : Byte).toNat : Int) - (0x05 : Byte).toNat) ∧
      (Instr.cpyImmediate 0x08).mnemonic = .cpy := by decide

/-- raw = -128 for SBC and for a compare, without and with a byte for it in NEG_BYTE_WIDE. -/
theorem witness_DifferenceBelowTheRange :
    (-128 : Int) = ((0x10 : Byte).toNat : Int) - (0x90 : Byte).toNat ∧
      Config.default.negByteWide.lookup 128 = none ∧
      ({ Config.default with negByteWide := [(128, 0x80)] } : Config).negByteWide.lookup 128 = some 0x80 ∧
      (∃ s : State, s.a = 0x10 ∧ getValue (Instr.sbcImmediate 0x90).operand s = .ok 0x90 ∧ (-128 : Int) = (s.a.toNat : Int) -
        (0x90 : Byte).toNat - (if s.cfg.arithCarryIn then 1 - (s.flags.c.toNat : Int) else 0)) ∧
      ∃ s : State, s.y = 0x10 ∧ getValue (Instr.cpyZeroPage 0x20).operand s = .ok 0x90 :=
  ⟨rfl, rfl, rfl, ⟨{ State.reset with a := 0x10, flags := { Flags.clear with c := true } }, rfl, rfl, rfl⟩,
    { State.reset with y := 0x10, mem := [(0x0020, 0x90)] }, rfl, rfl⟩

theorem witness_MemoryIncrementDecrementResults :
    (Instr.incAbsoluteX 0xFFFF).mnemonic = .inc ∧ (Instr.decZeroPageX 0xFF).mnemonic = .dec := by decide

/-- The wrap of each register. -/
theorem witness_RegisterIncrementDecrementResults :
    (0x00 : Byte) = BitVec.ofNat 8 ((0xFF : Byte).toNat + 1) ∧ (0xFF : Byte) = BitVec.ofNat 8 ((0x00 : Byte).toNat + 255) := by
  decide

theorem witness_LogicalResults : (Instr.andImmediate 0x3C).mnemonic ∈ [Mnemonic.and, .ora, .eor] ∧
    (Instr.oraAbsolute 0x0200).mnemonic ∈ [Mnemonic.and, .ora, .eor] ∧
    (Instr.eorIndirectY 0xFF).mnemonic ∈ [Mnemonic.and, .ora, .eor] := by decide

theorem witness_BitTestResult : (Instr.bitZeroPage 0x20).mnemonic = .bit ∧ (Instr.bitAbsolute 0x0300).mnemonic = .bit := by
  decide

theorem witness_ShiftAccumulatorResults : Instr.rorAccumulator.mnemonic ∈ [Mnemonic.asl, .lsr, .rol, .ror] ∧
    Instr.rorAccumulator.mode = .accumulator := by decide

theorem witness_ShiftMemoryResults : (Instr.aslZeroPageX 0x10).mnemonic ∈ [Mnemonic.asl, .lsr, .rol, .ror] ∧
    (Instr.aslZeroPageX 0x10).mode ≠ .accumulator := by decide

/-- A branch taken and the same branch not taken (vectors D1 and D2). -/
theorem witness_BranchResults : branchCondition (Instr.bneRelative 0x02).mnemonic Flags.clear = some true ∧
    branchCondition (Instr.bneRelative 0x02).mnemonic { Flags.clear with z := true } = some false := by decide

/-- Separate and aliased stacks. -/
theorem witness_CallResult : State.reset.cfg.stackAliased = false ∧
    ({ State.reset with cfg := { Config.default with stackAliased := true } } : State).cfg.stackAliased = true := by decide

/-- Vectors E1 and E3. -/
theorem witness_PushInstructionResults :
    (∃ s : State, (Instr.phaImplied = .phaImplied ∧ 0xAA = s.a) ∧ s.cfg.stackAliased = false) ∧
      ∃ s : State, (Instr.phpImplied = .phpImplied ∧ (0x81 : Byte) =
        BitVec.ofNat 8 (s.flags.c.toNat + 2 * s.flags.z.toNat + 4 * s.flags.i.toNat + 8 * s.flags.d.toNat +
          16 * s.flags.b.toNat + 32 * s.cfg.statusBit5.toNat + 64 * s.flags.v.toNat + 128 * s.flags.n.toNat)) ∧
        s.cfg.stackAliased = true :=
  ⟨⟨{ State.reset with a := 0xAA }, ⟨rfl, rfl⟩, rfl⟩,
    { State.reset with flags := { Flags.clear with c := true, n := true }, cfg := { Config.default with stackAliased := true } },
    ⟨rfl, rfl⟩, rfl⟩

theorem witness_NopAndBreakSteps :
    memRead (ready 0xFFFF [0xEA] State.reset) 0xFFFF = 0xEA ∧ memRead State.reset State.reset.pc = 0x00 ∧
      State.reset.cfg.cycleWidth = none := by decide

theorem witness_PushIncrementsThenWrites : State.reset.cfg.stackAliased = false := rfl

/-- The longest list that comes back whole. -/
theorem witness_StackDisciplineHolds : (List.replicate 256 (0x11 : Byte)).length ≤ 256 := by
  rw [List.length_replicate]

/-- Every range at its ends: raw = 0, -1, -127, -128 and -256. -/
theorem witness_SumsAndDifferences :
    (0 : Int) = ((0x05 : Byte).toNat : Int) - (0x05 : Byte).toNat - false.toNat ∧
      (-1 : Int) = ((0x00 : Byte).toNat : Int) - (0x00 : Byte).toNat - true.toNat ∧
      (-127 : Int) = ((0x10 : Byte).toNat : Int) - (0x8F : Byte).toNat - false.toNat ∧
      (-128 : Int) = ((0x10 : Byte).toNat : Int) - (0x90 : Byte).toNat - false.toNat ∧
      (-256 : Int) = ((0x00 : Byte).toNat : Int) - (0xFF : Byte).toNat - true.toNat := by decide

/-- Distances 127 and -127 in both radices, 128 and -128, and a state whose branch is taken. -/
theorem witness_AssembledBranchReachesItsLabel :
    findMnemonic ['B', 'N', 'E'] = some .bne ∧ Mnemonic.bne.modes = [.relative] ∧
      (∀ r ∈ [RelRadix.decimal, .hexadecimal],
        emitLine r 0x0600 [0, 129] 0 ⟨1, ['B', 'N', 'E'], .label 1⟩ = .ok [0xD0, 0x7F] ∧
        emitLine r 0x0600 [0] 125 ⟨1, ['B', 'N', 'E'], .label 0⟩ = .ok [0xD0, 0xFF] ∧
        emitLine r 0x0600 [0, 130] 0 ⟨1, ['B', 'N', 'E'], .label 1⟩ = .error (.valueRange 128) ∧
        emitLine r 0x0600 [0] 126 ⟨1, ['B', 'N', 'E'], .label 0⟩ = .error (.valueRange (-128))) ∧
      ∃ s : State, s.pc = BitVec.ofNat 16 ((0x0600 : Addr).toNat + 0) ∧ memRead s s.pc = 0xD0 ∧
        memRead s (s.pc + 1) = 0x7F ∧ branchCondition .bne s.flags = some true :=
  ⟨by decide, by decide, by decide, ready 0x0600 [0xD0, 0x7F] State.reset, by decide, by decide, by decide, by decide⟩

/-- A page-1 byte and a byte on either side, with the stack aliased. -/
theorem witness_HostResetResult : ∃ s t : State, hostMove .reset s = some t ∧ s.cfg.stackAliased = true ∧
    memRead s 0x0100 = 2 ∧ memRead s 0x01FF = 3 ∧ memRead s 0x0200 = 4 :=
  ⟨{ State.reset with mem := [(0x00FF, 1), (0x0100, 2), (0x01FF, 3), (0x0200, 4)], cfg := { Config.default with stackAliased := true } },
    _, rfl, rfl, by decide, by decide, by decide⟩

theorem witness_RunControlMoves : State.reset.run ≠ .running ∧
    ({ State.reset with run := .running } : State).run = .running := by decide

theorem witness_CrashedTickIsNotAHalt : ∃ s f t, tick s = .crashed f t := ⟨_, _, _, test_crashed_tick⟩

/-- A run that halts at its first step, and a loop that starts with B = 1. -/
theorem witness_HaltedRunEndsWithBreak :
    (∃ s t, runLoop 1 s = .halted t) ∧ ∃ s : State, s.run = .running ∧ s.cfg.loopStopOnFlag = true ∧ s.flags.b = true :=
  ⟨⟨{ State.reset with run := .running }, { State.reset with pc := 1, cycles := 1, flags := { Flags.clear with b := true } },
      by decide⟩,
    { State.reset with run := .running, flags := { Flags.clear with b := true } }, rfl, rfl, rfl⟩

/-- An empty line and a comment line. -/
theorem witness_BlankLinesChangeNothing : '\n' ∉ ([] : Text) ∧ cleanLine [] = [] ∧
    '\n' ∉ " ; note".toList ∧ cleanLine " ; note".toList = [] := by decide

theorem witness_EmittedLengthIsTheSizedLength : ∃ lines starts bytes,
    sizeLines .hexadecimal 0 lines = .ok starts ∧ emitLines .hexadecimal 0x0600 starts starts lines = .ok bytes ∧
      bytes ≠ [] :=
  ⟨[⟨1, ['B', 'N', 'E'], .label 1⟩, ⟨2, ['N', 'O', 'P'], .text []⟩], [0, 2, 3], [0xD0, 0x00, 0xEA], by decide, by decide,
    by decide⟩

/-- The last address there is, and the first number above it. -/
theorem witness_AssembledLabelOperandIsItsAddress :
    findMnemonic ['J', 'S', 'R'] = some .jsr ∧ .absolute ∈ Mnemonic.jsr.modes ∧
      emitLine .hexadecimal 0xFFFD [0, 2] 0 ⟨1, ['J', 'S', 'R'], .label 1⟩ = .ok [0x20, 0xFF, 0xFF] ∧
      emitLine .hexadecimal 0xFFFD [0, 3] 0 ⟨1, ['J', 'S', 'R'], .label 1⟩ = .error (.valueRange 65536) := by
  decide

/-- A backward branch in a program at 0x0600: `a:`, `NOP`, `BNE a`. -/
theorem witness_ProgramBranchReachesItsLabel : ∃ (source : Text) (c : Collected) (lines : List AsmLine) (s : State),
    assembleText .hexadecimal source 0x0600 = .ok [0xEA, 0xD0, 0x83] ∧
      collect 1 ⟨[], [], []⟩ (splitLines source) = .ok c ∧ substituteAll c c.lines = .ok lines ∧
      sizeLines .hexadecimal 0 lines = .ok [0, 1, 3] ∧ c.lines[1]? = some ⟨3, ['B', 'N', 'E'], ['a']⟩ ∧
      findMnemonic ['B', 'N', 'E'] = some .bne ∧ asReference ['a'] = some (.bare, ['a']) ∧
      c.labels.lookup ['a'] = some 0 ∧ s.pc = BitVec.ofNat 16 ((0x0600 : Addr).toNat + labelOffset [0, 1, 3] 1) ∧
      memRead s 0x0600 = 0xEA ∧ memRead s 0x0601 = 0xD0 ∧ memRead s 0x0602 = 0x83 ∧
      branchCondition .bne s.flags = some true :=
  ⟨['a', ':', '\n', 'N', 'O', 'P', '\n', 'B', 'N', 'E', ' ', 'a'],
    ⟨[(['a'], 0)], [], [⟨2, ['N', 'O', 'P'], []⟩, ⟨3, ['B', 'N', 'E'], ['a']⟩]⟩,
    [⟨2, ['N', 'O', 'P'], .text []⟩, ⟨3, ['B', 'N', 'E'], .label 0⟩],
    setProgramCounter 0x0601 (place 0x0600 [0xEA, 0xD0, 0x83] State.reset), by decide, by decide, by decide, by decide,
    by decide, by decide, by decide, by decide, by decide, by decide, by decide, by decide, by decide⟩

end Sys2Proof.Machine
end

section
/-! What the Byte operations of spec 00 section 6 return, as numbers and bit by bit. -/

namespace Sys2Proof.Machine

/-- R3: the value of ByteInc as a number. -/
theorem byteInc_value_toNat (b : Byte) : (byteInc b).value.toNat = (b.toNat + 1) % 256 := by
  rw [byteInc_value, BitVec.toNat_add]
  rfl

/-- R3: ByteInc overflows at 255 and nowhere else. -/
theorem byteInc_overflow_iff (b : Byte) : (byteInc b).overflow = true ↔ b.toNat = 255 :=
  beq_iff_eq.trans BitVec.toNat_inj.symm

@[simp] theorem byteAnd_getLsbD (a b : Byte) (k : Nat) :
    (byteAnd a b).getLsbD k = (a.getLsbD k && b.getLsbD k) := BitVec.getLsbD_and

@[simp] theorem byteOr_getLsbD (a b : Byte) (k : Nat) :
    (byteOr a b).getLsbD k = (a.getLsbD k || b.getLsbD k) := BitVec.getLsbD_or

@[simp] theorem byteXor_getLsbD (a b : Byte) (k : Nat) :
    (byteXor a b).getLsbD k = (a.getLsbD k != b.getLsbD k) := BitVec.getLsbD_xor

/-- R8: the sign bit of a Byte is set exactly from 128 on. -/
theorem bit7_iff_ge (b : Byte) : b.getLsbD 7 = true ↔ 128 ≤ b.toNat := by
  have hmsb : b.getLsbD 7 = decide (128 ≤ b.toNat) :=
    (BitVec.msb_eq_getLsbD_last b).symm.trans (BitVec.msb_eq_decide b)
  rw [hmsb, decide_eq_true_iff]

/-- Settles O50, clause by clause from the values of the operations. -/
theorem incrementAndBitwiseValues : Obligations.IncrementAndBitwiseValues := fun a b k =>
  ⟨byteInc_value_toNat b, byteInc_overflow_iff b, byteAnd_getLsbD a b k, byteOr_getLsbD a b k,
    byteXor_getLsbD a b k, bit7_iff_ge b⟩

end Sys2Proof.Machine
end

section
/-! Memory and the Stack (spec 20): what MemWrite (R41) and Pull (R47) return and leave unchanged. -/

namespace Sys2Proof.Machine

/-- R3: the value of ByteDec as a number, with the wrap from 0x00 to 0xFF. -/
theorem byteDec_value_toNat (b : Byte) : (byteDec b).value.toNat = (b.toNat + 255) % 256 := by
  rw [byteDec_value, BitVec.toNat_sub, Nat.add_comm]
  rfl

/-- R3: ByteDec adds 255 modulo 256. -/
theorem byteDec_value_eq_ofNat (b : Byte) : (byteDec b).value = BitVec.ofNat 8 (b.toNat + 255) :=
  BitVec.eq_of_toNat_eq <| by rw [byteDec_value_toNat, BitVec.toNat_ofNat]

/-- R47: after Pull nothing but SP differs. -/
theorem pull_state (s : State) : (pull s).2 = { s with sp := BitVec.ofNat 8 (s.sp.toNat + 255) } :=
  congrArg (fun sp => { s with sp := sp }) (byteDec_value_eq_ofNat s.sp)

/-- Settles O45: the read is the law of an array after a write, and `memWrite` updates the field `mem` alone. -/
theorem memoryReadsBackTheLastWrite : Obligations.MemoryReadsBackTheLastWrite := fun s a b v =>
  ⟨memRead_memWrite s a b v, rfl⟩

/-- Settles O46: the cell is read before SP moves, and no array is written. -/
theorem pullReadsThenDecrements : Obligations.PullReadsThenDecrements := fun s =>
  ⟨pull_value s, pull_state s, stackRead_pull s⟩

end Sys2Proof.Machine
end

section
/-! The opcode map (spec 30): the table by byte (R64) and the table by mnemonic (R65) hold the same pairs. -/

namespace Sys2Proof.Machine

/-- What `findShape` finds is an entry of the table, under the byte it was asked for. -/
theorem mem_of_findShape_eq_some {opc : Byte} {sh : Shape} {table : List (Byte × Shape)}
    (h : findShape opc table = some sh) : (opc, sh) ∈ table := by
  induction table with
  | nil => cases h
  | cons entry rest ih =>
    obtain ⟨b, found⟩ := entry
    rw [findShape] at h
    split at h
    case isTrue hb =>
      cases h
      exact hb ▸ List.mem_cons_self
    case isFalse => exact List.mem_cons_of_mem _ (ih h)

/-- R65: the Command of every entry of R64's table encodes to that entry's byte, checked row by row. -/
theorem encodeCommand_of_mem_opcodeTable :
    ∀ entry ∈ opcodeTable, encodeCommand entry.2.sample.mnemonic entry.2.sample.mode = some entry.1 := by
  simp only [opcodeTable, List.forall_mem_append]
  decide

/-- R65: encoding the Command of an opcode byte gives the byte back. -/
theorem encodeCommand_decodeCommand {b : Byte} {m : Mnemonic} {mode : Mode}
    (h : decodeCommand b = some (m, mode)) : encodeCommand m mode = some b := by
  obtain ⟨sh, hfind, hcommand⟩ := Option.map_eq_some_iff.1 h
  cases hcommand
  exact encodeCommand_of_mem_opcodeTable _ (mem_of_findShape_eq_some hfind)

/-- R64, R68: a mnemonic has exactly the modes that its part of the table lists with an opcode byte. -/
theorem mem_modes_iff_mem_opcodesOf (m : Mnemonic) (mode : Mode) :
    mode ∈ m.modes ↔ ∃ entry ∈ opcodesOf m, mode = entry.1 := by
  have keys : (opcodesOf m).map Prod.fst = m.modes := by cases m <;> rfl
  simp only [← keys, List.mem_map, eq_comm]

/-- R65: a Command has no opcode byte exactly when its mnemonic does not have the mode. -/
theorem encodeCommand_eq_none_iff (m : Mnemonic) (mode : Mode) :
    encodeCommand m mode = none ↔ mode ∉ m.modes := by
  simp only [encodeCommand, List.lookup_eq_none_iff, bne_iff_ne, mem_modes_iff_mem_opcodesOf, not_exists, not_and,
    ne_eq]

/-- Settles O3: each table is read back by the other, and the two examples are modes their mnemonics do not have. -/
theorem commandTablesAreInverse : Obligations.CommandTablesAreInverse :=
  ⟨fun b m mode => ⟨encodeCommand_decodeCommand, decodeCommand_encodeCommand m mode b⟩,
    encodeCommand_eq_none_iff,
    (encodeCommand_eq_none_iff .sta .immediate).2 (by decide),
    (encodeCommand_eq_none_iff .ldx .zeroPageX).2 (by decide)⟩

end Sys2Proof.Machine
end

section
/-! What the decoder makes of operand bytes (spec 30, R60 to R63), whatever bytes follow them. -/

namespace Sys2Proof

/-- R63: the operand that a mode makes of its operand bytes, low byte first. A byte the mode does not have is not
used. -/
def Mode.operandOf (mode : Mode) (lo hi : Byte) : Operand :=
  match mode with
  | .implied => .implied
  | .accumulator => .accumulator
  | .immediate => .immediate lo
  | .relative => .relative lo
  | .zeroPage => .zeroPage lo
  | .zeroPageX => .zeroPageX lo
  | .zeroPageY => .zeroPageY lo
  | .absolute => .absolute (mkAddr hi lo)
  | .absoluteX => .absoluteX (mkAddr hi lo)
  | .absoluteY => .absoluteY (mkAddr hi lo)
  | .indirect => .indirect (mkAddr hi lo)
  | .indirectX => .indirectX lo
  | .indirectY => .indirectY lo

@[simp] theorem Mode.operandOf_mode (mode : Mode) (lo hi : Byte) : (mode.operandOf lo hi).mode = mode := by
  cases mode <;> rfl

/-- The instruction that an entry of the decode table gives with these operand bytes (R60: F1, F2, F3). -/
def Shape.fill (sh : Shape) (lo hi : Byte) : Instr :=
  match sh with
  | .f1 i => i
  | .f2 mk => mk lo
  | .f3 mk => mk (mkAddr hi lo)

/-- R60: with two bytes after the opcode byte, decoding depends on the opcode byte alone, and fills in its entry. -/
theorem decode_eq_ok_iff (opc lo hi : Byte) (rest : List Byte) (i : Instr) :
    (∃ rest', decode (opc :: lo :: hi :: rest) = .ok (i, rest')) ↔
      ∃ sh, decodeOpcode opc = some sh ∧ i = sh.fill lo hi := by
  cases hopc : decodeOpcode opc with
  | none => simp [decode, hopc]
  | some sh => cases sh <;> simp [decode, hopc, Shape.fill, @eq_comm _ i]

/-- R63, R64: operand bytes never change the Command of an entry, and mean what its mode makes of them. Checked row
by row. -/
theorem view_fill_of_mem_opcodeTable : ∀ entry ∈ opcodeTable, ∀ lo hi : Byte,
    (entry.2.fill lo hi).view = (entry.2.sample.mnemonic, entry.2.sample.mode.operandOf lo hi) := by
  refine List.forall_iff_forall_mem.1 ?_
  repeat' apply And.intro
  all_goals exact fun _ _ => rfl

/-- R63, R64: the entry of an opcode byte keeps its Command whatever operand bytes it is filled with. -/
theorem view_fill {opc : Byte} {sh : Shape} (h : decodeOpcode opc = some sh) (lo hi : Byte) :
    (sh.fill lo hi).view = (sh.sample.mnemonic, sh.sample.mode.operandOf lo hi) :=
  view_fill_of_mem_opcodeTable _ (Machine.mem_of_findShape_eq_some h) lo hi

theorem mnemonic_fill {opc : Byte} {sh : Shape} (h : decodeOpcode opc = some sh) (lo hi : Byte) :
    (sh.fill lo hi).mnemonic = sh.sample.mnemonic := by
  rw [Instr.mnemonic, view_fill h]

theorem operand_fill {opc : Byte} {sh : Shape} (h : decodeOpcode opc = some sh) (lo hi : Byte) :
    (sh.fill lo hi).operand = sh.sample.mode.operandOf lo hi := by
  rw [Instr.operand, view_fill h]

theorem mode_fill {opc : Byte} {sh : Shape} (h : decodeOpcode opc = some sh) (lo hi : Byte) :
    (sh.fill lo hi).mode = sh.sample.mode := by
  rw [Instr.mode, operand_fill h, Mode.operandOf_mode]

/-- R63: the operand of a decoded instruction is what its mode makes of the two bytes after the opcode byte. -/
theorem operand_of_decode {opc lo hi : Byte} {rest rest' : List Byte} {i : Instr}
    (h : decode (opc :: lo :: hi :: rest) = .ok (i, rest')) : i.operand = i.mode.operandOf lo hi := by
  obtain ⟨sh, hsh, rfl⟩ := (decode_eq_ok_iff opc lo hi rest i).1 ⟨rest', h⟩
  rw [operand_fill hsh, mode_fill hsh]

end Sys2Proof
end

section
/-! The fetch and the break phase of a step, and the plain operands (spec 40: R81, R85, R87, R90, R98). -/

namespace Sys2Proof.Machine

/-- R64, R81: a byte that is a Command is fetched as an instruction of that Command, whatever its operand bytes. -/
theorem fetchInstr_of_decodeCommand {s : State} {m : Mnemonic} {mode : Mode}
    (h : decodeCommand (memRead s s.pc) = some (m, mode)) :
    ∃ i, fetchInstr s = .ok i ∧ i.mnemonic = m ∧ i.mode = mode := by
  obtain ⟨sh, hsh, hcommand⟩ := Option.map_eq_some_iff.1 h
  cases hcommand
  obtain ⟨rest', hdecode⟩ := (decode_eq_ok_iff _ _ _ [] _).2 ⟨sh, hsh, rfl⟩
  exact ⟨_, fetchInstr_of_decode hdecode, mnemonic_fill hsh _ _, mode_fill hsh _ _⟩

/-- R81: a step that cannot fetch raises before it changes anything. -/
theorem engineStep_of_fetch_error {s : State} {f : Fault} (h : fetchInstr s = .error f) :
    engineStep s = .fault f s := by
  simp [engineStep, h]

/-- Settles O5: the fetch looks at the opcode byte alone, and its only error leaves the state as it was. -/
theorem undecodableOpcodeRaisesUnchanged : Obligations.UndecodableOpcodeRaisesUnchanged := fun s =>
  ⟨fun h => engineStep_of_fetch_error ((fetchInstr_error_iff s).2 (Option.map_eq_none_iff.1 h)),
    fun _ _ h => fetchInstr_of_decodeCommand h⟩

/-- R85: outside the three modes with a value of their own, the value is the Memory byte at the resolved address. -/
theorem getValue_eq_map_resolve {o : Operand} (s : State) (h : o.mode ∉ [.immediate, .relative, .accumulator]) :
    getValue o s = (resolve o s).map (memRead s) := by
  cases o with
  | immediate | relative | accumulator => exact absurd (by simp [Operand.mode]) h
  | _ => rfl

/-- Settles O19: the modes one by one; the two operand bytes of absolute mode are its address, low byte first. -/
theorem operandValuesAndPlainAddresses : Obligations.OperandValuesAndPlainAddresses := fun s v a o => by
  refine ⟨rfl, rfl, rfl, getValue_eq_map_resolve s, ⟨zext16 v, rfl, zext16_toNat v⟩, rfl, ?_⟩
  intro opc lo hi rest i hdecode hmode
  have hoperand : i.operand = .absolute (mkAddr hi lo) := by
    rw [operand_of_decode hdecode, hmode, Mode.operandOf]
  refine ⟨mkAddr hi lo, by rw [hoperand, resolve], ?_⟩
  rw [mkAddr_toNat]
  omega

/-- Settles O8: the flags after the handler change only in the break phase, which acts when the signal is given. -/
theorem onlyBreakSetsTheFlagAndSignals : Obligations.OnlyBreakSetsTheFlagAndSignals := fun s u i hfetch hexec =>
  ⟨_, engineStep_of_fetch hfetch hexec, by simp [breakPhase_flags, isBreak]⟩

end Sys2Proof.Machine
end

section
/-! The encoding (spec 30, R60 to R66): decoder and encoder undo each other, and which bytes are no opcode. -/

namespace Sys2Proof

/-- R60, R63: the operand bytes that an entry of the decode table takes, when it is filled in with these two. -/
def Shape.operandBytes (sh : Shape) (lo hi : Byte) : List Byte :=
  match sh with
  | .f1 _ => []
  | .f2 _ => [lo]
  | .f3 _ => [loByte (mkAddr hi lo), hiByte (mkAddr hi lo)]

/-- R64, R65: every entry of the decode table encodes to its own opcode byte, checked row by row. -/
theorem encode_fill_of_mem_opcodeTable : ∀ entry ∈ opcodeTable, ∀ lo hi : Byte,
    encode (entry.2.fill lo hi) = entry.1 :: entry.2.operandBytes lo hi := by
  refine List.forall_iff_forall_mem.1 ?_
  repeat' apply And.intro
  all_goals exact fun _ _ => rfl

/-- R65: the entry of an opcode byte encodes to that byte and its operand bytes. -/
theorem encode_fill {opc : Byte} {sh : Shape} (h : decodeOpcode opc = some sh) (lo hi : Byte) :
    encode (sh.fill lo hi) = opc :: sh.operandBytes lo hi :=
  encode_fill_of_mem_opcodeTable _ (Machine.mem_of_findShape_eq_some h) lo hi

/-- R60: what decodes is an opcode byte and the operand bytes of its entry, which the decoder has filled in. -/
theorem decode_ok_cases {bytes rest : List Byte} {i : Instr} (h : decode bytes = .ok (i, rest)) :
    ∃ opc sh lo hi, decodeOpcode opc = some sh ∧ i = sh.fill lo hi ∧
      bytes = opc :: sh.operandBytes lo hi ++ rest := by
  unfold decode at h
  split at h
  case h_1 => cases h
  case h_2 opc tail =>
    split at h <;> cases h
    case h_2 hopc => exact ⟨opc, _, 0, 0, hopc, rfl, rfl⟩
    case h_3 b hopc => exact ⟨opc, _, b, 0, hopc, rfl, rfl⟩
    case h_4 lo hi hopc => exact ⟨opc, _, lo, hi, hopc, rfl, by simp [Shape.operandBytes]⟩

/-- Settles O2: a filled-in entry encodes to the bytes it was decoded from. -/
theorem encodeInvertsDecode : Obligations.EncodeInvertsDecode := by
  intro bytes rest i h
  obtain ⟨opc, sh, lo, hi, hopc, rfl, rfl⟩ := decode_ok_cases h
  rw [encode_fill hopc]

open Laws.RoundTrip in
/-- Settles O1: the round trip of each constructor, in their order. -/
theorem decodeInvertsEncode : Obligations.DecodeInvertsEncode := by
  intro i
  change Statement i
  cases i
  exacts [adcImmediate _, adcZeroPage _, adcZeroPageX _, adcAbsolute _, adcAbsoluteX _, adcAbsoluteY _, adcIndirectX _,
    adcIndirectY _, andImmediate _, andZeroPage _, andZeroPageX _, andAbsolute _, andAbsoluteX _, andAbsoluteY _,
    andIndirectX _, andIndirectY _, aslAccumulator, aslZeroPage _, aslZeroPageX _, aslAbsolute _, aslAbsoluteX _,
    bccRelative _, bcsRelative _, beqRelative _, bitZeroPage _, bitAbsolute _, bmiRelative _, bneRelative _,
    bplRelative _, brkImplied, bvcRelative _, bvsRelative _, clcImplied, cldImplied, cliImplied, clvImplied,
    cmpImmediate _, cmpZeroPage _, cmpZeroPageX _, cmpAbsolute _, cmpAbsoluteX _, cmpAbsoluteY _, cmpIndirectX _,
    cmpIndirectY _, cpxImmediate _, cpxZeroPage _, cpxAbsolute _, cpyImmediate _, cpyZeroPage _, cpyAbsolute _,
    decZeroPage _, decZeroPageX _, decAbsolute _, decAbsoluteX _, dexImplied, deyImplied, eorImmediate _,
    eorZeroPage _, eorZeroPageX _, eorAbsolute _, eorAbsoluteX _, eorAbsoluteY _, eorIndirectX _, eorIndirectY _,
    incZeroPage _, incZeroPageX _, incAbsolute _, incAbsoluteX _, inxImplied, inyImplied, jmpAbsolute _,
    jmpIndirect _, jsrAbsolute _, ldaImmediate _, ldaZeroPage _, ldaZeroPageX _, ldaAbsolute _, ldaAbsoluteX _,
    ldaAbsoluteY _, ldaIndirectX _, ldaIndirectY _, ldxImmediate _, ldxZeroPage _, ldxZeroPageY _, ldxAbsolute _,
    ldxAbsoluteY _, ldyImmediate _, ldyZeroPage _, ldyZeroPageX _, ldyAbsolute _, ldyAbsoluteX _, lsrAccumulator,
    lsrZeroPage _, lsrZeroPageX _, lsrAbsolute _, lsrAbsoluteX _, nopImplied, oraImmediate _, oraZeroPage _,
    oraZeroPageX _, oraAbsolute _, oraAbsoluteX _, oraAbsoluteY _, oraIndirectX _, oraIndirectY _, phaImplied,
    phpImplied, plaImplied, plpImplied, rolAccumulator, rolZeroPage _, rolZeroPageX _, rolAbsolute _, rolAbsoluteX _,
    rorAccumulator, rorZeroPage _, rorZeroPageX _, rorAbsolute _, rorAbsoluteX _, rtiImplied, rtsImplied,
    sbcImmediate _, sbcZeroPage _, sbcZeroPageX _, sbcAbsolute _, sbcAbsoluteX _, sbcAbsoluteY _, sbcIndirectX _,
    sbcIndirectY _, secImplied, sedImplied, seiImplied, staZeroPage _, staZeroPageX _, staAbsolute _, staAbsoluteX _,
    staAbsoluteY _, staIndirectX _, staIndirectY _, stxZeroPage _, stxZeroPageY _, stxAbsolute _, styZeroPage _,
    styZeroPageX _, styAbsolute _, taxImplied, tayImplied, tsxImplied, txaImplied, txsImplied, tyaImplied]

/-- Settles O4: each word is its opcode's entry of the table, filled in with the bytes written behind it. -/
theorem writtenOutWordsDecode : Obligations.WrittenOutWordsDecode :=
  ⟨rfl, rfl, rfl, rfl, rfl, rfl, rfl, rfl, rfl, rfl⟩

/-- R64: the table is searched by opcode byte, so a byte is not found exactly when no entry has it. -/
theorem findShape_eq_none_iff (opc : Byte) (table : List (Byte × Shape)) :
    findShape opc table = none ↔ opc ∉ table.map Prod.fst := by
  induction table with
  | nil => simp [findShape]
  | cons entry rest ih =>
    by_cases hopc : entry.1 = opc
    · simp [findShape, hopc]
    · simp [findShape, hopc, Ne.symm hopc, ih]

/-- R64, R66: the 151 opcode bytes of the table and the 105 listed ones are all Bytes, each once. -/
theorem opcodes_append_undecodable_perm :
    ((opcodeTable.map Prod.fst ++ Machine.undecodableBytes).map BitVec.toNat).Perm (List.range 256) := by
  decide +kernel

/-- R66: the bytes without an entry in the decode table are the 105 listed ones. -/
theorem decodeOpcode_eq_none_iff (opc : Byte) : decodeOpcode opc = none ↔ opc ∈ Machine.undecodableBytes := by
  have hperm := opcodes_append_undecodable_perm
  have hmem : opc ∈ opcodeTable.map Prod.fst ++ Machine.undecodableBytes :=
    (List.mem_map_of_injective fun _ _ => BitVec.eq_of_toNat_eq).1 (hperm.mem_iff.2 (List.mem_range.2 opc.isLt))
  have hdisjoint : (opcodeTable.map Prod.fst).Disjoint Machine.undecodableBytes :=
    List.disjoint_of_nodup_append ((hperm.nodup_iff.2 List.nodup_range).of_map _)
  rw [decodeOpcode, findShape_eq_none_iff]
  exact ⟨(List.mem_append.1 hmem).resolve_left, fun hlisted hopc => hdisjoint hopc hlisted⟩

end Sys2Proof
end

section
/-! What one step keeps, and which errors it can raise (spec 40 R80 to R101, spec 60). -/

namespace Sys2Proof.Machine

/-- Settles O11: a step changes the arrays only as its handler does, and every such change keeps the form. -/
theorem stepKeepsArraysCanonical : Obligations.StepKeepsArraysCanonical := fun _ _ hinv hstep =>
  have ⟨_, _, _, _, _, _, harrays⟩ := step_effect hstep
  harrays.keeps_inv hinv

/-- R29, D24: below the top of its width the counter goes up by one. -/
theorem nextCycles_of_lt {w c : Nat} (h : c + 1 < 2 ^ w) : nextCycles (some w) c = c + 1 := if_pos h

/-- Settles O9: the run control and the counter as the step's effect leaves them. -/
theorem stepCountsOnceAndKeepsRunControl : Obligations.StepCountsOnceAndKeepsRunControl := by
  intro s t hstep
  obtain ⟨hcycles, hrun, hspeed, hcfg, -⟩ := step_effect hstep
  refine ⟨fun hwidth => ?_, fun w hwidth hlt => ?_, hrun, hspeed, hcfg⟩ <;> rw [hcycles, hwidth]
  · rfl
  · exact nextCycles_of_lt hlt

/-- R11: the pc after a word, without the overflow output. -/
theorem addrAdd_value_eq (a : Addr) (k : Nat) : (addrAdd a k).value = a + BitVec.ofNat 16 k := by
  apply BitVec.eq_of_toNat_eq
  simp [addrAdd]

theorem advance_eq (i : Instr) (s : State) : advance i s = { s with pc := s.pc + BitVec.ofNat 16 i.length } := by
  rw [← addrAdd_value_eq, advance]

/-- R81, R82: the three bytes the fetch decodes. -/
theorem fetchBytes_eq (s : State) : fetchBytes s = [memRead s s.pc, memRead s (s.pc + 1), memRead s (s.pc + 2)] := by
  simp [fetchBytes, addrAdd_value_eq]

/-- R80: a step that fetched `i` is its handler on the advanced state, then phases 6 and 7. -/
theorem step_of_fetch {s : State} {i : Instr} (h : fetchInstr s = .ok i) :
    step s = match exec i (advance i s) with
      | .next t => .next (endPhase (breakPhase i t))
      | .fault f => .fault f
      | .refused r => .refused r := by
  simp only [step, engineStep, h]
  cases exec i (advance i s) <;> rfl

/-- Settles O7: what decodes is what is fetched, and the step runs it on the advanced state. -/
theorem stepRunsTheDecodedInstruction : Obligations.StepRunsTheDecodedInstruction := by
  intro s i rest hdecode
  have hstep := step_of_fetch (fetchInstr_of_decode (fetchBytes_eq s ▸ hdecode))
  rw [advance_eq] at hstep
  exact hstep

/-! ## Which handlers complete, and what the others raise -/

theorem withValue_completes {o : Operand} {s : State} {k : Byte → Result} (hv : ∃ v, getValue o s = .ok v)
    (hk : ∀ v, ∃ t, k v = .next t) : ∃ t, withValue o s k = .next t := by
  obtain ⟨v, hv⟩ := hv
  rw [withValue_ok hv]
  exact hk v

theorem withAddress_completes {o : Operand} {s : State} {k : Addr → Result} (ha : ∃ ea, resolve o s = .ok ea)
    (hk : ∀ ea, ∃ t, k ea = .next t) : ∃ t, withAddress o s k = .next t := by
  obtain ⟨ea, ha⟩ := ha
  rw [withAddress_ok ha]
  exact hk ea

/-- R100: a shift has a place to work on in each of its modes. -/
theorem placeOf_ok {o : Operand} (h : o.mode = .accumulator ∨ isMemoryMode o.mode = true) (s : State) :
    ∃ p, placeOf o s = .ok p := by
  obtain hacc | hmem := h
  · cases o with
    | accumulator => exact ⟨_, rfl⟩
    | _ => cases hacc
  · obtain ⟨ea, hea⟩ := resolve_ok hmem s
    exact ⟨_, placeOf_memory hea⟩

theorem shiftPlace_eq {o : Operand} {s : State} {p : Place} (h : placeOf o s = .ok p)
    (f : Byte → Bool → Byte × Bool) : shiftPlace f o s = .next { putValue p (f (readPlace p s) s.flags.c).1 s with
      flags := shiftFlags (f (readPlace p s) s.flags.c).1 (f (readPlace p s) s.flags.c).2 s.flags } := by
  simp [shiftPlace, h]

/-- R68: each mode of a shift or rotate is accumulator mode or a memory mode. -/
theorem shift_mode_cases {m : Mnemonic} {mode : Mode} (hm : m ∈ [.asl, .lsr, .rol, .ror]) (hmode : mode ∈ m.modes) :
    mode = .accumulator ∨ isMemoryMode mode = true := by
  have hmodes : m.modes = Mnemonic.modes .asl := by
    simp only [List.mem_cons, List.not_mem_nil, or_false] at hm
    obtain rfl | rfl | rfl | rfl := hm <;> rfl
  rw [hmodes] at hmode
  revert hmode
  cases mode <;> decide

/-- R131 to R134: the mnemonics that subtract, whose difference may have no Byte (R7). -/
def subtracting : List Mnemonic := [.sbc, .cmp, .cpx, .cpy]

/-- Every handler but those that subtract completes, in each mode its mnemonic has. -/
theorem handler_completes {m : Mnemonic} {o : Operand} (hm : m ∉ subtracting) (ho : o.mode ∈ m.modes) (s : State) :
    ∃ t, handler m o s = .next t := by
  have value (h : Mode.implied ∉ m.modes) : ∃ v, getValue o s = .ok v := getValue_ok (fun hi => h (hi ▸ ho)) s
  have address (h : m.modes.all isMemoryMode = true) : ∃ ea, resolve o s = .ok ea :=
    resolve_ok (List.all_eq_true.1 h _ ho) s
  cases m
  case sbc | cmp | cpx | cpy => exact absurd (by decide) hm
  case asl | lsr | rol | ror =>
    obtain ⟨p, hp⟩ := placeOf_ok (shift_mode_cases (by decide) ho) s
    exact ⟨_, shiftPlace_eq hp _⟩
  case lda | ldx | ldy | adc | and | ora | eor | bit | bcc | bcs | beq | bne | bmi | bpl | bvc | bvs =>
    exact withValue_completes (value (by decide)) fun v => ⟨_, rfl⟩
  case sta | stx | sty | inc | dec | jmp | jsr =>
    exact withAddress_completes (address (by decide)) fun ea => ⟨_, rfl⟩
  all_goals exact ⟨_, rfl⟩

theorem exec_completes {i : Instr} (h : i.mnemonic ∉ subtracting) (s : State) : ∃ t, exec i s = .next t :=
  exec_eq_handler i s ▸ handler_completes h i.mode_legal s

/-- R131: SBC makes the difference `a - m - borrow`, and nothing but its Byte can fail. -/
theorem sbc_of_value {o : Operand} {s : State} {m : Byte} (h : getValue o s = .ok m) :
    sbc o s = match byteSub s.cfg s.a m (borrowIn s) with
      | .ok diff => .next { s with a := diff.value, flags := sbcFlags s.a m diff s.flags }
      | .error f => .fault f :=
  withValue_ok h _

/-- R132 to R134: a comparison makes the difference `r - m`, and nothing but its Byte can fail. -/
theorem compareWith_of_value {r : Byte} {o : Operand} {s : State} {m : Byte} (h : getValue o s = .ok m) :
    compareWith r o s = match byteSub s.cfg r m false with
      | .ok diff => .next { s with flags := compareFlags r m diff s.flags }
      | .error f => .fault f :=
  withValue_ok h _

theorem sbc_fault {o : Operand} {s : State} {m : Byte} {f : Fault} (hm : getValue o s = .ok m)
    (h : sbc o s = .fault f) : byteSub s.cfg s.a m (borrowIn s) = .error f := by
  rw [sbc_of_value hm] at h
  split at h <;> cases h
  assumption

theorem compareWith_fault {r : Byte} {o : Operand} {s : State} {m : Byte} {f : Fault} (hm : getValue o s = .ok m)
    (h : compareWith r o s = .fault f) : byteSub s.cfg r m false = .error f := by
  rw [compareWith_of_value hm] at h
  split at h <;> cases h
  assumption

/-- R7, R253: what a difference of two Bytes and a borrow raises. -/
theorem byteSub_error_range {cfg : Config} {a b : Byte} {bin : Bool} {f : Fault} (h : byteSub cfg a b bin = .error f) :
    ∃ n : Int, f = .valueRange n ∧ -256 ≤ n ∧ n ≤ -128 := by
  obtain ⟨hn, hf⟩ := byteSub_error h
  have := b.isLt
  have := bin.toNat_le
  exact ⟨_, hf, by omega, hn⟩

/-- The only error a handler raises, and who raises it (R131 to R134, R253). -/
theorem exec_fault {i : Instr} {s : State} {f : Fault} (h : exec i s = .fault f) :
    i.mnemonic ∈ subtracting ∧ ∃ n : Int, f = .valueRange n ∧ -256 ≤ n ∧ n ≤ -128 := by
  have hsub : i.mnemonic ∈ subtracting := by
    by_contra hns
    obtain ⟨t, ht⟩ := exec_completes hns s
    cases ht.symm.trans h
  refine ⟨hsub, ?_⟩
  simp only [subtracting, List.mem_cons, List.not_mem_nil, or_false] at hsub
  obtain hm | hm | hm | hm := hsub
  all_goals
    obtain ⟨v, hv⟩ := value_of_mnemonic hm (by decide) s
    rw [(exec_of_mnemonic hm s).1] at h
  · exact byteSub_error_range (sbc_fault hv h)
  all_goals exact byteSub_error_range (compareWith_fault hv h)

/-- Settles O10: a fault of the fetch is InvalidOpcodeError, a fault of a handler is the one of a difference. -/
theorem engineErrorsAreTheTwoListed : Obligations.EngineErrorsAreTheTwoListed := by
  refine ⟨fun s t f h => ?_, engineStep_never_refused⟩
  obtain ⟨hfetch, rfl⟩ | ⟨i, hfetch, hexec, rfl⟩ := engineStep_fault h
  · exact .inl ⟨fetchInstr_error hfetch, rfl⟩
  · obtain ⟨hsub, n, hf, hlow, hhigh⟩ := exec_fault hexec
    exact .inr ⟨n, i, hf, hlow, hhigh, hfetch, hsub, advance_eq i s⟩

/-- Settles O6: no handler raises InvalidOpcodeError, and the fetch raises it on the bytes without an entry. -/
theorem exactlyTheListedBytesAreInvalid : Obligations.ExactlyTheListedBytesAreInvalid := by
  intro s
  rw [← decodeOpcode_eq_none_iff, ← fetchInstr_error_iff]
  constructor
  · rintro ⟨o, a, h⟩
    obtain ⟨t, h⟩ := step_fault.1 h
    obtain ⟨hfetch, -⟩ | ⟨i, -, hexec, -⟩ := engineStep_fault h
    · rw [hfetch, fetchInstr_error hfetch]
    · obtain ⟨-, n, hf, -⟩ := exec_fault hexec
      cases hf
  · intro h
    exact ⟨_, _, step_fault.2 ⟨s, engineStep_of_fetch_error h⟩⟩

end Sys2Proof.Machine
end

section
/-! The host's moves (spec 10 section 7, spec 70), the stepping loop (spec 40 section 3) and loading (R283). -/

namespace Sys2Proof.Machine

/-- Settles O54: the moves in each of the three run-control states. -/
theorem runControlMoves : Obligations.RunControlMoves := by
  intro s ms
  simp only [hostMove, start, pause, unpause, stop]
  obtain ⟨a, x, y, sp, pc, flags, mem, stack, cycles, run, speedMs, cfg⟩ := s
  cases run <;> simp

/-- The invariant looks at the two arrays only. -/
theorem inv_congr {s t : State} (hmem : t.mem = s.mem) (hstack : t.stack = s.stack) : t.inv = s.inv := by
  rw [State.inv, hmem, hstack, State.inv]

theorem start_arrays {ms : Nat} {s t : State} (h : start ms s = some t) : t.mem = s.mem ∧ t.stack = s.stack := by
  unfold start at h
  split at h <;> cases h <;> exact ⟨rfl, rfl⟩

theorem pause_arrays (s : State) : (pause s).mem = s.mem ∧ (pause s).stack = s.stack := by
  unfold pause
  split <;> exact ⟨rfl, rfl⟩

theorem unpause_arrays (s : State) : (unpause s).mem = s.mem ∧ (unpause s).stack = s.stack := by
  unfold unpause
  split <;> exact ⟨rfl, rfl⟩

@[simp] theorem clearStack_stack (s : State) : (clearStack s).stack = [] := by
  unfold clearStack
  split <;> rfl

theorem clearStack_keeps_inv {s : State} (h : s.inv = true) : (clearStack s).inv = true := by
  simp only [State.inv, Bool.and_eq_true, clearStack_stack] at h ⊢
  exact ⟨Memory.wf_clearStack h.1, rfl⟩

theorem memWrite_keeps_inv {s : State} (a : Addr) (v : Byte) (h : s.inv = true) : (memWrite s a v).inv = true :=
  ArrayEffect.keeps_inv (.inr (.inl ⟨a, v, rfl, rfl⟩)) h

/-- Settles O12: writeMemory and reset keep the form by the laws of the arrays, the other moves write no array. -/
theorem hostMovesKeepArraysCanonical : Obligations.HostMovesKeepArraysCanonical := by
  intro op s t hinv hmove
  have kept {u : State} (h : u.mem = s.mem ∧ u.stack = s.stack) : u.inv = true := (inv_congr h.1 h.2).trans hinv
  cases op with
  | start ms => exact kept (start_arrays hmove)
  | writeMemory a v =>
    cases hmove
    exact memWrite_keeps_inv a v hinv
  | reset =>
    cases hmove
    exact clearStack_keeps_inv hinv
  | setRegister which v =>
    cases hmove
    cases which <;> exact kept ⟨rfl, rfl⟩
  | pause =>
    cases hmove
    exact kept (pause_arrays s)
  | unpause =>
    cases hmove
    exact kept (unpause_arrays s)
  | setProgramCounter | stop =>
    cases hmove
    exact kept ⟨rfl, rfl⟩

/-- Settles O13: the fields of the created state; nothing is listed, so every cell reads 0x00. -/
theorem resetStateIsAsStated : Obligations.ResetStateIsAsStated :=
  ⟨rfl, rfl, rfl, rfl, rfl, rfl, rfl, rfl, fun _ => rfl, fun _ => rfl, rfl⟩

/-- R32, R38: after clearing the Stack every cell of it reads 0x00, aliased or not. -/
theorem stackRead_clearStack (s : State) (j : Byte) : stackRead (clearStack s) j = 0 := by
  have hj := j.isLt
  by_cases haliased : s.cfg.stackAliased = true
  · have hpage : (!inStackPage (stackPage j)) = false := by
      simp [inStackPage, stackPage]
      omega
    simpa [stackRead, clearStack, haliased] using
      cellRead_filter_drop s.mem (fun k => !inStackPage k) hpage
  · simp [stackRead, clearStack, haliased, cellRead]

/-- R32, R38: clearing the Stack clears Memory page 1 if the two are the same, and no other byte. -/
theorem memRead_clearStack (s : State) (b : Addr) : memRead (clearStack s) b =
    if s.cfg.stackAliased = true ∧ 256 ≤ b.toNat ∧ b.toNat < 512 then 0 else memRead s b := by
  by_cases haliased : s.cfg.stackAliased = true
  · by_cases hpage : 256 ≤ b.toNat ∧ b.toNat < 512
    · simpa [memRead, clearStack, haliased, hpage] using
        cellRead_filter_drop s.mem (fun k => !inStackPage k) (b := b.toNat) (by simp [inStackPage, hpage])
    · simpa [memRead, clearStack, haliased, hpage] using
        cellRead_filter_keep s.mem (fun k => !inStackPage k) (b := b.toNat)
          (by simpa [inStackPage] using not_and_or.1 hpage)
  · simp [memRead, clearStack, haliased]

/-- R38: what reset keeps, said of the part of it that looks at the parameters. -/
theorem clearStack_control (s : State) :
    (clearStack s).run = s.run ∧ (clearStack s).speedMs = s.speedMs ∧ (clearStack s).cfg = s.cfg := by
  unfold clearStack
  split <;> exact ⟨rfl, rfl, rfl⟩

/-- Settles O53: the assigned fields, and what clearing the Stack does to the arrays. -/
theorem hostResetResult : Obligations.HostResetResult := by
  rintro s t ⟨⟩
  obtain ⟨hrun, hspeed, hcfg⟩ := clearStack_control s
  exact ⟨rfl, rfl, rfl, rfl, rfl, rfl, rfl, stackRead_clearStack s, hrun, hspeed, hcfg, memRead_clearStack s⟩

/-! ## The stepping loop -/

/-- R103: what a tick that took a step did. -/
theorem tick_stepped {s t : State} {brk : Bool} (h : tick s = .stepped t brk) :
    ∃ u, engineStep s = .ok u brk ∧ t = if brk then { u with run := .idle } else u := by
  unfold tick at h
  split at h
  · cases h
  · cases h
  · split at h
    · cases h
    · split at h <;> cases h
      exact ⟨_, ‹_›, rfl⟩

/-- R103: what a tick that raised did. -/
theorem tick_crashed {s t : State} {f : Fault} (h : tick s = .crashed f t) :
    s.run = .running ∧ ∃ u, engineStep s = .fault f u ∧ t = { u with run := .idle } := by
  unfold tick at h
  split at h
  · cases h
  · cases h
  · split at h
    · cases h
    · split at h <;> cases h
      exact ⟨‹_›, _, ‹_›, rfl⟩

/-- R101: a step that raises has changed pc at most. -/
theorem engineStep_fault_frame {s t : State} {f : Fault} (h : engineStep s = .fault f t) :
    t = { s with pc := t.pc } := by
  obtain ⟨-, rfl⟩ | ⟨i, -, -, rfl⟩ := engineStep_fault h <;> rfl

/-- Settles O55: the tick adds the end of the loop to what the failed step left. -/
theorem crashedTickIsNotAHalt : Obligations.CrashedTickIsNotAHalt := by
  intro s t f h
  obtain ⟨hrun, u, hstep, rfl⟩ := tick_crashed h
  refine ⟨hrun, ?_⟩
  rw [engineStep_fault_frame hstep]

/-- R98: the step that signals has set B. -/
theorem engineStep_break {s t : State} (h : engineStep s = .ok t true) : t.flags.b = true := by
  obtain ⟨i, u, -, -, rfl, hbrk⟩ := engineStep_ok h
  rw [endPhase_flags, breakPhase_flags, if_pos hbrk.symm]

/-- R103, R289: a tick that reports the break signal leaves B set and the loop Idle. -/
theorem tick_halted {s t : State} (h : tick s = .stepped t true) : t.flags.b = true ∧ t.run = .idle := by
  obtain ⟨u, hstep, rfl⟩ := tick_stepped h
  have hb := engineStep_break hstep
  exact ⟨hb, rfl⟩

theorem runLoop_halted {n : Nat} {s t : State} (h : runLoop n s = .halted t) : t.flags.b = true ∧ t.run = .idle := by
  induction n generalizing s with
  | zero => cases h
  | succ n ih =>
    rw [runLoop] at h
    split at h
    case h_2 htick =>
      cases h
      exact tick_halted htick
    case h_3 => exact ih h
    all_goals cases h

/-- D15: with LOOP_STOP_ON_FLAG a Running loop that finds B set stops. -/
theorem tick_of_break {s : State} (hrun : s.run = .running) (hstop : s.cfg.loopStopOnFlag = true)
    (hb : s.flags.b = true) : tick s = .noStep { s with run := .idle } := by
  simp [tick, hrun, hstop, hb]

/-- Settles O56: by induction on the ticks; the run ends at the tick that halts. -/
theorem haltedRunEndsWithBreak : Obligations.HaltedRunEndsWithBreak := fun n s t =>
  ⟨runLoop_halted, fun hrun hstop hb => by rw [runLoop, tick_of_break hrun hstop hb]⟩

/-! ## Loading a program -/

/-- R81: the fetched bytes start with any word that stands in Memory from pc on, below the top of Memory. -/
theorem fetchBytes_of_cells {s : State} {bs : List Byte} (hlen : bs.length ≤ 3)
    (htop : s.pc.toNat + bs.length ≤ 65536) (h : ∀ k (hk : k < bs.length), cellRead s.mem (s.pc.toNat + k) = bs[k]) :
    ∃ rest, fetchBytes s = bs ++ rest := by
  refine ⟨(fetchBytes s).drop bs.length, ?_⟩
  have htake : (fetchBytes s).take bs.length = bs := by
    apply List.ext_getElem
    · simp [fetchBytes, hlen]
    · intro k _ hk
      rw [List.getElem_take, ← h k hk]
      have hsmall : s.pc.toNat + k < 65536 := by omega
      have hcases : k = 0 ∨ k = 1 ∨ k = 2 := by omega
      obtain rfl | rfl | rfl := hcases <;> simp [fetchBytes, memRead, addrAdd, Nat.mod_eq_of_lt hsmall]
  conv_lhs => rw [← List.take_append_drop bs.length (fetchBytes s), htake]

/-- R65, R81: an encoding that is fetched is fetched as its instruction. -/
theorem fetchInstr_of_encode {s : State} {i : Instr} {rest : List Byte} (h : fetchBytes s = encode i ++ rest) :
    fetchInstr s = .ok i := by
  apply fetchInstr_of_decode (rest := rest)
  rw [h, decodeInvertsEncode]

theorem encode_length_le (i : Instr) : (encode i).length ≤ 3 := by
  rw [encode_length, Instr.length]
  cases i.mode <;> simp [operandLength]

/-- Settles O18: what is loaded is what the fetch finds at pc, and the fetch decodes an encoding to its instruction. -/
theorem loadedBytesAreFetched : Obligations.LoadedBytesAreFetched := by
  intro origin i s
  rw [← encode_length]
  constructor
  · intro hfits
    obtain ⟨m, hload, hcells, -⟩ := loadBytes_ok (encode i) origin.toNat s hfits
    refine ⟨{ s with pc := origin, mem := m }, by rw [boot, hload]; rfl, rfl, ?_, rfl⟩
    obtain ⟨rest, hrest⟩ :=
      fetchBytes_of_cells (s := { s with pc := origin, mem := m }) (encode_length_le i) hfits hcells
    exact fetchInstr_of_encode hrest
  · intro htop
    obtain ⟨n, hn⟩ := loadBytes_error (encode i) origin.toNat s origin.isLt.le htop
    exact ⟨n, by rw [boot, hn]⟩

end Sys2Proof.Machine
end

section
/-! Numbers: differences (spec 00 section 6), the status byte (R27, R28) and effective addresses (R88 to R96). -/

namespace Sys2Proof.Machine

/-! ## Sums and differences -/

/-- R4: ByteDec overflows at 0 and nowhere else. -/
theorem byteDec_overflow_iff (b : Byte) : (byteDec b).overflow = true ↔ b.toNat = 0 :=
  beq_iff_eq.trans BitVec.toNat_inj.symm

/-- R6, R7: the Byte of a difference down to -127: itself, or sign bit and magnitude. -/
def differenceByte (raw : Int) : Byte := BitVec.ofNat 8 (if 0 ≤ raw then raw.toNat else 128 + (-raw).toNat)

/-- R6, R7: a difference down to -127 has a Byte in every machine. -/
theorem byteSub_in_range {cfg : Config} {a b : Byte} {bin : Bool} {raw : Int}
    (hraw : raw = (a.toNat : Int) - b.toNat - bin.toNat) (h : -127 ≤ raw) :
    byteSub cfg a b bin = .ok ⟨raw, differenceByte raw, decide (raw < 0)⟩ := by
  subst hraw
  by_cases h0 : 0 ≤ (a.toNat : Int) - b.toNat - bin.toNat
  · rw [byteSub_nonneg cfg a b bin h0, differenceByte, if_pos h0, decide_eq_false (by omega)]
  · have hneg : (a.toNat : Int) - b.toNat - bin.toNat < 0 := by omega
    rw [byteSub_small cfg a b bin ⟨h, hneg⟩, differenceByte, if_neg h0, signed_byte_eq, decide_eq_true hneg]

/-- R7, D5: a difference of -128 or lower for which NEG_BYTE_WIDE lists no byte is raised. -/
theorem byteSub_unlisted {cfg : Config} {a b : Byte} {bin : Bool} {raw : Int}
    (hraw : raw = (a.toNat : Int) - b.toNat - bin.toNat) (h : raw ≤ -128)
    (hlookup : cfg.negByteWide.lookup (-raw).toNat = none) : byteSub cfg a b bin = .error (.valueRange raw) := by
  subst hraw
  rw [byteSub_wide cfg a b bin h, hlookup]

/-- R7, D5: one for which it lists `w` is stored as `w`. -/
theorem byteSub_listed {cfg : Config} {a b w : Byte} {bin : Bool} {raw : Int}
    (hraw : raw = (a.toNat : Int) - b.toNat - bin.toNat) (h : raw ≤ -128)
    (hlookup : cfg.negByteWide.lookup (-raw).toNat = some w) : byteSub cfg a b bin = .ok ⟨raw, w, true⟩ := by
  subst hraw
  rw [byteSub_wide cfg a b bin h, hlookup]

/-- Settles O51: the operations as numbers; a difference by the three ranges it can be in. -/
theorem sumsAndDifferences : Obligations.SumsAndDifferences := by
  intro cfg a b k
  refine ⟨⟨rfl, by simp [byteAdd], decide_eq_true_iff⟩, ⟨byteDec_value_toNat b, byteDec_overflow_iff b⟩, ?_⟩
  intro raw hraw
  have ha := a.isLt
  refine ⟨fun h => ?_, fun hlow hneg => ?_, fun h => ⟨byteSub_unlisted hraw h, fun w => byteSub_listed hraw h⟩⟩
  · refine ⟨_, byteSub_in_range hraw (by omega), rfl, ?_, decide_eq_false (by omega)⟩
    simp only [differenceByte, if_pos h, BitVec.toNat_ofNat]
    omega
  · refine ⟨_, byteSub_in_range hraw hlow, rfl, ?_, decide_eq_true hneg⟩
    simp only [differenceByte, if_neg (Int.not_le.2 hneg), BitVec.toNat_ofNat]
    omega

/-- R7: the Byte of a negative difference down to -127 has its sign bit set. -/
theorem differenceByte_bit7_of_neg {raw : Int} (hlow : -127 ≤ raw) (hneg : raw < 0) :
    (differenceByte raw).getLsbD 7 = true := by
  rw [differenceByte, if_neg (by omega)]
  exact bit7_of_ge (by omega) (by omega)

/-! ## The status byte -/

/-- R27, R28, D4: the status byte gives its flags back, has STATUS_BIT5 as bit 5, and as a number is the sum of its
bits; by all values of the seven flags and of STATUS_BIT5. -/
theorem flagsToByte_values (cfg : Config) (f : Flags) :
    byteToFlags (flagsToByte cfg f) = f ∧ (flagsToByte cfg f).getLsbD 5 = cfg.statusBit5 ∧
    flagsToByte cfg f = BitVec.ofNat 8 (f.c.toNat + 2 * f.z.toNat + 4 * f.i.toNat + 8 * f.d.toNat + 16 * f.b.toNat +
      32 * cfg.statusBit5.toNat + 64 * f.v.toNat + 128 * f.n.toNat) := by
  obtain ⟨c, z, i, d, b, v, n⟩ := f
  simp only [flagsToByte]
  generalize cfg.statusBit5 = bit5
  revert c z i d b v n bit5
  decide

/-- R28: no flag is read from bit 5. -/
theorem byteToFlags_ignores_bit5 (p : Byte) : byteToFlags (p ||| 0x20) = byteToFlags (p &&& 0xDF) := by
  simp [byteToFlags]

/-- Settles O49: the status byte's values, and that bit 5 is none of the seven positions. -/
theorem statusByteRoundTrip : Obligations.StatusByteRoundTrip := by
  refine ⟨fun cfg f => ?_, byteToFlags_ignores_bit5⟩
  obtain ⟨hflags, hbit5, -⟩ := flagsToByte_values cfg f
  exact ⟨hflags, hbit5⟩

/-! ## Effective addresses -/

theorem zext16_eq_ofNat (b : Byte) : zext16 b = BitVec.ofNat 16 b.toNat :=
  (BitVec.ofNat_toNat 16 b).symm

theorem addr_succ_eq_ofNat (a : Addr) : a + 1 = BitVec.ofNat 16 (a.toNat + 1) := by
  rw [BitVec.ofNat_add, BitVec.ofNat_toNat, BitVec.setWidth_eq]
  rfl

/-- R88, R89, D7: zero-page indexing as a number. -/
theorem zeroPageIndexed_toNat (cfg : Config) (z index : Byte) : (zeroPageIndexed cfg z index).toNat =
    if cfg.zpIndexWrap then (z.toNat + index.toNat) % 256 else z.toNat + index.toNat := by
  have hz := z.isLt
  have hindex := index.isLt
  unfold zeroPageIndexed
  split
  · rw [zext16_toNat, BitVec.toNat_add]
  · rw [BitVec.toNat_add, zext16_toNat, zext16_toNat]
    omega

theorem addrAdd_value_toNat (a : Addr) (k : Nat) : (addrAdd a k).value.toNat = (a.toNat + k) % 65536 :=
  BitVec.toNat_ofNat _ _

/-- Settles O20: the four sums as numbers. -/
theorem indexedAddresses : Obligations.IndexedAddresses := fun s z a =>
  ⟨_, _, _, _, rfl, rfl, rfl, rfl, zeroPageIndexed_toNat s.cfg z s.x, zeroPageIndexed_toNat s.cfg z s.y,
    addrAdd_value_toNat a _, addrAdd_value_toNat a _⟩

/-- R42, D9: a pointer and the two bytes it is read from, at addresses given as numbers. -/
theorem readPointer_toNat_ofNat (s : State) (a : Addr) : (readPointer s a).toNat =
    (memRead s a).toNat + 256 * (memRead s (BitVec.ofNat 16 (a.toNat + 1))).toNat := by
  rw [readPointer_toNat, addr_succ_eq_ofNat]

/-- R95: the low byte's carry goes into the high byte, so the index is added to the whole pointer. -/
theorem indirectIndexed_toNat (s : State) (z index : Byte) : (indirectIndexed s z index).toNat =
    ((readPointer s (zext16 z)).toNat + index.toNat) % 65536 := by
  have hlo := (memRead s (zext16 z)).isLt
  have hhi := (memRead s (zext16 z + 1)).isLt
  have hindex := index.isLt
  rw [readPointer_toNat]
  simp only [indirectIndexed, byteAdd, addrInc, mkAddr_toNat, Bool.toNat_false, Nat.add_zero, BitVec.toNat_ofNat,
    decide_eq_true_eq, apply_ite BitVec.toNat, byteInc_value_toNat]
  split <;> omega

/-- Settles O21: each mode reads its pointer, at the address its rule gives. -/
theorem indirectAddresses : Obligations.IndirectAddresses := by
  intro s z a
  refine ⟨_, _, _, rfl, rfl, rfl, readPointer_toNat_ofNat s a, ?_, ?_⟩
  · rw [readPointer_toNat_ofNat, zext16_toNat, zext16_eq_ofNat, BitVec.toNat_add]
  · rw [indirectIndexed_toNat, readPointer_toNat_ofNat, zext16_toNat, zext16_eq_ofNat]

/-- R94: the indirect modes of R61 belong to JMP. -/
theorem mnemonic_of_indirect {m : Mnemonic} (h : Mode.indirect ∈ m.modes) : m = .jmp := by
  revert h
  cases m <;> decide

theorem not_isMemoryMode_iff (mode : Mode) :
    mode ∈ [.implied, .accumulator, .immediate, .relative] ↔ isMemoryMode mode = false := by
  cases mode <;> decide

/-- Settles O22: the four modes are those that are no memory modes. -/
theorem onlyMemoryModesResolve : Obligations.OnlyMemoryModesResolve := by
  refine ⟨fun o s => ?_, fun i hi => mnemonic_of_indirect (hi ▸ i.mode_legal)⟩
  rw [not_isMemoryMode_iff, Bool.not_eq_false]
  exact ⟨fun h => resolve_addressing h s, fun h => resolve_ok h s⟩

end Sys2Proof.Machine
end

section
/-! The results of the instructions outside the stack and the branches (spec 41 to 43, 45), in every mode: the handler
of the mnemonic, run on the value or the address that the mode gives. -/

namespace Sys2Proof.Machine

/-! ## How an instruction gets its value or its address -/

/-- R84, R85: an instruction whose handler `k` works on its operand value, in modes that all have one. -/
theorem exec_with_value {i : Instr} {m : Mnemonic} {s : State} {k : Byte → Result} (hi : i.mnemonic = m)
    (hmodes : Mode.implied ∉ m.modes) (hk : handler m i.operand s = withValue i.operand s k) :
    ∃ v, getValue i.operand s = .ok v ∧ exec i s = k v := by
  obtain ⟨v, hv⟩ := value_of_mnemonic hi hmodes s
  exact ⟨v, hv, by rw [(exec_of_mnemonic hi s).1, hk, withValue_ok hv]⟩

/-- R84, R86: an instruction whose handler `k` works on its effective address, in modes that all have one. -/
theorem exec_with_address {i : Instr} {m : Mnemonic} {s : State} {k : Addr → Result} (hi : i.mnemonic = m)
    (hmodes : m.modes.all isMemoryMode = true) (hk : handler m i.operand s = withAddress i.operand s k) :
    ∃ ea, resolve i.operand s = .ok ea ∧ exec i s = k ea := by
  obtain ⟨ea, hea⟩ := address_of_mnemonic hi hmodes s
  exact ⟨ea, hea, by rw [(exec_of_mnemonic hi s).1, hk, withAddress_ok hea]⟩

theorem memRead_memWrite_same (s : State) (ea : Addr) (v : Byte) : memRead (memWrite s ea v) ea = v := by
  simp

theorem memRead_memWrite_of_ne (s : State) {ea b : Addr} (v : Byte) (h : b ≠ ea) :
    memRead (memWrite s ea v) b = memRead s b := by
  simp [h]

/-! ## Loads, stores and transfers -/

/-- Settles O23: the handlers are the stated assignments of the operand value. -/
theorem loadResults : Obligations.LoadResults := fun _ _ =>
  ⟨fun hi => exec_with_value hi (by decide) rfl, fun hi => exec_with_value hi (by decide) rfl,
    fun hi => exec_with_value hi (by decide) rfl⟩

/-- Settles O24: each store is one Memory write of its register at the effective address. -/
theorem storeResults : Obligations.StoreResults := by
  intro i s v h
  obtain ⟨ea, hea, hexec⟩ : ∃ ea, resolve i.operand s = .ok ea ∧ exec i s = .next (memWrite s ea v) := by
    obtain ⟨hi, rfl⟩ | ⟨hi, rfl⟩ | ⟨hi, rfl⟩ := h <;> exact exec_with_address hi (by decide) rfl
  exact ⟨ea, _, hea, hexec, rfl, memRead_memWrite_same s ea v, fun _ => memRead_memWrite_of_ne s v⟩

/-- Settles O25: the handlers are the stated assignments. -/
theorem transferResults : Obligations.TransferResults := fun _ => ⟨rfl, rfl, rfl, rfl, rfl, rfl⟩

/-! ## Add, subtract and compare -/

/-- Settles O26: the sum is the raw one, reduced, and the flags are taken from both. -/
theorem addWithCarryResult : Obligations.AddWithCarryResult := by
  intro i s hi
  obtain ⟨m, hm, hexec⟩ := exec_with_value (s := s) hi (by decide) rfl
  refine ⟨m, hm, ?_⟩
  rintro raw _ hraw rfl
  have hsum : s.a.toNat + m.toNat + (carryIn s).toNat = raw := by rw [carryIn_toNat, hraw]
  rw [hexec]
  subst hsum
  rfl

/-- R131: the difference that SBC makes, as a number. -/
theorem sbc_difference {s : State} {a m : Byte} {raw : Int}
    (h : raw = (a.toNat : Int) - m.toNat - (if s.cfg.arithCarryIn then 1 - (s.flags.c.toNat : Int) else 0)) :
    raw = (a.toNat : Int) - m.toNat - (borrowIn s).toNat := by
  rw [borrowIn_toNat, h]

/-- R131: V of SBC, as a statement about the three sign bits. -/
theorem sbcOverflow_eq_decide (a m r : Byte) :
    sbcOverflow a m r = decide (a.getLsbD 7 = m.getLsbD 7 ∧ r.getLsbD 7 ≠ a.getLsbD 7) := by
  rw [Bool.eq_iff_iff]
  simp [sbcOverflow]

theorem exec_sbc {i : Instr} (hi : i.mnemonic = .sbc) (s : State) : exec i s = sbc i.operand s :=
  (exec_of_mnemonic hi s).1

/-- R131: SBC when the difference has a Byte. -/
theorem sbc_of_difference {o : Operand} {s : State} {m : Byte} {diff : ByteDiff} (hm : getValue o s = .ok m)
    (hdiff : byteSub s.cfg s.a m (borrowIn s) = .ok diff) : sbc o s = .next { s with
      a := diff.value
      flags := { s.flags with
        c := decide (0 ≤ diff.raw)
        v := decide (s.a.getLsbD 7 = m.getLsbD 7 ∧ diff.value.getLsbD 7 ≠ s.a.getLsbD 7)
        n := diff.value.getLsbD 7
        z := diff.value == 0 } } := by
  rw [sbc_of_value hm, hdiff, ← sbcOverflow_eq_decide]
  rfl

/-- Settles O27: down to -127 the difference has its Byte in every machine. -/
theorem subtractWithCarryResult : Obligations.SubtractWithCarryResult := by
  intro i s hi
  obtain ⟨m, hm⟩ := value_of_mnemonic hi (by decide) s
  refine ⟨m, hm, ?_⟩
  rintro raw _ hraw hlow rfl
  rw [exec_sbc hi, sbc_of_difference hm (byteSub_in_range (sbc_difference hraw) hlow)]
  rfl

/-- R132 to R134: the three comparisons are one operation on their register. -/
theorem exec_compare {i : Instr} {s : State} {r : Byte}
    (h : (i.mnemonic = .cmp ∧ r = s.a) ∨ (i.mnemonic = .cpx ∧ r = s.x) ∨ (i.mnemonic = .cpy ∧ r = s.y)) :
    exec i s = compareWith r i.operand s := by
  obtain ⟨hi, rfl⟩ | ⟨hi, rfl⟩ | ⟨hi, rfl⟩ := h <;> exact (exec_of_mnemonic hi s).1

theorem value_of_compare {i : Instr} {s : State} {r : Byte}
    (h : (i.mnemonic = .cmp ∧ r = s.a) ∨ (i.mnemonic = .cpx ∧ r = s.x) ∨ (i.mnemonic = .cpy ∧ r = s.y)) :
    ∃ m, getValue i.operand s = .ok m := by
  obtain ⟨hi, -⟩ | ⟨hi, -⟩ | ⟨hi, -⟩ := h <;> exact value_of_mnemonic hi (by decide) s

/-- R132 to R134: a comparison when the difference has a Byte. -/
theorem compareWith_of_difference {o : Operand} {s : State} {r m : Byte} {diff : ByteDiff} (hm : getValue o s = .ok m)
    (hdiff : byteSub s.cfg r m false = .ok diff) : compareWith r o s = .next { s with
      flags := { s.flags with
        c := decide (m.toNat ≤ r.toNat)
        z := decide (r = m)
        n := diff.value.getLsbD 7 } } := by
  rw [compareWith_of_value hm, hdiff]
  rfl

/-- R132: N of a comparison is bit 7 of the re-encoded difference, which is set for a negative one. -/
theorem differenceByte_bit7 {r m : Byte} (hlow : -127 ≤ (r.toNat : Int) - m.toNat) :
    (differenceByte ((r.toNat : Int) - m.toNat)).getLsbD 7 =
      if m.toNat ≤ r.toNat then (BitVec.ofNat 8 (r.toNat - m.toNat)).getLsbD 7 else true := by
  split
  case isTrue h =>
    have hnat : ((r.toNat : Int) - m.toNat).toNat = r.toNat - m.toNat := by omega
    rw [differenceByte, if_pos (by omega), hnat]
  case isFalse h => exact differenceByte_bit7_of_neg hlow (by omega)

/-- Settles O28: down to -127 the difference has its Byte in every machine, and only N looks at it. -/
theorem compareResults : Obligations.CompareResults := by
  intro i s r hi
  obtain ⟨m, hm⟩ := value_of_compare hi
  refine ⟨m, hm, fun hlow => ?_⟩
  rw [exec_compare hi, compareWith_of_difference hm (byteSub_in_range (by simp) hlow), differenceByte_bit7 hlow]

/-- Settles O29: below the range the difference is raised, or is the byte that NEG_BYTE_WIDE lists. -/
theorem differenceBelowTheRange : Obligations.DifferenceBelowTheRange := by
  intro i s r m raw hm hraw
  constructor
  · rintro hi rfl hdiff
    have hdiff := sbc_difference hdiff
    rw [exec_sbc hi]
    refine ⟨fun hlookup => ?_, fun w hlookup => ?_⟩
    · rw [sbc_of_value hm, byteSub_unlisted hdiff hraw hlookup]
    · rw [sbc_of_difference hm (byteSub_listed hdiff hraw hlookup), decide_eq_false (by omega : ¬ 0 ≤ raw)]
  · intro hi hdiff
    have hdiff : raw = (r.toNat : Int) - m.toNat - false.toNat := by simpa using hdiff
    rw [exec_compare hi]
    refine ⟨fun hlookup => ?_, fun w hlookup => ?_⟩
    · rw [compareWith_of_value hm, byteSub_unlisted hdiff hraw hlookup]
    · have hlt : ¬ m.toNat ≤ r.toNat := by rw [Bool.toNat_false] at hdiff; omega
      have hne : r ≠ m := by rintro rfl; exact hlt le_rfl
      rw [compareWith_of_difference hm (byteSub_listed hdiff hraw hlookup), decide_eq_false hlt, decide_eq_false hne]

/-! ## Increment and decrement -/

theorem byteInc_value_eq_ofNat (b : Byte) : (byteInc b).value = BitVec.ofNat 8 (b.toNat + 1) :=
  BitVec.eq_of_toNat_eq <| by rw [byteInc_value_toNat, BitVec.toNat_ofNat]

/-- Settles O30: both are one read and one write at the effective address. -/
theorem memoryIncrementDecrementResults : Obligations.MemoryIncrementDecrementResults := by
  intro i s h
  obtain hi | hi := h
  · obtain ⟨ea, hea, hexec⟩ := exec_with_address (s := s) hi (by decide) rfl
    exact ⟨ea, _, _, hea, hexec, by rw [if_pos hi, byteInc_value_eq_ofNat], rfl, memRead_memWrite_same s ea _,
      fun _ => memRead_memWrite_of_ne s _⟩
  · obtain ⟨ea, hea, hexec⟩ := exec_with_address (s := s) hi (by decide) rfl
    exact ⟨ea, _, _, hea, hexec, by rw [if_neg (by simp [hi]), byteDec_value_eq_ofNat], rfl,
      memRead_memWrite_same s ea _, fun _ => memRead_memWrite_of_ne s _⟩

/-- Settles O31: the handlers are the stated assignments, with the new value as a number. -/
theorem registerIncrementDecrementResults : Obligations.RegisterIncrementDecrementResults := by
  intro s v
  refine ⟨?_, ?_, ?_, ?_⟩ <;> rintro rfl
  · rw [← byteInc_value_eq_ofNat]; rfl
  · rw [← byteInc_value_eq_ofNat]; rfl
  · rw [← byteDec_value_eq_ofNat]; rfl
  · rw [← byteDec_value_eq_ofNat]; rfl

/-! ## Logical operations and BIT -/

/-- Settles O32: each of the three is its bitwise operation, which works bit by bit. -/
theorem logicalResults : Obligations.LogicalResults := by
  intro i s h
  simp only [List.mem_cons, List.not_mem_nil, or_false] at h
  obtain hi | hi | hi := h
  all_goals
    obtain ⟨m, hm, hexec⟩ := exec_with_value (s := s) hi (by decide) rfl
    exact ⟨m, _, hm, fun k _ => by simp [hi], hexec⟩

/-- R153: both modes of BIT are memory modes, where the value is the byte at the effective address. -/
theorem bit_operand {i : Instr} (hi : i.mnemonic = .bit) (s : State) :
    ∃ ea, resolve i.operand s = .ok ea ∧ getValue i.operand s = .ok (memRead s ea) := by
  obtain ⟨ea, hea⟩ := address_of_mnemonic hi (by decide) s
  refine ⟨ea, hea, ?_⟩
  have hmode := (exec_of_mnemonic hi s).2
  rw [getValue_eq_map_resolve s, hea]
  · rfl
  · revert hmode
    cases i.operand.mode <;> decide

/-- Settles O33: Z from the conjunction, which is zero when no bit is common. -/
theorem bitTestResult : Obligations.BitTestResult := by
  intro i s hi
  obtain ⟨ea, hea, hm⟩ := bit_operand hi s
  refine ⟨ea, _, hea, rfl, ?_⟩
  rw [(exec_of_mnemonic hi s).1]
  exact withValue_ok hm _

/-! ## Shifts and rotates -/

/-! R154 to R157: the shifts as the rules compute them, with numbers, are the model's, with bits. -/

theorem shiftResult_asl : ∀ (v : Byte) (c : Bool), shiftResult .asl v c = some (shiftLeft v c) := by decide +kernel
theorem shiftResult_lsr : ∀ (v : Byte) (c : Bool), shiftResult .lsr v c = some (shiftRight v c) := by decide +kernel
theorem shiftResult_rol : ∀ (v : Byte) (c : Bool), shiftResult .rol v c = some (rotateLeft v c) := by decide +kernel
theorem shiftResult_ror : ∀ (v : Byte) (c : Bool), shiftResult .ror v c = some (rotateRight v c) := by decide +kernel

/-- Spec 43: the four run in the same frame, each with its own shift. -/
theorem exec_shift {i : Instr} (h : i.mnemonic ∈ [.asl, .lsr, .rol, .ror]) (s : State) :
    ∃ f, exec i s = shiftPlace f i.operand s ∧ ∀ v c, shiftResult i.mnemonic v c = some (f v c) := by
  simp only [List.mem_cons, List.not_mem_nil, or_false] at h
  obtain hi | hi | hi | hi := h <;> rw [(exec_of_mnemonic hi s).1, hi]
  · exact ⟨shiftLeft, rfl, shiftResult_asl⟩
  · exact ⟨shiftRight, rfl, shiftResult_lsr⟩
  · exact ⟨rotateLeft, rfl, shiftResult_rol⟩
  · exact ⟨rotateRight, rfl, shiftResult_ror⟩

theorem operand_of_accumulator {o : Operand} (h : o.mode = .accumulator) : o = .accumulator := by
  cases o with
  | accumulator => rfl
  | _ => cases h

/-- Settles O34: in accumulator mode the place that is read and written back is A. -/
theorem shiftAccumulatorResults : Obligations.ShiftAccumulatorResults := by
  intro i s hi hmode
  obtain ⟨f, hexec, hresult⟩ := exec_shift hi s
  have hplace : placeOf i.operand s = .ok .accumulator := by rw [operand_of_accumulator hmode, placeOf]
  exact ⟨_, _, hresult s.a s.flags.c, by rw [hexec, shiftPlace_eq hplace]; rfl⟩

/-- Settles O35: in the other modes it is the byte at the effective address. -/
theorem shiftMemoryResults : Obligations.ShiftMemoryResults := by
  intro i s hi hmode
  obtain ⟨f, hexec, hresult⟩ := exec_shift hi s
  obtain ⟨ea, hea⟩ := resolve_ok ((shift_mode_cases hi i.mode_legal).resolve_left hmode) s
  exact ⟨ea, _, _, _, hea, hresult (memRead s ea) s.flags.c, hexec.trans (shiftPlace_eq (placeOf_memory hea) f), rfl,
    memRead_memWrite_same s ea _, fun _ => memRead_memWrite_of_ne s _⟩

/-! ## Flag instructions -/

/-- Settles O43: the handlers are the stated assignments. -/
theorem flagInstructionResults : Obligations.FlagInstructionResults := fun _ => ⟨rfl, rfl, rfl, rfl, rfl, rfl, rfl⟩

end Sys2Proof.Machine
end

section
/-! Branches, jumps, calls and the Stack (spec 20 section 6, spec 44, spec 45), and the steps of NOP and BRK. -/

namespace Sys2Proof.Machine

/-! ## Branches and jumps -/

/-- R171 to R178: the tested flag and polarity of a branch are those of its handler, and branches have one mode. -/
theorem handler_of_branchCondition {m : Mnemonic} {s : State} {taken : Bool}
    (h : branchCondition m s.flags = some taken) :
    m.modes = [.relative] ∧ ∀ o, handler m o s = branchIf taken o s := by
  cases m
  case bcc | bcs | beq | bne | bmi | bpl | bvc | bvs =>
    obtain rfl := Option.some.inj h
    simp only [beq_false, beq_true]
    exact ⟨rfl, fun _ => rfl⟩
  all_goals cases h

theorem operand_of_relative {o : Operand} (h : o.mode = .relative) : ∃ d, o = .relative d := by
  cases o with
  | relative d => exact ⟨d, rfl⟩
  | _ => cases h

/-- Settles O36: the common rule of the branches, on the one operand byte that relative mode has. -/
theorem branchResults : Obligations.BranchResults := by
  intro i s taken h
  obtain ⟨hmodes, hhandler⟩ := handler_of_branchCondition h
  obtain ⟨d, hd⟩ := operand_of_relative (List.mem_singleton.1 (hmodes ▸ i.mode_legal))
  refine ⟨d, hd, ?_⟩
  rw [exec_eq_handler, hhandler, hd, ← addrSignedAdd_eq]
  exact withValue_ok rfl _

/-- R42: the address of a high and a low byte, from their numbers. -/
theorem mkAddr_eq_ofNat (hi lo : Byte) : mkAddr hi lo = BitVec.ofNat 16 (256 * hi.toNat + lo.toNat) := by
  rw [Nat.mul_comm, ← mkAddr_toNat, BitVec.ofNat_toNat, BitVec.setWidth_eq]

/-- Settles O37: the resolved address is the new pc. -/
theorem jumpResults : Obligations.JumpResults := by
  intro s a
  refine ⟨rfl, ?_⟩
  rw [Nat.add_comm, ← mkAddr_eq_ofNat]
  rfl

/-! ## Pushes -/

theorem sp_add_one_add_one (sp : Byte) : sp + 1 + 1 = sp + 2 := BitVec.add_assoc sp 1 1

theorem sp_add_one_ne_add_two (sp : Byte) : sp + 1 ≠ sp + 2 := by
  rw [← sp_add_one_add_one]
  bv_omega

/-- R46: a push writes SP and the arrays, and nothing else. -/
theorem push_frame (v : Byte) (s : State) :
    push v s = { s with sp := s.sp + 1, mem := (push v s).mem, stack := (push v s).stack } := by
  by_cases h : s.cfg.stackAliased = true <;> simp [push, stackWrite, h]

/-- Settles O47: the frame of a push, and what the cells read afterwards. -/
theorem pushIncrementsThenWrites : Obligations.PushIncrementsThenWrites := by
  intro s v
  refine ⟨?_, stackRead_push s v, fun h => push_mem_separate h v⟩
  rw [← byteInc_value_eq_ofNat]
  exact push_frame v s

theorem push_stack_aliased {s : State} (h : s.cfg.stackAliased = true) (v : Byte) : (push v s).stack = s.stack := by
  rw [push_stack, if_pos h]

/-- D2: with STACK_ALIASED a push leaves every Memory byte but that of its cell. -/
theorem memRead_push_of_ne {s : State} (h : s.cfg.stackAliased = true) (v : Byte) {b : Addr}
    (hb : b.toNat ≠ 256 + (s.sp + 1).toNat) : memRead (push v s) b = memRead s b :=
  (memRead_push_aliased h v b).trans (if_neg hb)

/-- R46: everything a push does. -/
theorem push_result (v : Byte) (s : State) :
    push v s = { s with sp := s.sp + 1, mem := (push v s).mem, stack := (push v s).stack } ∧
      stackRead (push v s) (s.sp + 1) = v ∧ (∀ j, j ≠ s.sp + 1 → stackRead (push v s) j = stackRead s j) ∧
      (s.cfg.stackAliased = false → (push v s).mem = s.mem) ∧
      (s.cfg.stackAliased = true → (push v s).stack = s.stack ∧
        ∀ b : Addr, b.toNat ≠ 256 + (s.sp + 1).toNat → memRead (push v s) b = memRead s b) :=
  ⟨push_frame v s, by simp, fun j hj => (stackRead_push s v j).trans (if_neg hj), fun h => push_mem_separate h v,
    fun h => ⟨push_stack_aliased h v, fun _ => memRead_push_of_ne h v⟩⟩

/-- Settles O41: PHA and PHP are one push, of A and of the status byte. -/
theorem pushInstructionResults : Obligations.PushInstructionResults := by
  intro s i v h
  obtain ⟨rfl, rfl⟩ | ⟨rfl, rfl⟩ := h
  · exact ⟨_, rfl, push_result _ s⟩
  · obtain ⟨-, -, hvalue⟩ := flagsToByte_values s.cfg s.flags
    rw [← hvalue]
    exact ⟨_, rfl, push_result _ s⟩

/-! ## Call and return -/

theorem pushAddr_frame (a : Addr) (s : State) :
    pushAddr a s = { s with sp := s.sp + 2, mem := (pushAddr a s).mem, stack := (pushAddr a s).stack } := by
  rw [pushAddr, push_frame, push_sp, sp_add_one_add_one]
  simp only [push_a, push_x, push_y, push_pc, push_flags, push_cycles, push_run, push_speedMs, push_cfg]

/-- R179: the cells after pushing an address, high byte first. -/
theorem stackRead_pushAddr (s : State) (a : Addr) (j : Byte) : stackRead (pushAddr a s) j =
    if j = s.sp + 2 then loByte a else if j = s.sp + 1 then hiByte a else stackRead s j := by
  rw [pushAddr, stackRead_push, push_sp, sp_add_one_add_one, stackRead_push]

theorem hiByte_toNat (a : Addr) : (hiByte a).toNat = a.toNat / 256 := by
  have h := mkAddr_toNat (hiByte a) (loByte a)
  rw [mkAddr_hiByte_loByte] at h
  have := (loByte a).isLt
  omega

theorem loByte_toNat (a : Addr) : (loByte a).toNat = a.toNat % 256 := by
  have h := mkAddr_toNat (hiByte a) (loByte a)
  rw [mkAddr_hiByte_loByte] at h
  have := (loByte a).isLt
  omega

/-- R179: JSR pushes the advanced pc and jumps. -/
theorem exec_jsr (a : Addr) (s : State) : exec (.jsrAbsolute a) s = .next { pushAddr s.pc s with pc := a } := rfl

theorem stackRead_with_pc (s : State) (a : Addr) (j : Byte) : stackRead { s with pc := a } j = stackRead s j :=
  stackRead_congr rfl rfl rfl j

/-- Settles O38: the two pushes of JSR, each with its own cell. -/
theorem callResult : Obligations.CallResult := by
  intro s a
  refine ⟨_, exec_jsr a s, ?_, ?_, ?_, ?_, ?_, ?_⟩
  · rw [pushAddr_frame]
  · rw [stackRead_with_pc, stackRead_pushAddr, if_neg (sp_add_one_ne_add_two _), if_pos rfl, hiByte_toNat]
  · rw [stackRead_with_pc, stackRead_pushAddr, if_pos rfl, loByte_toNat]
  · intro j h1 h2
    rw [stackRead_with_pc, stackRead_pushAddr, if_neg h2, if_neg h1]
  · intro h
    exact (push_mem_separate (by simpa using h) _).trans (push_mem_separate h _)
  · intro h
    have h' : (push (hiByte s.pc) s).cfg.stackAliased = true := by simpa using h
    refine ⟨(push_stack_aliased h' _).trans (push_stack_aliased h _), fun b h1 h2 => ?_⟩
    exact (memRead_push_of_ne h' _ (by rw [push_sp, sp_add_one_add_one]; exact h2)).trans (memRead_push_of_ne h _ h1)

theorem sp_sub_one_sub_one (sp : Byte) : sp - 1 - 1 = sp - 2 := by bv_omega

/-- R180: what RTS does, from the two cells it pulls. -/
theorem exec_rts (s : State) : exec .rtsImplied s = .next { s with
    sp := s.sp - 2, pc := mkAddr (stackRead s (s.sp - 1)) (stackRead s s.sp) } := by
  rw [← sp_sub_one_sub_one]
  rfl

theorem exec_rti (s : State) : exec .rtiImplied s = .next { s with
    sp := s.sp - 3
    pc := mkAddr (stackRead s (s.sp - 2)) (stackRead s (s.sp - 1))
    flags := byteToFlags (stackRead s s.sp) } := by
  rw [← sp_sub_one_sub_one, show s.sp - 3 = s.sp - 1 - 1 - 1 by bv_omega]
  rfl

/-- Settles O39: the pulled cells as numbers. -/
theorem returnResults : Obligations.ReturnResults := by
  intro s
  rw [← mkAddr_eq_ofNat, ← mkAddr_eq_ofNat]
  exact ⟨exec_rts s, exec_rti s⟩

/-- Settles O40: RTS pulls the two cells that JSR pushed. -/
theorem callThenReturnComesBack : Obligations.CallThenReturnComesBack := by
  intro s a
  refine ⟨_, _, exec_jsr a s, rfl, exec_rts _, ?_, ?_, ?_⟩
  · have hsp : (pushAddr s.pc s).sp = s.sp + 2 := by rw [pushAddr_frame]
    have hlow : s.sp + 2 - 1 = s.sp + 1 := by bv_omega
    change mkAddr (stackRead (pushAddr s.pc s) ((pushAddr s.pc s).sp - 1))
      (stackRead (pushAddr s.pc s) (pushAddr s.pc s).sp) = s.pc
    rw [hsp, hlow, stackRead_pushAddr, stackRead_pushAddr, if_neg (sp_add_one_ne_add_two _), if_pos rfl, if_pos rfl,
      mkAddr_hiByte_loByte]
  · simp only [pushAddr, push_sp]
    bv_omega
  · simp [pushAddr]

/-- Settles O42: the handlers are the stated assignments of the pulled cell. -/
theorem pullInstructionResults : Obligations.PullInstructionResults := fun _ => ⟨rfl, rfl⟩

/-! ## Many pushes and pulls -/

theorem sp_add_one_add_ofNat (sp : Byte) (n : Nat) : sp + 1 + BitVec.ofNat 8 n = sp + BitVec.ofNat 8 (n + 1) := by
  bv_omega

theorem pushAll_sp (vs : List Byte) (s : State) : (pushAll vs s).sp = s.sp + BitVec.ofNat 8 vs.length := by
  induction vs generalizing s with
  | nil => simp [pushAll]
  | cons v vs ih =>
    rw [pushAll, ih, push_sp, List.length_cons, sp_add_one_add_ofNat]

/-- R48: the cells below the pushed ones keep their bytes. -/
theorem stackRead_pushAll_of_ne (vs : List Byte) (s : State) (j : Byte)
    (h : ∀ k < vs.length, j ≠ s.sp + BitVec.ofNat 8 (k + 1)) : stackRead (pushAll vs s) j = stackRead s j := by
  induction vs generalizing s with
  | nil => rfl
  | cons v vs ih =>
    have hfirst : j ≠ s.sp + 1 := h 0 (by simp)
    rw [pushAll, ih, stackRead_push, if_neg hfirst]
    intro k hk
    have := h (k + 1) (by simpa using hk)
    rwa [push_sp, sp_add_one_add_ofNat]

/-- R48: up to 256 pushed bytes are in the cells above SP, in order. -/
theorem stackRead_pushAll (vs : List Byte) (s : State) (hlen : vs.length ≤ 256) (k : Nat) (hk : k < vs.length) :
    stackRead (pushAll vs s) (s.sp + BitVec.ofNat 8 (k + 1)) = vs[k] := by
  induction vs generalizing s k with
  | nil => cases hk
  | cons v vs ih =>
    rw [List.length_cons] at hlen hk
    rw [pushAll]
    cases k with
    | zero =>
      rw [stackRead_pushAll_of_ne, stackRead_push]
      · simp
      · intro n hn
        rw [push_sp]
        bv_omega
    | succ k =>
      have := ih (push v s) (by omega) k (by omega)
      rwa [push_sp, sp_add_one_add_ofNat] at this

/-- R48: pulls read the cells from SP downwards, and move nothing but SP. -/
theorem pullMany_eq (n : Nat) (s : State) : pullMany n s =
    ((List.range n).map fun k => stackRead s (s.sp - BitVec.ofNat 8 k), { s with sp := s.sp - BitVec.ofNat 8 n }) := by
  induction n generalizing s with
  | zero => simp [pullMany]
  | succ n ih =>
    have hsp (k : Nat) : s.sp - 1 - BitVec.ofNat 8 k = s.sp - BitVec.ofNat 8 (k + 1) := by bv_omega
    simp only [pullMany, ih, pull_sp, hsp, List.range_succ_eq_map, List.map_cons, List.map_map, BitVec.sub_zero]
    rfl

/-- Settles O48: both sides are the cells from the new SP downwards. -/
theorem stackDisciplineHolds : Obligations.StackDisciplineHolds := by
  intro vs s hlen
  rw [pullMany_eq]
  refine ⟨List.ext_getElem (by simp) fun k hk _ => ?_, ?_⟩
  · have hk : k < vs.length := by simpa using hk
    have hcell : s.sp + BitVec.ofNat 8 vs.length - BitVec.ofNat 8 k =
        s.sp + BitVec.ofNat 8 (vs.length - 1 - k + 1) := by bv_omega
    simp only [List.getElem_map, List.getElem_range, pushAll_sp, hcell, List.getElem_reverse]
    exact stackRead_pushAll vs s hlen _ (by omega)
  · simp [pushAll_sp]

/-! ## NOP and BRK -/

/-- Settles O44: the two handlers do nothing; what the step adds is its phases. -/
theorem nopAndBreakSteps : Obligations.NopAndBreakSteps := by
  intro s
  have count (hwidth : s.cfg.cycleWidth = none) : nextCycles s.cfg.cycleWidth s.cycles = s.cycles + 1 := by
    rw [hwidth, nextCycles]
  refine ⟨rfl, rfl, fun hwidth hbyte => ?_, fun hwidth hbyte => ?_⟩
  · have hfetch : fetchInstr s = .ok .nopImplied := fetchInstr_of_encode ((fetchBytes_eq s).trans (by rw [hbyte]; rfl))
    rw [engineStep_of_fetch hfetch rfl, ← count hwidth, advance_eq]
    rfl
  · have hfetch : fetchInstr s = .ok .brkImplied := fetchInstr_of_encode ((fetchBytes_eq s).trans (by rw [hbyte]; rfl))
    rw [engineStep_of_fetch hfetch rfl, ← count hwidth, advance_eq]
    rfl

end Sys2Proof.Machine
end

section
/-! What each instruction may write (spec 10 sections 1, 3, 6): the written-by lists, for a handler and for a step. -/

namespace Sys2Proof.Machine

/-- R26: the mnemonics that write N and Z. -/
@[simp] def nzWriters : List Mnemonic :=
  [.lda, .ldx, .ldy, .tax, .tay, .txa, .tya, .tsx, .pla, .adc, .sbc, .and, .ora, .eor, .inc, .inx, .iny, .dec, .dex,
    .dey, .asl, .lsr, .rol, .ror, .cmp, .cpx, .cpy, .bit, .plp, .rti]

/-- Spec 43: the shifts and rotates, which write A or Memory by their mode. -/
@[simp] def shifts : List Mnemonic := [.asl, .lsr, .rol, .ror]

/-- R46: the mnemonics that push. -/
@[simp] def pushers : List Mnemonic := [.pha, .php, .jsr]

/-- R20 to R26, R31, R32: what a handler leaves alone, by its mnemonic and the mode of its operand. B is also set after
the handler, in the break phase. -/
structure HandlerFrame (m : Mnemonic) (mode : Mode) (s t : State) : Prop where
  c : m ∉ [.adc, .sbc, .cmp, .cpx, .cpy, .asl, .lsr, .rol, .ror, .clc, .sec, .plp, .rti] → t.flags.c = s.flags.c
  z : m ∉ nzWriters → t.flags.z = s.flags.z
  n : m ∉ nzWriters → t.flags.n = s.flags.n
  i : m ∉ [.sei, .cli, .plp, .rti] → t.flags.i = s.flags.i
  d : m ∉ [.sed, .cld, .plp, .rti] → t.flags.d = s.flags.d
  b : m ∉ [.plp, .rti] → t.flags.b = s.flags.b
  v : m ∉ [.adc, .sbc, .bit, .clv, .plp, .rti] → t.flags.v = s.flags.v
  a : ¬ (m ∈ [.lda, .adc, .sbc, .and, .ora, .eor, .pla, .txa, .tya] ∨ (m ∈ shifts ∧ mode = .accumulator)) → t.a = s.a
  x : m ∉ [.ldx, .inx, .dex, .tax, .tsx] → t.x = s.x
  y : m ∉ [.ldy, .iny, .dey, .tay] → t.y = s.y
  sp : m ∉ [.pha, .php, .pla, .plp, .jsr, .rts, .rti, .txs] → t.sp = s.sp
  mem : ¬ (m ∈ [.sta, .stx, .sty, .inc, .dec] ∨ (m ∈ shifts ∧ mode ≠ .accumulator) ∨ m ∈ pushers) → t.mem = s.mem
  stack : m ∉ pushers → t.stack = s.stack

/-- R32, D2: the Memory byte a push changes is a cell of page 1, and there is one only when the Stack is aliased. -/
theorem push_changes_page {v : Byte} {s : State} {b : Addr} (h : memRead (push v s) b ≠ memRead s b) :
    s.cfg.stackAliased = true ∧ 0x0100 ≤ b.toNat ∧ b.toNat < 0x0200 := by
  by_cases haliased : s.cfg.stackAliased = true
  · have hb : b.toNat = stackPage (s.sp + 1) := by
      by_contra hne
      exact h ((memRead_push_aliased haliased v b).trans (if_neg hne))
    have := (s.sp + 1).isLt
    rw [stackPage] at hb
    exact ⟨haliased, by omega, by omega⟩
  · rw [memRead, push_mem_separate (Bool.eq_false_iff.2 haliased)] at h
    exact absurd rfl h

theorem pushAddr_changes_page {a : Addr} {s : State} {b : Addr} (h : memRead (pushAddr a s) b ≠ memRead s b) :
    s.cfg.stackAliased = true ∧ 0x0100 ≤ b.toNat ∧ b.toNat < 0x0200 := by
  by_cases hfirst : memRead (push (hiByte a) s) b = memRead s b
  · rw [← hfirst] at h
    simpa using push_changes_page h
  · exact push_changes_page hfirst

/-- R100: where a shift writes is A in accumulator mode and Memory in the others. -/
theorem placeOf_cases {o : Operand} {s : State} {p : Place} (h : placeOf o s = .ok p) :
    (p = .accumulator ∧ o.mode = .accumulator) ∨ ∃ ea, p = .memory ea ∧ o.mode ≠ .accumulator := by
  unfold placeOf at h
  split at h
  · cases h
    exact .inl ⟨rfl, rfl⟩
  · rename_i hne
    split at h <;> cases h
    exact .inr ⟨_, rfl, fun hmode => hne (operand_of_accumulator hmode)⟩

/-- Each handler keeps to its frame: a field is as before, or the mnemonic is listed for it. -/
theorem handler_frame {m : Mnemonic} {o : Operand} {s t : State} (h : handler m o s = .next t) :
    HandlerFrame m o.mode s t := by
  cases m
  case sbc =>
    obtain ⟨m, d, -, -, rfl⟩ := sbc_next h
    constructor <;> first | exact fun _ => rfl | simp
  case cmp | cpx | cpy =>
    obtain ⟨m, d, -, -, rfl⟩ := compareWith_next h
    constructor <;> first | exact fun _ => rfl | simp
  case asl | lsr | rol | ror =>
    obtain ⟨p, hp, rfl⟩ := shiftPlace_next h
    obtain ⟨rfl, hmode⟩ | ⟨ea, rfl, hmode⟩ := placeOf_cases hp <;> constructor <;>
      first | exact fun _ => rfl | simp [hmode]
  case inc | dec =>
    obtain ⟨ea, -, rfl⟩ := modifyMemory_next h
    constructor <;> first | exact fun _ => rfl | simp
  case bcc | bcs | beq | bne | bmi | bpl | bvc | bvs =>
    obtain ⟨d, -, rfl⟩ := branchIf_next h
    split <;> constructor <;> exact fun _ => rfl
  case lda | ldx | ldy | adc | and | ora | eor | bit =>
    obtain ⟨v, -, hk⟩ := withValue_next h
    cases hk
    constructor <;> first | exact fun _ => rfl | simp
  case sta | stx | sty | jmp =>
    obtain ⟨ea, -, hk⟩ := withAddress_next h
    cases hk
    constructor <;> first | exact fun _ => rfl | simp
  case jsr =>
    obtain ⟨ea, -, hk⟩ := withAddress_next h
    cases hk
    constructor <;> simp [pushAddr]
  all_goals
    cases h
    constructor <;> first | exact fun _ => rfl | simp

/-- R32, D2: what the three pushing handlers may change of Memory. -/
theorem handler_push_page {m : Mnemonic} {o : Operand} {s t : State} {b : Addr} (hm : m ∈ pushers)
    (h : handler m o s = .next t) (hb : memRead t b ≠ memRead s b) :
    s.cfg.stackAliased = true ∧ 0x0100 ≤ b.toNat ∧ b.toNat < 0x0200 := by
  simp only [pushers, List.mem_cons, List.not_mem_nil, or_false] at hm
  obtain rfl | rfl | rfl := hm
  · cases h
    exact push_changes_page hb
  · cases h
    exact push_changes_page hb
  · obtain ⟨ea, -, hk⟩ := withAddress_next h
    cases hk
    exact pushAddr_changes_page hb

/-- One step: a fetched instruction, a handler that kept to its frame, and the phases behind it. -/
theorem step_frame {s t : State} (h : step s = .next t) :
    ∃ i u, fetchInstr s = .ok i ∧ handler i.mnemonic i.operand (advance i s) = .next u ∧
      HandlerFrame i.mnemonic i.mode (advance i s) u ∧ t = endPhase (breakPhase i u) := by
  obtain ⟨i, u, hfetch, hexec, rfl⟩ := step_next_cases h
  rw [exec_eq_handler] at hexec
  exact ⟨i, u, hfetch, hexec, handler_frame hexec, rfl⟩

/-- A field that differs is one that is not left alone. -/
theorem of_ne {α : Type} {p : Prop} {x y : α} (h : ¬ p → x = y) (hne : x ≠ y) : p := by_contra fun hp => hne (h hp)

/-- R98: after the break phase B is set by BRK, and every other flag is the handler's. -/
theorem flags_of_phases (i : Instr) (u : State) : (endPhase (breakPhase i u)).flags =
    { u.flags with b := u.flags.b || isBreak i } := by
  rw [endPhase_flags, breakPhase_flags]
  cases isBreak i <;> simp

theorem isBreak_iff (i : Instr) : isBreak i = true ↔ i.mnemonic = .brk := beq_iff_eq

/-- Settles O14: the flags of the handler's frame, and B from the break phase. -/
theorem flagsAreWrittenOnlyByTheirInstructions : Obligations.FlagsAreWrittenOnlyByTheirInstructions := by
  intro s t hstep
  obtain ⟨i, u, hfetch, -, frame, rfl⟩ := step_frame hstep
  rw [flags_of_phases]
  refine ⟨i, hfetch, of_ne frame.c, of_ne frame.z, of_ne frame.i, of_ne frame.d, ?_, ?_,
    of_ne frame.v, of_ne frame.n⟩
  · intro hne
    by_cases hbrk : isBreak i = true
    · exact List.mem_cons.2 (.inl ((isBreak_iff i).1 hbrk))
    · have hb : u.flags.b ≠ s.flags.b := by simpa [hbrk] using hne
      exact List.mem_cons_of_mem _ (of_ne frame.b hb)
  · intro hset hclear
    apply of_ne frame.b
    have hb : u.flags.b = false := (Bool.or_eq_false_iff.1 hclear).1
    rw [hb, advance_flags, hset]
    decide

/-- Settles O15: the registers of the handler's frame; the phases behind it write none. -/
theorem registersAreWrittenOnlyByTheirInstructions : Obligations.RegistersAreWrittenOnlyByTheirInstructions := by
  intro s t hstep
  obtain ⟨i, u, hfetch, -, frame, rfl⟩ := step_frame hstep
  simp only [endPhase_a, endPhase_x, endPhase_y, endPhase_sp, breakPhase_a, breakPhase_x, breakPhase_y, breakPhase_sp]
  exact ⟨i, hfetch, of_ne frame.a, of_ne frame.x, of_ne frame.y, of_ne frame.sp⟩

/-- The phases behind the handler write no array. -/
theorem memRead_of_phases (i : Instr) (u : State) (b : Addr) :
    memRead (endPhase (breakPhase i u)) b = memRead u b := by
  simp [memRead]

theorem stackRead_separate {s t : State} (hcfg : t.cfg = s.cfg) (hstack : t.stack = s.stack)
    (h : s.cfg.stackAliased = false) (j : Byte) : stackRead t j = stackRead s j := by
  simp [stackRead, hcfg, hstack, h]

/-- Settles O16: the arrays of the handler's frame; with STACK_ALIASED a push may write page 1. -/
theorem arraysAreWrittenOnlyByTheirInstructions : Obligations.ArraysAreWrittenOnlyByTheirInstructions := by
  intro s t hstep
  obtain ⟨-, -, -, hcfg, -⟩ := step_effect hstep
  obtain ⟨i, u, hfetch, hhandler, frame, rfl⟩ := step_frame hstep
  refine ⟨i, hfetch, fun b hne => ?_, fun hseparate j hne => ?_⟩
  · rw [memRead_of_phases] at hne
    have hmem : u.mem ≠ s.mem := fun h => hne (by rw [memRead, h, memRead])
    refine (of_ne frame.mem hmem).imp_right (Or.imp_right fun hm => ?_)
    obtain ⟨haliased, hlow, hhigh⟩ := handler_push_page hm hhandler hne
    exact ⟨haliased, hm, hlow, hhigh⟩
  · by_contra hm
    refine hne (stackRead_separate hcfg ?_ hseparate j)
    rw [endPhase_stack, breakPhase_stack, frame.stack hm, advance_stack]

end Sys2Proof.Machine
end

section
/-! I and D are inert (spec 10 R26, spec 60 R255): every handler but that of PHP runs alike without them. -/

namespace Sys2Proof.Machine

/-- An outcome with I and D of its state set aside. -/
def resultWithoutID : Result → Result
  | .next t => .next (withoutID t)
  | .fault f => .fault f
  | .refused r => .refused r

@[simp] theorem withoutID_a (s : State) : (withoutID s).a = s.a := rfl
@[simp] theorem withoutID_cfg (s : State) : (withoutID s).cfg = s.cfg := rfl
@[simp] theorem borrowIn_withoutID (s : State) : borrowIn (withoutID s) = borrowIn s := rfl

theorem resolve_withoutID (o : Operand) (s : State) : resolve o (withoutID s) = resolve o s := by cases o <;> rfl

theorem getValue_withoutID (o : Operand) (s : State) : getValue o (withoutID s) = getValue o s := by cases o <;> rfl

theorem placeOf_withoutID (o : Operand) (s : State) : placeOf o (withoutID s) = placeOf o s := by cases o <;> rfl

theorem push_withoutID (v : Byte) (s : State) : push v (withoutID s) = withoutID (push v s) := by
  by_cases h : s.cfg.stackAliased = true <;> simp [push, stackWrite, withoutID, h]

/-- Handlers on an operand value, which does not depend on I and D. -/
theorem withValue_withoutID {o : Operand} {s : State} {k k' : Byte → Result}
    (h : ∀ v, resultWithoutID (k v) = resultWithoutID (k' v)) :
    resultWithoutID (withValue o s k) = resultWithoutID (withValue o (withoutID s) k') := by
  unfold withValue
  rw [getValue_withoutID]
  cases getValue o s with
  | ok v => exact h v
  | error f => rfl

/-- Handlers on an effective address, which does not depend on I and D. -/
theorem withAddress_withoutID {o : Operand} {s : State} {k k' : Addr → Result}
    (h : ∀ ea, resultWithoutID (k ea) = resultWithoutID (k' ea)) :
    resultWithoutID (withAddress o s k) = resultWithoutID (withAddress o (withoutID s) k') := by
  unfold withAddress
  rw [resolve_withoutID]
  cases resolve o s with
  | ok ea => exact h ea
  | error f => rfl

theorem compareWith_withoutID (r : Byte) (o : Operand) (s : State) :
    resultWithoutID (compareWith r o s) = resultWithoutID (compareWith r o (withoutID s)) := by
  refine withValue_withoutID fun m => ?_
  rw [withoutID_cfg]
  cases byteSub s.cfg r m false <;> rfl

theorem sbc_withoutID (o : Operand) (s : State) :
    resultWithoutID (sbc o s) = resultWithoutID (sbc o (withoutID s)) := by
  refine withValue_withoutID fun m => ?_
  rw [withoutID_cfg, withoutID_a, borrowIn_withoutID]
  cases byteSub s.cfg s.a m (borrowIn s) <;> rfl

theorem branchIf_withoutID (cond : Bool) (o : Operand) (s : State) :
    resultWithoutID (branchIf cond o s) = resultWithoutID (branchIf cond o (withoutID s)) := by
  refine withValue_withoutID fun d => ?_
  cases cond <;> rfl

theorem shiftPlace_withoutID (f : Byte → Bool → Byte × Bool) (o : Operand) (s : State) :
    resultWithoutID (shiftPlace f o s) = resultWithoutID (shiftPlace f o (withoutID s)) := by
  unfold shiftPlace
  rw [placeOf_withoutID]
  cases placeOf o s with
  | ok p => cases p <;> rfl
  | error e => rfl

/-- R26, R255: a handler does the same with I and D as without, but for PHP, which pushes them. -/
theorem handler_withoutID {m : Mnemonic} (hm : m ≠ .php) (o : Operand) (s : State) :
    resultWithoutID (handler m o s) = resultWithoutID (handler m o (withoutID s)) := by
  cases m
  case php => exact absurd rfl hm
  case sbc => exact sbc_withoutID o s
  case cmp | cpx | cpy => exact compareWith_withoutID _ o s
  case asl | lsr | rol | ror => exact shiftPlace_withoutID _ o s
  case bcc | bcs | beq | bne | bmi | bpl | bvc | bvs => exact branchIf_withoutID _ o s
  case lda | ldx | ldy | adc | and | ora | eor | bit => exact withValue_withoutID fun v => rfl
  case sta | stx | sty | inc | dec | jmp => exact withAddress_withoutID fun ea => rfl
  case jsr =>
    refine withAddress_withoutID fun ea => ?_
    rw [pushAddr, pushAddr, push_withoutID, push_withoutID]
    rfl
  case pha =>
    simp only [handler, pha, resultWithoutID]
    rw [push_withoutID]
    rfl
  all_goals rfl

/-- Settles O17: both states run as the one they agree on, and no instruction is refused. -/
theorem decimalAndInterruptFlagsAreInert : Obligations.DecimalAndInterruptFlagsAreInert := by
  intro i s u hi hagree
  have hsame : resultWithoutID (exec i s) = resultWithoutID (exec i u) := by
    rw [exec_eq_handler, exec_eq_handler, handler_withoutID hi, hagree, ← handler_withoutID hi]
  cases hs : exec i s with
  | next t =>
    cases hu : exec i u with
    | next w =>
      rw [hs, hu] at hsame
      exact .inl ⟨t, w, rfl, rfl, Host.Outcome.next.inj hsame⟩
    | fault | refused => rw [hs, hu] at hsame; cases hsame
  | fault f =>
    cases hu : exec i u with
    | fault g =>
      rw [hs, hu] at hsame
      obtain rfl := Host.Outcome.fault.inj hsame
      exact .inr ⟨f, rfl, rfl⟩
    | next | refused => rw [hs, hu] at hsame; cases hsame
  | refused r => exact absurd hs (exec_never_refused i s r)

end Sys2Proof.Machine
end

section
/-! The recursive stages of the assembler (spec 50), one line at a time: what each does with a line, then the rest. -/

namespace Sys2Proof.Machine

/-- R219, R220: substitution of a line, then of the rest. -/
theorem substituteAll_cons (c : Collected) (l : SourceLine) (ls : List SourceLine) : substituteAll c (l :: ls) =
    match substitute c l.operand with
    | none => .error ⟨.undefinedReference, l.line, none⟩
    | some op => (substituteAll c ls).bind fun rest => .ok (⟨l.line, l.mnemonic, op⟩ :: rest) := by
  simp only [substituteAll]
  cases substitute c l.operand with
  | none => rfl
  | some op => cases substituteAll c ls <;> rfl

/-- R221: sizing of a line, then of the rest. -/
theorem sizeLines_cons (radix : RelRadix) (offset : Nat) (l : AsmLine) (ls : List AsmLine) :
    sizeLines radix offset (l :: ls) =
      match lineMode radix l.mnemonic l.operand with
      | .error k => .error ⟨k, l.line, none⟩
      | .ok p => (sizeLines radix (offset + 1 + operandLength p.2) ls).bind fun rest => .ok (offset :: rest) := by
  simp only [sizeLines]
  cases lineMode radix l.mnemonic l.operand with
  | error k => rfl
  | ok p =>
    obtain ⟨m, mode⟩ := p
    dsimp only
    cases sizeLines radix (offset + 1 + operandLength mode) ls <;> rfl

/-- R226: emission of a line, then of the rest. -/
theorem emitLines_cons (radix : RelRadix) (origin : Addr) (all starts : List Nat) (l : AsmLine) (ls : List AsmLine) :
    emitLines radix origin all starts (l :: ls) =
      match emitLine radix origin all (starts.headD 0) l with
      | .error k => .error ⟨k, l.line, some (starts.headD 0)⟩
      | .ok bytes => (emitLines radix origin all starts.tail ls).bind fun rest => .ok (bytes ++ rest) := by
  simp only [emitLines]
  cases emitLine radix origin all (starts.headD 0) l with
  | error k => rfl
  | ok bytes => cases emitLines radix origin all starts.tail ls <;> rfl

end Sys2Proof.Machine
end

section
/-! The assembler and line numbers (spec 50 sections 2 and 7, R236): a line's number reaches nothing but errors. -/

namespace Sys2Proof.Machine

/-! ## Stages with line numbers set aside -/

/-- R236: an outcome of a stage with the line of its error, and by `f` those of its result, set aside. -/
def setLinesAside {α β : Type} (f : α → β) : Except AsmError α → Except AsmError β
  | .ok a => .ok (f a)
  | .error e => .error e.withoutLine

theorem setLinesAside_id {α : Type} (r : Except AsmError α) : setLinesAside id r = r.mapError AsmError.withoutLine := by
  cases r <;> rfl

/-- Two runs of a stage that agree up to line numbers agree so after next stages that do. -/
theorem setLinesAside_bind {α β γ δ : Type} {f : α → β} {g : γ → δ} {r r' : Except AsmError α}
    {next next' : α → Except AsmError γ} (h : setLinesAside f r = setLinesAside f r')
    (hnext : ∀ a a', f a = f a' → setLinesAside g (next a) = setLinesAside g (next' a')) :
    setLinesAside g (r.bind next) = setLinesAside g (r'.bind next') := by
  cases r with
  | ok a =>
    cases r' with
    | ok a' => exact hnext a a' (Except.ok.inj h)
    | error e' => cases h
  | error e =>
    cases r' with
    | ok a' => cases h
    | error e' => exact congrArg Except.error (Except.error.inj h)

/-- The same for a stage that goes on by putting what it has in front of the rest. -/
theorem setLinesAside_bind_ok {α β γ δ : Type} {f : α → β} {g : γ → δ} {r r' : Except AsmError α} {put put' : α → γ}
    (h : setLinesAside f r = setLinesAside f r') (hput : ∀ a a', f a = f a' → g (put a) = g (put' a')) :
    setLinesAside g (r.bind fun a => .ok (put a)) = setLinesAside g (r'.bind fun a => .ok (put' a)) :=
  setLinesAside_bind h fun a a' ha => congrArg Except.ok (hput a a' ha)

def SourceLine.unnumbered (l : SourceLine) : SourceLine := { l with line := 0 }

def AsmLine.unnumbered (l : AsmLine) : AsmLine := { l with line := 0 }

def Collected.unnumbered (c : Collected) : Collected := { c with lines := c.lines.map SourceLine.unnumbered }

theorem Collected.unnumbered_inj {c d : Collected} : c.unnumbered = d.unnumbered ↔
    c.labels = d.labels ∧ c.constants = d.constants ∧
      c.lines.map SourceLine.unnumbered = d.lines.map SourceLine.unnumbered := by
  simp [Collected.unnumbered]

/-- R214: the number at which pass 1 starts reaches line numbers only. -/
theorem collect_setLinesAside (ls : List Text) (n k : Nat) {c d : Collected} (h : c.unnumbered = d.unnumbered) :
    setLinesAside Collected.unnumbered (collect n c ls) = setLinesAside Collected.unnumbered (collect k d ls) := by
  induction ls generalizing n k c d with
  | nil => exact congrArg Except.ok h
  | cons l ls ih =>
    obtain ⟨hlabels, hconstants, hlines⟩ := Collected.unnumbered_inj.1 h
    have hlength : c.lines.length = d.lines.length := by simpa using congrArg List.length hlines
    simp only [collect]
    cases classifyLine l with
    | blank => exact ih _ _ h
    | label name => exact ih _ _ (Collected.unnumbered_inj.2 ⟨by simp [hlabels, hlength], hconstants, hlines⟩)
    | constant name value => exact ih _ _ (Collected.unnumbered_inj.2 ⟨hlabels, by simp [hconstants], hlines⟩)
    | instruction m o =>
      exact ih _ _ (Collected.unnumbered_inj.2 ⟨hlabels, hconstants, by simp [hlines, SourceLine.unnumbered]⟩)
    | badDefine => rfl

/-- R219, R220: substitution looks at operands, labels and constants. -/
theorem substituteAll_setLinesAside (c : Collected) (ls : List SourceLine) :
    setLinesAside (List.map AsmLine.unnumbered) (substituteAll c ls) =
      setLinesAside (List.map AsmLine.unnumbered) (substituteAll c.unnumbered (ls.map SourceLine.unnumbered)) := by
  induction ls with
  | nil => rfl
  | cons l ls ih =>
    have hsame : substitute c.unnumbered l.unnumbered.operand = substitute c l.operand := rfl
    rw [List.map_cons, substituteAll_cons, substituteAll_cons, hsame]
    cases substitute c l.operand with
    | none => rfl
    | some op => exact setLinesAside_bind_ok ih fun _ _ => congrArg (List.cons (AsmLine.mk 0 l.mnemonic op))

/-- R221, R222: sizing looks at mnemonics and operands. -/
theorem sizeLines_setLinesAside (radix : RelRadix) (offset : Nat) (ls : List AsmLine) :
    setLinesAside id (sizeLines radix offset ls) =
      setLinesAside id (sizeLines radix offset (ls.map AsmLine.unnumbered)) := by
  induction ls generalizing offset with
  | nil => rfl
  | cons l ls ih =>
    have hsame : lineMode radix l.unnumbered.mnemonic l.unnumbered.operand = lineMode radix l.mnemonic l.operand := rfl
    rw [List.map_cons, sizeLines_cons, sizeLines_cons, hsame]
    cases lineMode radix l.mnemonic l.operand with
    | error k => rfl
    | ok p => exact setLinesAside_bind_ok (ih _) fun _ _ => congrArg (List.cons offset)

/-- R226: emission looks at mnemonics and operands. -/
theorem emitLines_setLinesAside (radix : RelRadix) (origin : Addr) (all starts : List Nat) (ls : List AsmLine) :
    setLinesAside id (emitLines radix origin all starts ls) =
      setLinesAside id (emitLines radix origin all starts (ls.map AsmLine.unnumbered)) := by
  induction ls generalizing starts with
  | nil => rfl
  | cons l ls ih =>
    have hsame : emitLine radix origin all (starts.headD 0) l.unnumbered =
      emitLine radix origin all (starts.headD 0) l := rfl
    rw [List.map_cons, emitLines_cons, emitLines_cons, hsame]
    cases emitLine radix origin all (starts.headD 0) l with
    | error k => rfl
    | ok bytes => exact setLinesAside_bind_ok (ih _) fun _ _ => congrArg (bytes ++ ·)

/-! ## The stages put together -/

/-- Passes 2 and 3 (R221 to R233). -/
def assembleLines (radix : RelRadix) (origin : Addr) (lines : List AsmLine) : Except AsmError (List Byte) :=
  (sizeLines radix 0 lines).bind fun starts => emitLines radix origin starts starts lines

/-- The passes after pass 1 (R218 to R233). -/
def assembleCollected (radix : RelRadix) (origin : Addr) (c : Collected) : Except AsmError (List Byte) :=
  (substituteAll c c.lines).bind (assembleLines radix origin)

/-- R210: the stages in order. -/
theorem assembleText_eq_bind (radix : RelRadix) (source : Text) (origin : Addr) : assembleText radix source origin =
    (collect 1 ⟨[], [], []⟩ (splitLines source)).bind (assembleCollected radix origin) := by
  unfold assembleText
  cases collect 1 ⟨[], [], []⟩ (splitLines source) with
  | error e => rfl
  | ok c =>
    simp only [Except.bind, assembleCollected]
    cases substituteAll c c.lines with
    | error e => rfl
    | ok lines =>
      simp only [assembleLines]
      cases sizeLines radix 0 lines <;> rfl

theorem assembleLines_setLinesAside (radix : RelRadix) (origin : Addr) (lines : List AsmLine) :
    setLinesAside id (assembleLines radix origin lines) =
      setLinesAside id (assembleLines radix origin (lines.map AsmLine.unnumbered)) := by
  refine setLinesAside_bind (sizeLines_setLinesAside radix 0 lines) ?_
  rintro starts _ rfl
  exact emitLines_setLinesAside radix origin starts starts lines

/-- R236: after pass 1 the outcome depends on line numbers only in its error's line. -/
theorem assembleCollected_setLinesAside (radix : RelRadix) (origin : Addr) {c d : Collected}
    (h : c.unnumbered = d.unnumbered) :
    setLinesAside id (assembleCollected radix origin c) = setLinesAside id (assembleCollected radix origin d) := by
  refine setLinesAside_bind (f := List.map AsmLine.unnumbered) ?_ fun lines lines' hlines => ?_
  · have hc := substituteAll_setLinesAside c c.lines
    have hd := substituteAll_setLinesAside d d.lines
    obtain ⟨-, -, hlines⟩ := Collected.unnumbered_inj.1 h
    rw [hc, hd, h, hlines]
  · rw [assembleLines_setLinesAside, hlines, ← assembleLines_setLinesAside]

/-- R211, R236: pass 1 steps over a blank line, and numbers the lines behind it one higher. -/
theorem collect_blank_line {before blank after : Text} (hline : '\n' ∉ blank) (hblank : cleanLine blank = []) :
    setLinesAside Collected.unnumbered
        (collect 1 ⟨[], [], []⟩ (splitLines (before ++ '\n' :: (blank ++ '\n' :: after)))) =
      setLinesAside Collected.unnumbered (collect 1 ⟨[], [], []⟩ (splitLines (before ++ '\n' :: after))) := by
  rw [splitLines_append, splitLines_append, splitLines_append, splitLines_single hline, collect_append, collect_append]
  cases collect 1 ⟨[], [], []⟩ (splitLines before) with
  | error e => rfl
  | ok d =>
    simp only [List.singleton_append, collect, classifyLine_blank hblank]
    exact collect_setLinesAside _ _ _ rfl

/-- Settles O57: a blank line changes the numbers of the lines behind it, and no stage looks at those. -/
theorem blankLinesChangeNothing : Obligations.BlankLinesChangeNothing := by
  intro radix origin before blank after hline hblank
  rw [← setLinesAside_id, ← setLinesAside_id, assembleText_eq_bind, assembleText_eq_bind]
  exact setLinesAside_bind (collect_blank_line hline hblank) fun _ _ => assembleCollected_setLinesAside radix origin

end Sys2Proof.Machine
end

section
/-! What the assembler emits (spec 50 sections 5 to 7): the bytes of one line, and where they stand in the program. -/

namespace Sys2Proof.Machine

/-! ## One line -/

/-- R68: the mode of a mnemonic with one mode. -/
theorem singleMode_eq_some_iff (m : Mnemonic) (mode : Mode) : singleMode m = some mode ↔ m.modes = [mode] := by
  unfold singleMode
  split
  case h_1 only hmodes => simp [hmodes]
  case h_2 hmany => exact iff_of_false nofun (hmany mode)

/-- R222: the mode of a line with a label as operand. -/
theorem lineMode_label {radix : RelRadix} {text : Text} {m : Mnemonic} {k : Nat} (h : findMnemonic text = some m) :
    lineMode radix text (.label k) = .ok (m, (singleMode m).getD .absolute) := by
  simp only [lineMode, h]
  cases singleMode m <;> rfl

/-- R230: the mode that pass 3 reads from the final text is the one pass 2 sized the line with. -/
theorem parseOperand_mode {radix : RelRadix} {origin : Addr} {starts : List Nat} {start : Nat} {text t : Text}
    {op : AsmOperand} {m : Mnemonic} {mode mode' : Mode} {n : Int} (hline : lineMode radix text op = .ok (m, mode))
    (hfinal : finalText radix origin starts start mode op = .ok t) (hparse : parseOperand radix t = some (mode', n))
    (hsingle : ¬ ((singleMode m).isSome && mode' != mode) = true) : mode' = mode := by
  unfold lineMode at hline
  split at hline
  case h_1 => cases hline
  case h_2 found _ =>
    split at hline
    case h_1 hmode =>
      cases hline
      simpa [hmode] using hsingle
    case h_2 =>
      cases op with
      | text t' =>
        cases hfinal
        simp only [hparse] at hline
        cases hline
        rfl
      | label k =>
        cases hline
        change absoluteToken origin (labelOffset starts k) = .ok t at hfinal
        by_cases hfits : origin.toNat + labelOffset starts k ≤ 65535
        · obtain ⟨t', htoken, hparse'⟩ := absoluteToken_fits radix hfits
          cases htoken.symm.trans hfinal
          cases hparse.symm.trans hparse'
          rfl
        · cases (absoluteToken_far (Nat.lt_of_not_le hfits)).symm.trans hfinal

/-- R226, R231, R232: a line that is emitted is an opcode byte and as many operand bytes as its mode has. -/
theorem emitLine_length {radix : RelRadix} {origin : Addr} {starts : List Nat} {start : Nat} {l : AsmLine}
    {m : Mnemonic} {mode : Mode} {bytes : List Byte} (hline : lineMode radix l.mnemonic l.operand = .ok (m, mode))
    (h : emitLine radix origin starts start l = .ok bytes) : bytes.length = 1 + operandLength mode := by
  unfold emitLine at h
  rw [hline] at h
  split at h
  case h_1 heq => cases heq
  case h_2 heq =>
    cases heq
    split at h <;> cases h
    rfl
  case h_3 heq =>
    cases heq
    split at h
    case h_1 => cases h
    case h_2 hfinal =>
      split at h
      case h_1 => cases h
      case h_2 hparse =>
        split at h
        case isTrue => cases h
        case isFalse hsingle =>
          obtain rfl := parseOperand_mode hline hfinal hparse hsingle
          split at h
          case h_1 => cases h
          case h_2 =>
            split at h <;> cases h
            rename_i hoperand
            rw [List.length_cons, operandBytes_length hoperand, Nat.add_comm]

/-- R226, R230, R231: how a line of a mode with operand bytes is emitted, from the final text of its operand. -/
theorem emitLine_of_finalText {radix : RelRadix} {origin : Addr} {starts : List Nat} {start : Nat} {l : AsmLine}
    {m : Mnemonic} {mode : Mode} {t : Text} {n : Int} {opc : Byte} {ops : List Byte}
    (hline : lineMode radix l.mnemonic l.operand = .ok (m, mode)) (hmode : mode ≠ .implied)
    (hfinal : finalText radix origin starts start mode l.operand = .ok t)
    (hparse : parseOperand radix t = some (mode, n)) (hopc : encodeCommand m mode = some opc)
    (hops : operandBytes mode n = .ok ops) : emitLine radix origin starts start l = .ok (opc :: ops) := by
  unfold emitLine
  rw [hline]
  cases mode with
  | implied => exact absurd rfl hmode
  | _ => simp [hfinal, hparse, hopc, hops]

/-- R227 to R229: an operand without a final text is the line's error. -/
theorem emitLine_of_finalText_error {radix : RelRadix} {origin : Addr} {starts : List Nat} {start : Nat} {l : AsmLine}
    {m : Mnemonic} {mode : Mode} {k : AsmCause} (hline : lineMode radix l.mnemonic l.operand = .ok (m, mode))
    (hmode : mode ≠ .implied) (hfinal : finalText radix origin starts start mode l.operand = .error k) :
    emitLine radix origin starts start l = .error k := by
  unfold emitLine
  rw [hline]
  cases mode with
  | implied => exact absurd rfl hmode
  | _ => simp [hfinal]

/-- R63, R65: every Command with an opcode byte has an instruction for each pair of operand bytes. -/
theorem instr_of_command {m : Mnemonic} {mode : Mode} {opc : Byte} (h : encodeCommand m mode = some opc)
    (lo hi : Byte) : ∃ i : Instr, i.mnemonic = m ∧ i.operand = mode.operandOf lo hi ∧
      encode i = opc :: (mode.operandOf lo hi).bytes := by
  obtain ⟨sh, hsh, hcommand⟩ := Option.map_eq_some_iff.1 (decodeCommand_encodeCommand m mode opc h)
  cases hcommand
  have hmnemonic := mnemonic_fill hsh lo hi
  have hoperand := operand_fill hsh lo hi
  refine ⟨sh.fill lo hi, hmnemonic, hoperand, ?_⟩
  rw [encode, Instr.mode, hmnemonic, hoperand, Mode.operandOf_mode, h]

theorem encodeCommand_of_mem_modes {m : Mnemonic} {mode : Mode} (h : mode ∈ m.modes) :
    ∃ opc, encodeCommand m mode = some opc :=
  Option.ne_none_iff_exists'.1 fun hnone => (encodeCommand_eq_none_iff m mode).1 hnone h

/-- R222: a mnemonic that has absolute mode has it on a line with a label. -/
theorem singleMode_getD_absolute {m : Mnemonic} (h : Mode.absolute ∈ m.modes) :
    (singleMode m).getD .absolute = .absolute := by
  cases hsingle : singleMode m with
  | none => rfl
  | some mode =>
    rw [(singleMode_eq_some_iff m mode).1 hsingle] at h
    exact (List.mem_singleton.1 h).symm

/-- R42, R231: the operand bytes of an address. -/
theorem operandBytes_absolute (a : Addr) : operandBytes .absolute (a.toNat : Int) = .ok [loByte a, hiByte a] := by
  simp [operandBytes]

/-- Settles O59: the text of the label's address reads back as that address, if there is one. -/
theorem assembledLabelOperandIsItsAddress : Obligations.AssembledLabelOperandIsItsAddress := by
  rintro radix origin starts start k line text m _ htext hmodes rfl
  have hline : lineMode radix text (.label k) = .ok (m, .absolute) := by
    rw [lineMode_label htext, singleMode_getD_absolute hmodes]
  constructor
  · intro hfits
    obtain ⟨opc, hopc⟩ := encodeCommand_of_mem_modes hmodes
    obtain ⟨t, htoken, hparse⟩ := absoluteToken_fits radix hfits
    obtain ⟨a, ha⟩ : ∃ a : Addr, a.toNat = origin.toNat + labelOffset starts k :=
      ⟨BitVec.ofNat 16 _, Nat.mod_eq_of_lt (by omega)⟩
    rw [← ha] at hparse
    obtain ⟨i, hmnemonic, hoperand, hencode⟩ := instr_of_command hopc (loByte a) (hiByte a)
    rw [Mode.operandOf, mkAddr_hiByte_loByte] at hoperand hencode
    refine ⟨i, a, ?_, hmnemonic, hoperand, ha⟩
    rw [hencode]
    exact emitLine_of_finalText hline (by decide) htoken hparse hopc (operandBytes_absolute a)
  · intro htop
    exact emitLine_of_finalText_error hline (by decide) (absoluteToken_far htop)

/-! ## Branches -/

/-- R229: a branch whose label is out of reach is ValueRangeError. -/
theorem emitLine_branch_far {radix : RelRadix} {origin : Addr} {starts : List Nat} {start k line : Nat} {text : Text}
    {m : Mnemonic} (htext : findMnemonic text = some m) (hmodes : m.modes = [.relative])
    (hfar : (labelOffset starts k : Int) - (start + 2) < -127 ∨ 127 < (labelOffset starts k : Int) - (start + 2)) :
    emitLine radix origin starts start ⟨line, text, .label k⟩ =
      .error (.valueRange ((labelOffset starts k : Int) - (start + 2))) := by
  have hline : lineMode radix text (.label k) = .ok (m, .relative) := by
    rw [lineMode_label htext, (singleMode_eq_some_iff m .relative).2 hmodes, Option.getD_some]
  exact emitLine_of_finalText_error hline (by decide) (relativeToken_far radix (next := start + 2) hfar)

/-- R229, R231: a branch within reach is its opcode byte and the displacement from the next instruction. -/
theorem emitLine_branch_near {radix : RelRadix} {origin : Addr} {starts : List Nat} {start k line : Nat} {text : Text}
    {m : Mnemonic} (htext : findMnemonic text = some m) (hmodes : m.modes = [.relative])
    (hnear : -127 ≤ (labelOffset starts k : Int) - (start + 2) ∧ (labelOffset starts k : Int) - (start + 2) ≤ 127) :
    ∃ (i : Instr) (opc d : Byte), emitLine radix origin starts start ⟨line, text, .label k⟩ = .ok [opc, d] ∧
      encode i = [opc, d] ∧ i.mnemonic = m ∧ i.operand = .relative d ∧
      signMagnitude d = (labelOffset starts k : Int) - (start + 2) := by
  have hline : lineMode radix text (.label k) = .ok (m, .relative) := by
    rw [lineMode_label htext, (singleMode_eq_some_iff m .relative).2 hmodes, Option.getD_some]
  obtain ⟨opc, hopc⟩ := encodeCommand_of_mem_modes (m := m) (mode := .relative) (by simp [hmodes])
  obtain ⟨t, htoken, hparse⟩ := relativeToken_fits radix (next := start + 2) hnear
  obtain ⟨d, hd, hvalue⟩ := displacementByte_fits hnear
  obtain ⟨i, hmnemonic, hoperand, hencode⟩ := instr_of_command hopc d 0
  have hops : operandBytes .relative ((labelOffset starts k : Int) - (start + 2)) = .ok [d] := by
    rw [operandBytes, hd]
  refine ⟨i, opc, d, ?_, hencode, hmnemonic, hoperand, hvalue⟩
  exact emitLine_of_finalText hline (by decide) htoken hparse hopc hops

/-- R83, R170: a step that fetches a branch and takes it moves pc by the displacement from the next instruction. -/
theorem step_taken_branch {s : State} {i : Instr} {d : Byte} (hfetch : fetchInstr s = .ok i)
    (hoperand : i.operand = .relative d) (hcond : branchCondition i.mnemonic s.flags = some true) :
    step s = .next (endPhase { s with
      pc := BitVec.ofInt 16 (((s.pc + 2).toNat : Int) + signMagnitude d) }) := by
  have hadvance : advance i s = { s with pc := s.pc + 2 } := by
    rw [advance_eq, Instr.length, Instr.mode, hoperand]
    rfl
  have hbreak : isBreak i = false := by
    rw [Bool.eq_false_iff, Ne, isBreak_iff]
    intro hbrk
    rw [hbrk] at hcond
    cases hcond
  obtain ⟨d', hd', hexec⟩ := branchResults i (advance i s) true hcond
  cases hoperand.symm.trans hd'
  rw [step_of_fetch hfetch, hexec]
  simp only [breakPhase, hbreak, hadvance, if_true]
  rfl

/-- R170, D10: from the byte after the branch, the displacement leads to the label, modulo 65536. -/
theorem branch_target (origin : Addr) {start offset : Nat} {pc : Addr}
    (hpc : pc = BitVec.ofNat 16 (origin.toNat + start)) :
    BitVec.ofInt 16 (((pc + 2).toNat : Int) + ((offset : Int) - (start + 2))) =
      BitVec.ofNat 16 (origin.toNat + offset) := by
  subst hpc
  apply BitVec.eq_of_toNat_eq
  have htwo : (2 : Addr).toNat = 2 := rfl
  rw [BitVec.toNat_ofInt, BitVec.toNat_add, BitVec.toNat_ofNat, BitVec.toNat_ofNat, htwo]
  omega

/-- Settles O52: the emitted bytes are the branch with the displacement to the label, which the step then adds. -/
theorem assembledBranchReachesItsLabel : Obligations.AssembledBranchReachesItsLabel := by
  rintro radix origin starts start k line text m _ htext hmodes rfl
  refine ⟨emitLine_branch_far htext hmodes, fun hlow hhigh => ?_⟩
  obtain ⟨i, opc, d, hemit, hencode, hmnemonic, hoperand, hvalue⟩ :=
    emitLine_branch_near (radix := radix) (origin := origin) (line := line) htext hmodes ⟨hlow, hhigh⟩
  refine ⟨opc, d, i, hemit, ?_, hmnemonic, ?_⟩
  · have := decodeInvertsEncode i []
    rwa [hencode] at this
  · intro s hpc hopc hd hcond
    have hfetch : fetchInstr s = .ok i := fetchInstr_of_encode (rest := [memRead s (s.pc + 2)]) (by
      rw [fetchBytes_eq, hopc, hd, hencode]
      rfl)
    rw [← hmnemonic] at hcond
    refine ⟨_, step_taken_branch hfetch hoperand hcond, ?_⟩
    rw [hvalue, branch_target origin hpc]
    rfl

/-! ## The whole program -/

theorem sizeLines_cons_ok {radix : RelRadix} {offset : Nat} {l : AsmLine} {ls : List AsmLine} {starts : List Nat}
    (h : sizeLines radix offset (l :: ls) = .ok starts) : ∃ m mode rest,
      lineMode radix l.mnemonic l.operand = .ok (m, mode) ∧
      sizeLines radix (offset + 1 + operandLength mode) ls = .ok rest ∧ starts = offset :: rest := by
  rw [sizeLines_cons] at h
  split at h
  case h_1 => cases h
  case h_2 p hline =>
    cases hrest : sizeLines radix (offset + 1 + operandLength p.2) ls with
    | error e => rw [hrest] at h; cases h
    | ok rest =>
      rw [hrest] at h
      cases h
      exact ⟨_, _, _, hline, hrest, rfl⟩

theorem emitLines_cons_ok {radix : RelRadix} {origin : Addr} {all starts : List Nat} {l : AsmLine} {ls : List AsmLine}
    {bytes : List Byte} (h : emitLines radix origin all starts (l :: ls) = .ok bytes) : ∃ first rest,
      emitLine radix origin all (starts.headD 0) l = .ok first ∧
      emitLines radix origin all starts.tail ls = .ok rest ∧ bytes = first ++ rest := by
  rw [emitLines_cons] at h
  split at h
  case h_1 => cases h
  case h_2 first hfirst =>
    cases hrest : emitLines radix origin all starts.tail ls with
    | error e => rw [hrest] at h; cases h
    | ok rest =>
      rw [hrest] at h
      cases h
      exact ⟨_, _, hfirst, rfl, rfl⟩

/-- R221, R226: pass 3 emits as many bytes as lie between the first offset of pass 2 and its last one. -/
theorem emitLines_length {radix : RelRadix} {origin : Addr} {all starts : List Nat} {ls : List AsmLine}
    {offset : Nat} {bytes : List Byte} (hsize : sizeLines radix offset ls = .ok starts)
    (hemit : emitLines radix origin all starts ls = .ok bytes) : starts.getLast? = some (offset + bytes.length) := by
  induction ls generalizing offset starts bytes with
  | nil =>
    cases hsize
    cases hemit
    rfl
  | cons l ls ih =>
    obtain ⟨m, mode, rest, hline, hrest, rfl⟩ := sizeLines_cons_ok hsize
    obtain ⟨first, more, hfirst, hmore, rfl⟩ := emitLines_cons_ok hemit
    have hlast := ih hrest hmore
    rw [List.getLast?_cons, hlast, List.length_append, emitLine_length hline hfirst, Option.getD_some,
      Option.some_inj]
    omega

/-- Settles O58: from the offset 0. -/
theorem emittedLengthIsTheSizedLength : Obligations.EmittedLengthIsTheSizedLength := by
  intro radix origin lines starts bytes hsize hemit
  rw [emitLines_length hsize hemit, Nat.zero_add]

/-- R221, R226: the bytes of line `j` stand in the program at the offset that pass 2 gave the line. -/
theorem emitLines_at {radix : RelRadix} {origin : Addr} {all starts : List Nat} {ls : List AsmLine} {offset : Nat}
    {bytes : List Byte} (hsize : sizeLines radix offset ls = .ok starts)
    (hemit : emitLines radix origin all starts ls = .ok bytes) {j : Nat} {l : AsmLine} (hj : ls[j]? = some l) :
    ∃ before here after, bytes = before ++ here ++ after ∧ offset + before.length = labelOffset starts j ∧
      emitLine radix origin all (labelOffset starts j) l = .ok here := by
  induction ls generalizing offset starts bytes j with
  | nil => cases hj
  | cons l' ls ih =>
    obtain ⟨m, mode, rest, hline, hrest, rfl⟩ := sizeLines_cons_ok hsize
    obtain ⟨first, more, hfirst, hmore, rfl⟩ := emitLines_cons_ok hemit
    cases j with
    | zero =>
      cases hj
      exact ⟨[], first, more, rfl, rfl, hfirst⟩
    | succ j =>
      obtain ⟨before, here, after, rfl, hoffset, hhere⟩ := ih hrest hmore hj
      refine ⟨first ++ before, here, after, by simp, ?_, hhere⟩
      have hlength := emitLine_length hline hfirst
      rw [List.length_append, hlength]
      change _ = labelOffset rest j
      omega

/-- R219, R220: what substitution makes of line `j`. -/
theorem substituteAll_at {c : Collected} {ls : List SourceLine} {lines : List AsmLine}
    (h : substituteAll c ls = .ok lines) {j : Nat} {l : SourceLine} (hj : ls[j]? = some l) :
    ∃ op, substitute c l.operand = some op ∧ lines[j]? = some ⟨l.line, l.mnemonic, op⟩ := by
  induction ls generalizing lines j with
  | nil => cases hj
  | cons l' ls ih =>
    rw [substituteAll_cons] at h
    split at h
    case h_1 => cases h
    case h_2 op hop =>
      cases hrest : substituteAll c ls with
      | error e => rw [hrest] at h; cases h
      | ok rest =>
        rw [hrest] at h
        cases h
        cases j with
        | zero =>
          cases hj
          exact ⟨op, hop, rfl⟩
        | succ j => exact ih hrest hj

/-- R218, R219: the bare name of a label is replaced by its line index. -/
theorem substitute_label {c : Collected} {name : Text} {k : Nat} (href : asReference name = some (.bare, name))
    (hlabel : c.labels.lookup name = some k) : substitute c name = some (.label k) := by
  simp only [substitute, href, hlabel]

/-- R210: what assembles went through all stages. -/
theorem emitLines_of_assembleText {radix : RelRadix} {source : Text} {origin : Addr} {bytes : List Byte} {c : Collected}
    {lines : List AsmLine} {starts : List Nat} (h : assembleText radix source origin = .ok bytes)
    (hcollect : collect 1 ⟨[], [], []⟩ (splitLines source) = .ok c) (hsubst : substituteAll c c.lines = .ok lines)
    (hsize : sizeLines radix 0 lines = .ok starts) : emitLines radix origin starts starts lines = .ok bytes := by
  simpa only [assembleText, hcollect, hsubst, hsize] using h

/-- Settles O60: the bytes of line `j` stand at its offset, and are a branch that reaches its label. -/
theorem programBranchReachesItsLabel : Obligations.ProgramBranchReachesItsLabel := by
  intro radix source origin bytes c lines starts j k l m s hassemble hcollect hsubst hsize hj htext hmodes href hlabel
    hpc hmem hcond
  have hemit := emitLines_of_assembleText hassemble hcollect hsubst hsize
  obtain ⟨op, hop, hline⟩ := substituteAll_at hsubst hj
  cases hop.symm.trans (substitute_label href hlabel)
  obtain ⟨before, here, after, rfl, hoffset, hhere⟩ := emitLines_at hsize hemit hline
  rw [Nat.zero_add] at hoffset
  obtain ⟨hfar, hnear⟩ :=
    assembledBranchReachesItsLabel radix origin starts (labelOffset starts j) k l.line l.mnemonic m _ htext hmodes rfl
  by_cases hreach : -127 ≤ (labelOffset starts k : Int) - (labelOffset starts j + 2) ∧
      (labelOffset starts k : Int) - (labelOffset starts j + 2) ≤ 127
  · obtain ⟨opc, b, i, hbytes, -, -, hstep⟩ := hnear hreach.1 hreach.2
    cases hhere.symm.trans hbytes
    have hopc : memRead s s.pc = opc := by
      rw [hpc, ← hoffset]
      exact hmem _ _ (by simp)
    have hb : memRead s (s.pc + 1) = b := by
      rw [hpc, ← hoffset, show (1 : Addr) = BitVec.ofNat 16 1 from rfl, ← BitVec.ofNat_add, Nat.add_assoc]
      exact hmem _ _ (by simp)
    obtain ⟨t, ht, hstate⟩ := hstep s hpc hopc hb hcond
    exact ⟨t, ht, by rw [hstate]⟩
  · cases hhere.symm.trans (hfar (by omega))

end Sys2Proof.Machine
end
